-- ==== Sys2Proof/Config.lean ====
section
/-! DEFINITION. What an implementation fixes for a run: the named parameters of spec/00_scope.md R5. The source
gives no number for any of them, so they are an argument of the model: `Machine.State` carries one `Config`, no step
changes it, and every statement holds for every value of it. -/

namespace Sys2Proof

/-- The parameters of R5 (P1 to P5 of spec/93_implementation_defined.md), fixed for a run (R26). -/
structure Config where
  /-- `CAP_RX`: slots of the RX ring, the sacrificed one included. -/
  capRx : Nat
  /-- `CAP_TX`: slots of the TX ring. -/
  capTx : Nat
  /-- `STORAGE_MAX`: the largest capacity a ring's storage can be given. -/
  storageMax : Nat
  /-- `IDX_W`: width in bits of the one aligned word that holds an index (R44, R45). -/
  idxW : Nat
  /-- `HAS_STATS`: whether the minimum-free counter and its three operations exist (R16). -/
  hasStats : Bool
  /-- `BAUD_MIN`: the least accepted baud rate. -/
  baudMin : Nat
  /-- `BAUD_MAX`: the greatest accepted baud rate. -/
  baudMax : Nat
  /-- `RX_HW_DEPTH`: received bytes the UART can hold before an overrun. -/
  rxHwDepth : Nat
  deriving DecidableEq, Repr

/-- `baud_divisor`, the map from a baud rate to the value written to the baud-divisor register: an uninterpreted
function (R5, P4). Nothing can evaluate it, and no rule reads the register it is written to (R124). -/
opaque Config.baudDivisor : Nat → Nat

/-- The constraints R5 and P2 put on the parameters. -/
def Config.wf (c : Config) : Bool :=
  2 ≤ c.capRx && c.capRx ≤ c.storageMax && 2 ≤ c.capTx && c.capTx ≤ c.storageMax
    && c.storageMax < 2 ^ c.idxW && c.storageMax < 2 ^ 32
    && 0 < c.baudMin && c.baudMin ≤ c.baudMax && c.baudMax < 2 ^ 32
    && 1 ≤ c.rxHwDepth

/-- DESIGN CHOICE (log entry 1): the parameters `State.reset` starts with, those of the conventions of
spec/95_test_vectors.md, with `STORAGE_MAX` at the encoding's own limit. No statement rests on these values. -/
def Config.vectors : Config where
  capRx := 4
  capTx := 4
  storageMax := 0xFFFFFFFF
  idxW := 32
  hasStats := true
  baudMin := 1200
  baudMax := 115200
  rxHwDepth := 1

/-! The parameters of the surrounding software (spec/49_surrounding_software.md R201, P6 to P8). -/

/-- `TIME_VALIDATION`: which of the two sets of time ranges the setter checks (R217, P8). -/
inductive TimeValidation where
  | reference
  | corrected
  deriving DecidableEq, Repr

/-- The parameters of R201, none of which the source fixes: every function of the software takes them. -/
structure SoftConfig where
  /-- `LINE_N`: capacity of the line buffer in characters -/
  lineN : Nat
  /-- `ADC_CHANNELS` -/
  adcChannels : Nat
  /-- `TICK_HZ`: ticks per second -/
  tickHz : Nat
  /-- `ADC_MIN` -/
  adcMin : Nat
  /-- `ADC_MAX` -/
  adcMax : Nat
  /-- `TIME_VALIDATION` -/
  timeValidation : TimeValidation
  deriving DecidableEq, Repr

/-- The pseudo-random perturbation of the `k`-th read of an ADC register: any sequence (R233, P7). -/
opaque SoftConfig.jitter : Nat → Int

/-- The upper bound of the day check under `reference`: what the source's function returns for its swapped arguments,
which the document does not let one compute (R217, N34). -/
opaque SoftConfig.referenceDayBound : (year month : Nat) → Nat

/-- The days of a month outside 1 to 12, which the spec does not state (N33): any value (DESIGN CHOICE, log entry 32). -/
opaque SoftConfig.daysOutsideDomain : (year month : Nat) → Nat

end Sys2Proof
end

