-- ==== Sys2Proof/Word.lean ====
section
/-! DEFINITION. The word types of the block: the byte of a ring slot, the 32-bit operand and result word, the
48-bit command word (spec/00_scope.md R6, spec/30_encoding.md R61, R63, R64). -/

namespace Sys2Proof

/-- A byte: 8 bits, the only datum the block stores or moves (R6, R43). -/
abbrev Byte := BitVec 8

/-- An operand `arg` (R63) or a result word `res` (R64): 32 bits. -/
abbrev Word := BitVec 32

/-- A command word `cmd`: 48 bits, bit 47 the most significant (R61). -/
abbrev Command := BitVec 48

end Sys2Proof
end

