-- ==== Sys2Proof/Syntax.lean ====
section
/-! DEFINITION. The operations of the block as syntax: one constructor of `Instr` for each of the sixteen rows of
spec/opcode_table.json (spec/30_encoding.md R65), with the operands of R63. -/

namespace Sys2Proof

/-- The ring an `RB` operation names: `sel = 0x00` is `RX`, `sel = 0x01` is `TX` (R62). -/
inductive RingSel where
  | rx
  | tx
  deriving DecidableEq, Repr

/-- The sixteen operations of the opcode table. -/
inductive Instr where
  /-- `RB.INIT sel, cap` (R81). -/
  | rbInit (sel : RingSel) (cap : Word)
  /-- `RB.IS_FULL sel` (R82). -/
  | rbIsFull (sel : RingSel)
  /-- `RB.IS_EMPTY sel` (R83). -/
  | rbIsEmpty (sel : RingSel)
  /-- `RB.ENQUEUE sel, byte` (R84). -/
  | rbEnqueue (sel : RingSel) (byte : Byte)
  /-- `RB.DEQUEUE sel` (R85). -/
  | rbDequeue (sel : RingSel)
  /-- `RB.FREE_SLOTS sel` (R86). -/
  | rbFreeSlots (sel : RingSel)
  /-- `RB.RESET_STATS sel` (R87). -/
  | rbResetStats (sel : RingSel)
  /-- `RB.MIN_FREE sel` (R88). -/
  | rbMinFree (sel : RingSel)
  /-- `TP.INIT baud` (R101). -/
  | tpInit (baud : Word)
  /-- `TP.WRITE byte` (R103). -/
  | tpWrite (byte : Byte)
  /-- `TP.READ` (R105). -/
  | tpRead
  /-- `IRQ.MASK` (R108). -/
  | irqMask
  /-- `IRQ.UNMASK` (R109). -/
  | irqUnmask
  /-- `ISR`: one run of the interrupt handler (R144). -/
  | isr
  /-- `DEV.RX_ARRIVE byte` (R121). -/
  | devRxArrive (byte : Byte)
  /-- `DEV.TX_SHIFT` (R122). -/
  | devTxShift
  deriving DecidableEq, Repr

/-- Why a word is no operation (R66, V1 and V2 of spec/93_implementation_defined.md). -/
inductive Reserved where
  /-- fewer than the six bytes of a command word are left, which R67 leaves open (DESIGN CHOICE, log entry 33) -/
  | truncated
  /-- `grp` is none of 1 to 4 -/
  | group
  /-- `fn` is no function of its group -/
  | function
  /-- `sel >= 2` in group `RB`, or `sel != 0` in another group -/
  | selector
  /-- a bit of `arg` that the format does not use is not 0 -/
  | operand
  /-- an optional operation of the statistics while `HAS_STATS` is false -/
  | statsAbsent
  deriving DecidableEq, Repr

end Sys2Proof
end

