-- ==== Sys2Proof/Machine/State.lean ====
section
/-! DEFINITION. The state of the transport block as plain data (spec/10_state.md), the reasons a step can stop, and
the state after reset (R28). Beside what the spec names, State holds the model's own inputs (`trace`, `turns`), the
parameters of the run (`cfg`) and the result word last delivered (`res`); INVENTORY.md marks them. -/

namespace Sys2Proof.Machine

/-- A ring's storage array: the slots that have been written, as (slot, byte) pairs in strictly rising order of slot.
A slot that is not listed holds `none`: it was never written since reset (R11, R15). -/
abbrev Memory := List Host.Cell

/-- One ring buffer (R11). -/
structure Ring where
  /-- the ring has been created by `init` -/
  valid : Bool
  /-- `capacity`, the number of slots, the sacrificed one included -/
  cap : Nat
  /-- the byte array -/
  buf : Memory
  /-- the read index: the slot of the oldest stored byte -/
  rd : Nat
  /-- the write index: the slot the next byte goes to -/
  wr : Nat
  /-- the minimum-free counter, which exists if `HAS_STATS` (R16) -/
  minFree : Nat
  deriving DecidableEq, Repr

/-- The UART as far as the transport touches it (R20). -/
structure Uart where
  /-- the UART is enabled -/
  en : Bool
  /-- receive interrupt enable, for receive-data-ready and receiver-overrun -/
  rxie : Bool
  /-- the baud divisor -/
  brr : Nat
  /-- bytes received and not yet read; the head is the hardware receive register -/
  rxHw : List Byte
  /-- the receiver-overrun flag -/
  overrun : Bool
  /-- the hardware transmit register; `none` means empty -/
  tdr : Option Byte
  deriving DecidableEq, Repr

/-- Where an enqueue stands: the next micro-step of R84 with its locals, `w` the own index and `ds` the snapshot of
the consumer's. -/
inductive EnqStep where
  | e1
  | e2 (w : Nat)
  | e3 (w ds : Nat)
  | e4 (w ds : Nat)
  | e5 (w ds : Nat)
  | e6 (w ds : Nat)
  | e7
  deriving DecidableEq, Repr

/-- Where a dequeue stands: the next micro-step of R85 with its locals, `d` the own index, `ws` the snapshot of the
producer's, `b` the byte read. -/
inductive DeqStep where
  | q1
  | q2 (d : Nat)
  | q3 (d ws : Nat)
  | q4 (d : Nat)
  | q5 (d : Nat) (b : Byte)
  | q6 (b : Byte)
  deriving DecidableEq, Repr

/-- Where a query of the two indices stands: `wr` is read first, then `rd`, then the answer is given (R82, R83, R86;
R87 reads in the same order). -/
inductive QueryStep where
  | readWr
  | readRd (w : Nat)
  | answer (w d : Nat)
  deriving DecidableEq, Repr

/-- Where `RB.RESET_STATS` stands: the next micro-step of R87. -/
inductive StatsStep where
  | t1
  | t2 (w : Nat)
  | t3 (w d : Nat)
  | t4
  deriving DecidableEq, Repr

/-- Where `TP.INIT` stands: the next micro-step of R101. -/
inductive InitStep where
  | i1
  | i2
  | i3
  | i4
  | i5
  | i6
  deriving DecidableEq, Repr

/-- Where `TP.WRITE` stands: the next micro-step of R103, `W1` being a whole enqueue. -/
inductive WriteStep where
  | w1 (st : EnqStep)
  | w2 (ok : Bool)
  | w3
  | w4 (armed : Bool)
  | w5
  deriving DecidableEq, Repr

/-- Where `TP.READ` stands: the next micro-step of R105, `D1` being a whole dequeue. -/
inductive ReadStep where
  | d1 (st : DeqStep)
  | d2 (v : Option Byte)
  deriving DecidableEq, Repr

/-- `main_op`: the operation MAIN is in the middle of, with its operands, its next micro-step and its locals (R12). -/
inductive MainOp where
  | rbInit (sel : RingSel) (cap : Nat)
  | rbIsFull (sel : RingSel) (st : QueryStep)
  | rbIsEmpty (sel : RingSel) (st : QueryStep)
  | rbEnqueue (sel : RingSel) (byte : Byte) (st : EnqStep)
  | rbDequeue (sel : RingSel) (st : DeqStep)
  | rbFreeSlots (sel : RingSel) (st : QueryStep)
  | rbResetStats (sel : RingSel) (st : StatsStep)
  | rbMinFree (sel : RingSel)
  | tpInit (baud : Nat) (st : InitStep)
  | tpWrite (byte : Byte) (st : WriteStep)
  | tpRead (st : ReadStep)
  | irqMask
  | irqUnmask
  deriving DecidableEq, Repr

/-- `isr_op`: where a handler run stands (R12, R144). `H0` is the entry itself, so a run stands at `H1` or later.
`H1` is the loop test, the read of the receive register (R123) and the enqueue; `H2` the test and the clearing;
`H3` the test, the dequeue and what follows from its result. -/
inductive IsrOp where
  | h1Test
  | h1Read
  | h1Enqueue (byte : Byte) (st : EnqStep)
  | h2Test
  | h2Clear
  | h3Test
  | h3Dequeue (st : DeqStep)
  | h3Result (v : Option Byte)
  | h4
  deriving DecidableEq, Repr

/-- What the schedule does next (model's own; R50, R56 and R143 leave the order of the steps of the four agents
free, and this is that order written down). An empty schedule means `whole` for ever. -/
inductive Turn where
  /-- the next command word of the trace is run whole, without interruption (R62) -/
  | whole
  /-- the operation of the next command word is begun, and stops before its first micro-step; a word whose operation
  is one micro-step of DEV is run -/
  | start
  /-- the context that can move takes one micro-step: the handler while it runs, else MAIN -/
  | micro
  /-- the external reset event (R170) -/
  | reset
  deriving DecidableEq, Repr

/-- The whole machine. -/
structure State where
  /-- the parameters of the run (R5, R26): constant -/
  cfg : Config
  /-- the RX ring: producer ISR, consumer MAIN (R17) -/
  rx : Ring
  /-- the TX ring: producer MAIN, consumer ISR (R17) -/
  tx : Ring
  /-- the transmit-armed flag, which is the UART's transmit-empty interrupt enable (R17) -/
  txArmed : Bool
  /-- the transport has been initialised (R17) -/
  initialized : Bool
  /-- the interrupt mask (R19) -/
  irqMasked : Bool
  /-- the operation MAIN is in the middle of (R12) -/
  mainOp : Option MainOp
  /-- the handler run in progress (R12) -/
  isrOp : Option IsrOp
  /-- the device (R20) -/
  uart : Uart
  /-- the bytes DEV has put on the wire, oldest first (R22) -/
  wireOut : List Byte
  /-- how many received bytes never reached the RX ring (R22) -/
  wireInLost : Nat
  /-- the result word of the MAIN operation that returned last (R64) -/
  res : Word
  /-- the bytes of the command words not yet run (R62, R67) -/
  trace : List Byte
  /-- the schedule (model's own) -/
  turns : List Turn
  deriving DecidableEq, Repr

/-- Why the machine stops with a fault. Each is a read or write the spec says no rule performs. -/
inductive Fault where
  /-- `MemRead` of a slot that was never written (R15, R41, U5). Safe: the model stops and supplies no value. -/
  | unwrittenSlot (sel : RingSel) (slot : Nat)
  /-- `MemRead` or `MemWrite` outside `[0, cap)` or on a ring that is not valid (the preconditions of R41 and R42).
  Safe: the model stops. -/
  | slotOutOfRange (sel : RingSel) (slot : Nat)
  deriving DecidableEq, Repr

/-- Why an operation has no meaning here. Each is one the spec says the model refuses
(spec/93_implementation_defined.md, U1 to U8, V1, V2), so each is safe: nothing is proved of what follows. -/
inductive Refusal where
  /-- raised by `exec` for an instruction without a meaning; no arm of this model raises it -/
  | notModelled (mnemonic : String)
  /-- raised by the fetch: the word is no operation (R66, V1); by the statistics operations: `HAS_STATS` is false (V2) -/
  | reservedWord (why : Reserved)
  /-- raised by a MAIN operation issued while MAIN is inside one or while the handler runs (R12); a step never issues
  it then, it lets the word wait -/
  | mainBusy
  /-- raised by a ring operation on a ring that `init` has not created (R80, U3) -/
  | ringNotValid (sel : RingSel)
  /-- raised by `RB.INIT`, `RB.ENQUEUE`, `RB.DEQUEUE` of MAIN after `TP.INIT`: the transport owns the rings
  (R80, U1, U2) -/
  | ownedByTransport (sel : RingSel)
  /-- raised by `RB.RESET_STATS RX` of MAIN after `TP.INIT` with interrupts not masked: ISR is the producer (R80, U1) -/
  | notProducer (sel : RingSel)
  /-- raised by `RB.INIT` with `capacity < 2` or `capacity > STORAGE_MAX` (R81, U4) -/
  | badCapacity
  /-- raised by `TP.WRITE` and `TP.READ` before a successful `TP.INIT` (R103, R105, U3) -/
  | notInitialized
  /-- raised by `ISR` where no handler run may begin (R143, U7) -/
  | handlerNotEnabled
  /-- raised by `DEV.RX_ARRIVE` and `DEV.TX_SHIFT` while `uart.en` is false (R120, U8) -/
  | uartDisabled
  /-- raised by `DEV.TX_SHIFT` with the transmit register empty (R122, U8) -/
  | transmitRegisterEmpty
  /-- raised by `UartReadRx` with nothing held (R123, U6) -/
  | receiveRegisterEmpty
  /-- raised by `UartWriteTx` with the transmit register occupied (R123, U6) -/
  | transmitRegisterFull
  deriving DecidableEq, Repr

/-- A ring after reset (R28): not valid, no slot written. The spec states no value for `cap`, `rd`, `wr` and
`min_free`; 0 is the model's (DESIGN CHOICE, log entry 2), and no operation reads them while `valid` is false. -/
def Ring.reset : Ring where
  valid := false
  cap := 0
  buf := []
  rd := 0
  wr := 0
  minFree := 0

/-- The UART after reset (R28). The spec states no value for `brr`; 0 is the model's (DESIGN CHOICE, log entry 2). -/
def Uart.reset : Uart where
  en := false
  rxie := false
  brr := 0
  rxHw := []
  overrun := false
  tdr := none

/-- The state after reset of a block with the parameters `c` (R28, R171). `res` is 0 by DESIGN CHOICE (log entry 3);
no word is waiting and no schedule is given. -/
def State.resetWith (c : Config) : State where
  cfg := c
  rx := Ring.reset
  tx := Ring.reset
  txArmed := false
  initialized := false
  irqMasked := false
  mainOp := none
  isrOp := none
  uart := Uart.reset
  wireOut := []
  wireInLost := 0
  res := 0#32
  trace := []
  turns := []

/-- The machine right after reset, with the parameters of the spec's own test vectors (DESIGN CHOICE, log entry 1). -/
def State.reset : State := State.resetWith Config.vectors

end Sys2Proof.Machine
end

