-- ==== Sys2Proof/Machine/Flags.lean ====
section
/-! DEFINITION. The index arithmetic (spec/40_ring_buffer.md R89) and the flags, which are derived and never stored:
`full`, `empty` and the counts of a ring (spec/10_state.md R14), the conditions and requests of the UART (R21). -/

namespace Sys2Proof.Machine

/-- Increment modulo capacity, `(i + 1) mod cap` (R89). -/
def incMod (i cap : Nat) : Nat := (i + 1) % cap

/-- Difference modulo capacity, `(w - d) mod cap`, taken on integers and never negative (R6, R89). -/
def subMod (w d cap : Nat) : Nat := (((w : Int) - (d : Int)) % (cap : Int)).toNat

/-- "full" of two index values: `(w + 1) mod cap == d` (R14, R82). -/
def isFullOf (cap w d : Nat) : Bool := incMod w cap == d

/-- "empty" of two index values: `w == d` (R14, R83). -/
def isEmptyOf (w d : Nat) : Bool := w == d

/-- The free slots of two index values, `(cap - 1) - ((w - d) mod cap)` (R14, R86). -/
def freeOf (cap w d : Nat) : Nat := (cap - 1) - subMod w d cap

/-- `count(r)`: the bytes stored (R14). -/
def Ring.count (r : Ring) : Nat := subMod r.wr r.rd r.cap

/-- `free(r)`: the free slots (R14). -/
def Ring.free (r : Ring) : Nat := freeOf r.cap r.wr r.rd

/-- `full(r)` (R14). -/
def Ring.full (r : Ring) : Bool := isFullOf r.cap r.wr r.rd

/-- `empty(r)` (R14). -/
def Ring.empty (r : Ring) : Bool := isEmptyOf r.wr r.rd

/-- receive-data-ready: `uart.rx_hw` is not empty (R21). -/
def State.rxReady (s : State) : Bool := !s.uart.rxHw.isEmpty

/-- transmit-buffer-empty: `uart.tdr` is `none` (R21). -/
def State.txEmpty (s : State) : Bool := s.uart.tdr.isNone

/-- The request of receive-data-ready (R21). -/
def State.irqRx (s : State) : Bool := s.uart.rxie && s.rxReady

/-- The request of receiver-overrun, which shares the receive enable (R21, R142). -/
def State.irqOvr (s : State) : Bool := s.uart.rxie && s.uart.overrun

/-- The request of transmit-buffer-empty (R21). -/
def State.irqTx (s : State) : Bool := s.txArmed && s.txEmpty

/-- Some source requests the handler (R21, R142). Level-sensitive: nothing latches it (R25). -/
def State.irqPending (s : State) : Bool := s.initialized && (s.irqRx || s.irqOvr || s.irqTx)

/-- A handler run may begin at this boundary (R143). -/
def State.handlerEnabled (s : State) : Bool := s.irqPending && !s.irqMasked && s.isrOp.isNone

end Sys2Proof.Machine
end

