-- ==== Sys2Proof/WellFormed.lean ====
section
/-! DEFINITION. Which instructions are operations of a given implementation. The operands' own types carry the
widths of R63 and the two legal selectors of R62, so what is left to check is R66's last case: the three statistics
operations do not exist when `HAS_STATS` is false. -/

namespace Sys2Proof

/-- The three optional operations (R16, R66). -/
def Instr.needsStats : Instr → Bool
  | .rbFreeSlots _ => true
  | .rbResetStats _ => true
  | .rbMinFree _ => true
  | .rbInit _ _ => false
  | .rbIsFull _ => false
  | .rbIsEmpty _ => false
  | .rbEnqueue _ _ => false
  | .rbDequeue _ => false
  | .tpInit _ => false
  | .tpWrite _ => false
  | .tpRead => false
  | .irqMask => false
  | .irqUnmask => false
  | .isr => false
  | .devRxArrive _ => false
  | .devTxShift => false

/-- `i` is an operation of an implementation with `HAS_STATS = hasStats` (R66). -/
def Instr.wellFormed (hasStats : Bool) (i : Instr) : Bool := hasStats || !i.needsStats

end Sys2Proof
end

