-- ==== Sys2Proof/Machine/Operands.lean ====
section
/-! DEFINITION. Operand and result forms (spec/30_encoding.md R63, R64) and who issues an operation (R62). -/

namespace Sys2Proof.Machine

/-- The capacity operand of `RB.INIT`, a plain unsigned number (R63). -/
def capacityOperand (arg : Word) : Nat := arg.toNat

/-- The baud-rate operand of `TP.INIT`, a plain unsigned number (R63). -/
def baudOperand (arg : Word) : Nat := arg.toNat

/-- The result word of a `bool` and of success or failure: 1 or 0 (R64). -/
def boolResult (b : Bool) : Word := if b then 1#32 else 0#32

/-- The result word of an `Option byte`: `0x100 + b` for `some b`, 0 for `none` (R64). -/
def optionResult : Option Byte → Word
  | some b => 0x100#32 + b.setWidth 32
  | none => 0#32

/-- The result word of an `int`: the number, zero-extended (R64). -/
def intResult (n : Nat) : Word := BitVec.ofNat 32 n

/-- The result word of an operation that returns no value (R64). -/
def unitResult : Word := 0#32

/-- The operations MAIN issues: groups `RB`, `TP` and `IRQ` (R62). -/
def issuedByMain : Instr → Bool
  | .rbInit _ _ => true
  | .rbIsFull _ => true
  | .rbIsEmpty _ => true
  | .rbEnqueue _ _ => true
  | .rbDequeue _ => true
  | .rbFreeSlots _ => true
  | .rbResetStats _ => true
  | .rbMinFree _ => true
  | .tpInit _ => true
  | .tpWrite _ => true
  | .tpRead => true
  | .irqMask => true
  | .irqUnmask => true
  | .isr => false
  | .devRxArrive _ => false
  | .devTxShift => false

end Sys2Proof.Machine
end

