-- ==== Sys2Proof/Machine/Ops.lean ====
section
/-! DEFINITION. The named operations over storage and registers: the slot memory (spec/20_memory.md R40 to R42), the
ring registers, the accesses to the UART (spec/42_uart_device.md R121 to R123), the control state (spec/10_state.md
R12) and the entry to and the return from the one interrupt handler (spec/60_exceptions.md R143, R145, R149). -/

namespace Sys2Proof.Machine

/-- The outcome of an operation that, when it goes on, delivers an `α`. -/
abbrev Run (α : Type) := Host.Outcome α Fault Refusal

/-- Go on with what an outcome delivers; a fault or a refusal stays. -/
def andThen {α β : Type} (o : Run α) (k : α → Run β) : Run β :=
  match o with
  | .next a => k a
  | .fault f => .fault f
  | .refused r => .refused r

/-! The slot memory of one ring. -/

/-- The byte in a slot; `none` where nothing was ever written (R15). -/
def memGet : Memory → Nat → Option Byte
  | [], _ => none
  | (a, b) :: m, i => if a = i then some b else memGet m i

/-- The memory with byte `b` in slot `i`, the list kept in rising order. -/
def memPut : Memory → Nat → Byte → Memory
  | [], i, b => [(i, b)]
  | (a, c) :: m, i, b =>
    if i < a then (i, b) :: (a, c) :: m
    else if i = a then (i, b) :: m
    else (a, c) :: memPut m i b

/-- The one canonical form of a memory: slots strictly rising. An unlisted slot reads as no value, so no entry can
equal what an unlisted slot reads as. -/
abbrev Memory.wf (m : Memory) : Prop := m.Pairwise fun p q => p.1 < q.1

/-! The ring registers. -/

/-- The ring a selector names (R62). -/
def State.ring (s : State) : RingSel → Ring
  | .rx => s.rx
  | .tx => s.tx

/-- The state with that ring replaced. -/
def State.setRing (s : State) (sel : RingSel) (r : Ring) : State :=
  match sel with
  | .rx => { s with rx := r }
  | .tx => { s with tx := r }

/-- A ring operation goes on only on a valid ring (R80, item 1). -/
def withValid {α : Type} (sel : RingSel) (s : State) (k : Ring → Run α) : Run α :=
  if (s.ring sel).valid then k (s.ring sel) else .refused (.ringNotValid sel)

/-- `MemRead(r, i, 1)` (R41): a slot outside the array or a slot never written faults. -/
def memRead (sel : RingSel) (i : Nat) (s : State) : Run Byte :=
  if (s.ring sel).valid && decide (i < (s.ring sel).cap) then
    match memGet (s.ring sel).buf i with
    | some b => .next b
    | none => .fault (.unwrittenSlot sel i)
  else .fault (.slotOutOfRange sel i)

/-- `MemWrite(r, i, 1, b)` (R42): a slot outside the array faults. -/
def memWrite (sel : RingSel) (i : Nat) (b : Byte) (s : State) : Run State :=
  if (s.ring sel).valid && decide (i < (s.ring sel).cap) then
    .next (s.setRing sel { s.ring sel with buf := memPut (s.ring sel).buf i b })
  else .fault (.slotOutOfRange sel i)

/-- Write the write index of a ring: one atomic word write (R45). -/
def State.setWr (s : State) (sel : RingSel) (w : Nat) : State := s.setRing sel { s.ring sel with wr := w }

/-- Write the read index of a ring: one atomic word write (R45). -/
def State.setRd (s : State) (sel : RingSel) (d : Nat) : State := s.setRing sel { s.ring sel with rd := d }

/-- Write the minimum-free counter of a ring (R16). -/
def State.setMinFree (s : State) (sel : RingSel) (n : Nat) : State :=
  s.setRing sel { s.ring sel with minFree := n }

/-- A ring as `init` leaves it: empty, its array not cleared (R81). -/
def Ring.create (hasStats : Bool) (cap : Nat) (r : Ring) : Ring :=
  { r with
    cap := cap
    rd := 0
    wr := 0
    minFree := if hasStats then cap - 1 else r.minFree
    valid := true }

/-! The control state. -/

/-- MAIN stands at the next micro-step of an operation. -/
def State.mainAt (s : State) (op : MainOp) : State := { s with mainOp := some op }

/-- MAIN's operation returns and delivers its result word (R64). -/
def State.mainReturn (s : State) (res : Word) : State := { s with mainOp := none, res := res }

/-- The handler stands at the next micro-step of its run. -/
def State.isrAt (s : State) (op : IsrOp) : State := { s with isrOp := some op }

/-- MAIN issues an operation: only between its operations and not while the handler runs (R12). -/
def issueMain (op : MainOp) (s : State) : Run State :=
  if s.mainOp.isNone && s.isrOp.isNone then .next (s.mainAt op) else .refused .mainBusy

/-! Taking the interrupt and returning from it. -/

/-- Entry to the handler, micro-step `H0` (R144): only where R143 permits it. Nothing is saved, no mode, mask or
enable changes; MAIN's operation in progress stays as it is (R145). -/
def enterHandler (s : State) : Run State :=
  if s.handlerEnabled then .next (s.isrAt .h1Test) else .refused .handlerNotEnabled

/-- Return from the handler, micro-step `H4`: there is nothing to restore (R149). -/
def leaveHandler (s : State) : State := { s with isrOp := none }

/-! The UART. -/

/-- `UartReadRx()`: take the head of the receive register's queue (R123). -/
def uartReadRx (s : State) : Run (State × Byte) :=
  match s.uart.rxHw with
  | b :: rest => .next ({ s with uart := { s.uart with rxHw := rest } }, b)
  | [] => .refused .receiveRegisterEmpty

/-- `UartWriteTx(b)`: fill the transmit register (R123). -/
def uartWriteTx (b : Byte) (s : State) : Run State :=
  match s.uart.tdr with
  | none => .next { s with uart := { s.uart with tdr := some b } }
  | some _ => .refused .transmitRegisterFull

/-- `UartClearOverrun()` (R123). -/
def uartClearOverrun (s : State) : State := { s with uart := { s.uart with overrun := false } }

/-- A byte has arrived from PEER: held if there is room, else lost with the overrun flag set (R121). -/
def uartReceive (b : Byte) (s : State) : Run State :=
  if s.uart.en then
    if s.uart.rxHw.length < s.cfg.rxHwDepth then
      .next { s with uart := { s.uart with rxHw := s.uart.rxHw ++ [b] } }
    else
      .next { s with uart := { s.uart with overrun := true }, wireInLost := s.wireInLost + 1 }
  else .refused .uartDisabled

/-- The UART sends the byte of the transmit register (R122). -/
def uartShift (s : State) : Run State :=
  if s.uart.en then
    match s.uart.tdr with
    | some b => .next { s with wireOut := s.wireOut ++ [b], uart := { s.uart with tdr := none } }
    | none => .refused .transmitRegisterEmpty
  else .refused .uartDisabled

end Sys2Proof.Machine
end

