-- ==== Sys2Proof/Machine/Device.lean ====
section
/-! DEFINITION. The two steps DEV takes on its own, each one micro-step (spec/42_uart_device.md R121, R122). They may
fall between any two micro-steps of MAIN or of the handler (R56). -/

namespace Sys2Proof.Machine

/-- `DEV.RX_ARRIVE byte` (R121). -/
def execDevRxArrive (byte : Byte) (s : State) : Run State := uartReceive byte s

/-- `DEV.TX_SHIFT` (R122). -/
def execDevTxShift (s : State) : Run State := uartShift s

end Sys2Proof.Machine
end

