-- ==== Sys2Proof/Machine/Micro.lean ====
section
/-! DEFINITION. The micro-steps of every operation (spec/10_state.md R12), each the rule's own step list: the ring
operations R81 to R88, the transport operations R101 to R109, the handler R144. Between two micro-steps another agent
may move (spec/20_memory.md R56). `mainStep` and `isrStep` take one; `runMain` and `runHandler` take them without
interruption, as one command word stands for (R62). -/

namespace Sys2Proof.Machine

/-- What a micro-step of a part of an operation leads to: the next micro-step, or the part's result. -/
inductive Progress (σ ρ : Type) where
  | more (st : σ)
  | done (r : ρ)
  deriving DecidableEq, Repr

/-! Enqueue and dequeue, shared by MAIN and the handler. -/

/-- `E6`'s sample of the counter: `w1` is the new write index, `ds` the snapshot already held (R84). -/
def sampleMinFree (sel : RingSel) (w1 ds : Nat) (s : State) : State :=
  if s.cfg.hasStats && decide (freeOf (s.ring sel).cap w1 ds < (s.ring sel).minFree) then
    s.setMinFree sel (freeOf (s.ring sel).cap w1 ds)
  else s

/-- One micro-step of `RB.ENQUEUE` (R84): the slot write `E4` comes before the index write `E5` (R51). -/
def enqueueStep (sel : RingSel) (byte : Byte) (st : EnqStep) (s : State) : Run (State × Progress EnqStep Bool) :=
  match st with
  | .e1 => withValid sel s fun r => .next (s, .more (.e2 r.wr))
  | .e2 w => .next (s, .more (.e3 w (s.ring sel).rd))
  | .e3 w ds =>
    if isFullOf (s.ring sel).cap w ds then .next (s, .done false) else .next (s, .more (.e4 w ds))
  | .e4 w ds => andThen (memWrite sel w byte s) fun s' => .next (s', .more (.e5 w ds))
  | .e5 w ds => .next (s.setWr sel (incMod w (s.ring sel).cap), .more (.e6 w ds))
  | .e6 w ds => .next (sampleMinFree sel (incMod w (s.ring sel).cap) ds s, .more .e7)
  | .e7 => .next (s, .done true)

/-- One micro-step of `RB.DEQUEUE` (R85): the slot read `Q4` comes before the index write `Q5` (R51). -/
def dequeueStep (sel : RingSel) (st : DeqStep) (s : State) : Run (State × Progress DeqStep (Option Byte)) :=
  match st with
  | .q1 => withValid sel s fun r => .next (s, .more (.q2 r.rd))
  | .q2 d => .next (s, .more (.q3 d (s.ring sel).wr))
  | .q3 d ws => if isEmptyOf ws d then .next (s, .done none) else .next (s, .more (.q4 d))
  | .q4 d => andThen (memRead sel d s) fun b => .next (s, .more (.q5 d b))
  | .q5 d b => .next (s.setRd sel (incMod d (s.ring sel).cap), .more (.q6 b))
  | .q6 b => .next (s, .done (some b))

/-- One micro-step of a query of the two indices: `wr`, then `rd`, then the answer from the pair (R82, R83, R86). -/
def queryStep (sel : RingSel) (answer : Nat → Nat → Nat → Word) (st : QueryStep) (s : State) :
    Run (State × Progress QueryStep Word) :=
  match st with
  | .readWr => withValid sel s fun r => .next (s, .more (.readRd r.wr))
  | .readRd w => .next (s, .more (.answer w (s.ring sel).rd))
  | .answer w d => .next (s, .done (answer (s.ring sel).cap w d))

/-! One micro-step of each operation of MAIN. -/

/-- A part of MAIN's operation has moved: MAIN stands at the next micro-step, or goes on with the part's result. -/
def mainGoesOn {σ ρ : Type} (o : Run (State × Progress σ ρ)) (at' : σ → MainOp) (k : ρ → State → Run State) :
    Run State :=
  andThen o fun x =>
    match x with
    | (s', .more st') => .next (s'.mainAt (at' st'))
    | (s', .done v) => k v s'

/-- `RB.INIT`, one atomic micro-step (R81). -/
def microRbInit (sel : RingSel) (cap : Nat) (s : State) : Run State :=
  .next ((s.setRing sel ((s.ring sel).create s.cfg.hasStats cap)).mainReturn unitResult)

/-- `RB.IS_FULL`, `F1` to `F3` (R82). -/
def microRbIsFull (sel : RingSel) (st : QueryStep) (s : State) : Run State :=
  mainGoesOn (queryStep sel (fun cap w d => boolResult (isFullOf cap w d)) st s) (.rbIsFull sel)
    fun v s' => .next (s'.mainReturn v)

/-- `RB.IS_EMPTY`, `M1` to `M3` (R83). -/
def microRbIsEmpty (sel : RingSel) (st : QueryStep) (s : State) : Run State :=
  mainGoesOn (queryStep sel (fun _ w d => boolResult (isEmptyOf w d)) st s) (.rbIsEmpty sel)
    fun v s' => .next (s'.mainReturn v)

/-- `RB.ENQUEUE`, `E1` to `E7` (R84). -/
def microRbEnqueue (sel : RingSel) (byte : Byte) (st : EnqStep) (s : State) : Run State :=
  mainGoesOn (enqueueStep sel byte st s) (.rbEnqueue sel byte)
    fun ok s' => .next (s'.mainReturn (boolResult ok))

/-- `RB.DEQUEUE`, `Q1` to `Q6` (R85). -/
def microRbDequeue (sel : RingSel) (st : DeqStep) (s : State) : Run State :=
  mainGoesOn (dequeueStep sel st s) (.rbDequeue sel)
    fun v s' => .next (s'.mainReturn (optionResult v))

/-- `RB.FREE_SLOTS`, `S1` to `S3` (R86). -/
def microRbFreeSlots (sel : RingSel) (st : QueryStep) (s : State) : Run State :=
  mainGoesOn (queryStep sel (fun cap w d => intResult (freeOf cap w d)) st s) (.rbFreeSlots sel)
    fun v s' => .next (s'.mainReturn v)

/-- `RB.RESET_STATS`, `T1` to `T4` (R87). -/
def microRbResetStats (sel : RingSel) (st : StatsStep) (s : State) : Run State :=
  match st with
  | .t1 => withValid sel s fun r => .next (s.mainAt (.rbResetStats sel (.t2 r.wr)))
  | .t2 w => .next (s.mainAt (.rbResetStats sel (.t3 w (s.ring sel).rd)))
  | .t3 w d => .next ((s.setMinFree sel (freeOf (s.ring sel).cap w d)).mainAt (.rbResetStats sel .t4))
  | .t4 => .next (s.mainReturn unitResult)

/-- `RB.MIN_FREE`, one micro-step (R88). -/
def microRbMinFree (sel : RingSel) (s : State) : Run State :=
  withValid sel s fun r => .next (s.mainReturn (intResult r.minFree))

/-- `TP.INIT`, `I1` to `I6` (R101). -/
def microTpInit (baud : Nat) (st : InitStep) (s : State) : Run State :=
  match st with
  | .i1 => if s.initialized then .next (s.mainReturn (boolResult false)) else .next (s.mainAt (.tpInit baud .i2))
  | .i2 =>
    if baud < s.cfg.baudMin || s.cfg.baudMax < baud then .next (s.mainReturn (boolResult false))
    else .next (s.mainAt (.tpInit baud .i3))
  | .i3 =>
    .next ({ s with
      rx := s.rx.create s.cfg.hasStats s.cfg.capRx
      tx := s.tx.create s.cfg.hasStats s.cfg.capTx
      txArmed := false }.mainAt (.tpInit baud .i4))
  | .i4 => .next ({ s with uart := { s.uart with brr := Config.baudDivisor baud } }.mainAt (.tpInit baud .i5))
  | .i5 =>
    .next ({ s with
      uart := { s.uart with en := true, rxie := true }
      initialized := true }.mainAt (.tpInit baud .i6))
  | .i6 => .next (s.mainReturn (boolResult true))

/-- `TP.WRITE`, `W1` to `W5` (R103): the enqueue comes before the arming test (R187), and a failed enqueue goes back
to `W1` without end (R104). -/
def microTpWrite (byte : Byte) (st : WriteStep) (s : State) : Run State :=
  match st with
  | .w1 e =>
    mainGoesOn (enqueueStep .tx byte e s) (fun e' => .tpWrite byte (.w1 e'))
      fun ok s' => .next (s'.mainAt (.tpWrite byte (.w2 ok)))
  | .w2 ok => .next (s.mainAt (.tpWrite byte (if ok then .w3 else .w1 .e1)))
  | .w3 => .next (s.mainAt (.tpWrite byte (.w4 s.txArmed)))
  | .w4 armed =>
    .next ((if armed then s else { s with txArmed := true }).mainAt (.tpWrite byte .w5))
  | .w5 => .next (s.mainReturn unitResult)

/-- `TP.READ`, `D1` and `D2` (R105). -/
def microTpRead (st : ReadStep) (s : State) : Run State :=
  match st with
  | .d1 q =>
    mainGoesOn (dequeueStep .rx q s) (fun q' => .tpRead (.d1 q'))
      fun v s' => .next (s'.mainAt (.tpRead (.d2 v)))
  | .d2 v => .next (s.mainReturn (optionResult v))

/-- `IRQ.MASK`, one micro-step (R108). -/
def microIrqMask (s : State) : Run State := .next ({ s with irqMasked := true }.mainReturn unitResult)

/-- `IRQ.UNMASK`, one micro-step (R109). -/
def microIrqUnmask (s : State) : Run State := .next ({ s with irqMasked := false }.mainReturn unitResult)

/-- One micro-step of the operation MAIN is in the middle of. -/
def mainMicro (op : MainOp) (s : State) : Run State :=
  match op with
  | .rbInit sel cap => microRbInit sel cap s
  | .rbIsFull sel st => microRbIsFull sel st s
  | .rbIsEmpty sel st => microRbIsEmpty sel st s
  | .rbEnqueue sel byte st => microRbEnqueue sel byte st s
  | .rbDequeue sel st => microRbDequeue sel st s
  | .rbFreeSlots sel st => microRbFreeSlots sel st s
  | .rbResetStats sel st => microRbResetStats sel st s
  | .rbMinFree sel => microRbMinFree sel s
  | .tpInit baud st => microTpInit baud st s
  | .tpWrite byte st => microTpWrite byte st s
  | .tpRead st => microTpRead st s
  | .irqMask => microIrqMask s
  | .irqUnmask => microIrqUnmask s

/-- MAIN takes one micro-step; between operations it is idle (R12, R171). -/
def mainStep (s : State) : Run State :=
  match s.mainOp with
  | none => .next s
  | some op => mainMicro op s

/-! One micro-step of the handler. -/

/-- A part of the handler has moved. -/
def isrGoesOn {σ ρ : Type} (o : Run (State × Progress σ ρ)) (at' : σ → IsrOp) (k : ρ → State → Run State) :
    Run State :=
  andThen o fun x =>
    match x with
    | (s', .more st') => .next (s'.isrAt (at' st'))
    | (s', .done v) => k v s'

/-- The receive service's byte has been offered to the RX ring: when it did not fit it is lost (R146). -/
def receiveDone (ok : Bool) (s : State) : State :=
  (if ok then s else { s with wireInLost := s.wireInLost + 1 }).isrAt .h1Test

/-- The transmit service's dequeue has answered: hand the byte to the UART, or disarm (R148). -/
def transmitDone (v : Option Byte) (s : State) : Run State :=
  match v with
  | some b => andThen (uartWriteTx b s) fun s' => .next (s'.isrAt .h4)
  | none => .next ({ s with txArmed := false }.isrAt .h4)

/-- One micro-step of the handler, `H1` to `H4` of R144: receive service (R146), overrun service (R147), transmit
service (R148), return. -/
def isrMicro (op : IsrOp) (s : State) : Run State :=
  match op with
  | .h1Test => .next (s.isrAt (if s.rxReady then .h1Read else .h2Test))
  | .h1Read => andThen (uartReadRx s) fun x => .next (x.1.isrAt (.h1Enqueue x.2 .e1))
  | .h1Enqueue b e => isrGoesOn (enqueueStep .rx b e s) (.h1Enqueue b) fun ok s' => .next (receiveDone ok s')
  | .h2Test => .next (s.isrAt (if s.uart.overrun then .h2Clear else .h3Test))
  | .h2Clear => .next ((uartClearOverrun s).isrAt .h3Test)
  | .h3Test => .next (s.isrAt (if s.txArmed && s.txEmpty then .h3Dequeue .q1 else .h4))
  | .h3Dequeue q => isrGoesOn (dequeueStep .tx q s) .h3Dequeue fun v s' => .next (s'.isrAt (.h3Result v))
  | .h3Result v => transmitDone v s
  | .h4 => .next (leaveHandler s)

/-- The handler takes one micro-step. -/
def isrStep (s : State) : Run State :=
  match s.isrOp with
  | none => .next s
  | some op => isrMicro op s

/-- The context that can move takes one micro-step: the handler while it runs, for MAIN is frozen then (R12), else
MAIN; with neither in progress nothing moves. -/
def advance (s : State) : Run State := if s.isrOp.isSome then isrStep s else mainStep s

/-! Whole runs, without interruption. -/

/-- MAIN has come to the end of a whole run: the operation has returned, or `TP.WRITE` has found the ring full and is
back at `W1`, where it would find it full for ever if nothing else moved (R104). -/
def mainRunEnds (s : State) : Bool :=
  match s.mainOp with
  | none => true
  | some (.tpWrite _ (.w1 .e1)) => true
  | some _ => false

/-- MAIN's micro-steps until a run ends, at most `fuel` of them. -/
def runMainFor : Nat → State → Run State
  | 0, s => .next s
  | fuel + 1, s => andThen (mainStep s) fun s' => if mainRunEnds s' then .next s' else runMainFor fuel s'

/-- MAIN's operation run without interruption: no operation takes more than 11 micro-steps (R93, R103). -/
def runMain (s : State) : Run State := runMainFor 16 s

/-- The handler's micro-steps until it returns, at most `fuel` of them. -/
def runHandlerFor : Nat → State → Run State
  | 0, s => .next s
  | fuel + 1, s => andThen (isrStep s) fun s' => if s'.isrOp.isNone then .next s' else runHandlerFor fuel s'

/-- A handler run without interruption: at most 9 micro-steps for each byte the UART holds and 12 for the rest
(R144). -/
def runHandler (s : State) : Run State := runHandlerFor (9 * s.uart.rxHw.length + 16) s

end Sys2Proof.Machine
end

