-- ==== Sys2Proof/Machine/Handler.lean ====
section
/-! DEFINITION. The interrupt handler as an operation (spec/60_exceptions.md R143, R144). -/

namespace Sys2Proof.Machine

/-- A run of the handler begins: micro-step `H0`, where R143 permits it. -/
def startIsr (s : State) : Run State := enterHandler s

/-- `ISR`: one run of the handler, from `H0` to `H4` (R144). -/
def execIsr (s : State) : Run State := andThen (startIsr s) runHandler

end Sys2Proof.Machine
end

