-- ==== Sys2Proof/Machine/RingBuffer.lean ====
section
/-! DEFINITION. The ring-buffer operations of MAIN (spec/40_ring_buffer.md R80 to R88). For each, `start…` is the
legality check of R80 and the issue of the operation, and `exec…` its meaning as one command word: the micro-steps of
its rule, without interruption (R62). -/

namespace Sys2Proof.Machine

/-- `RB.INIT`, `RB.ENQUEUE` and `RB.DEQUEUE` of MAIN are legal only before `TP.INIT` (R80, item 2). -/
def whileUnowned (sel : RingSel) (s : State) (o : Run State) : Run State :=
  if s.initialized then .refused (.ownedByTransport sel) else o

/-- The statistics operations exist only if `HAS_STATS` (R80, item 3). -/
def withStats (s : State) (o : Run State) : Run State :=
  if s.cfg.hasStats then o else .refused (.reservedWord .statsAbsent)

/-- `RB.RESET_STATS` needs the producer role: after `TP.INIT` MAIN has it on `TX`, and on `RX` only while the handler
cannot run (R80, item 2). -/
def asStatsProducer (sel : RingSel) (s : State) (o : Run State) : Run State :=
  if !s.initialized || sel == .tx || s.irqMasked then o else .refused (.notProducer sel)

/-- A ring operation is issued only on a valid ring (R80, item 1). -/
def issueRing (sel : RingSel) (op : MainOp) (s : State) : Run State :=
  withValid sel s fun _ => issueMain op s

/-- Issue of `RB.INIT` (R80, R81): `2 <= capacity <= STORAGE_MAX`. -/
def startRbInit (sel : RingSel) (cap : Word) (s : State) : Run State :=
  whileUnowned sel s <|
    if 2 ≤ capacityOperand cap && capacityOperand cap ≤ s.cfg.storageMax then
      issueMain (.rbInit sel (capacityOperand cap)) s
    else .refused .badCapacity

/-- `RB.INIT` (R81). -/
def execRbInit (sel : RingSel) (cap : Word) (s : State) : Run State := andThen (startRbInit sel cap s) runMain

/-- Issue of `RB.IS_FULL` (R80). -/
def startRbIsFull (sel : RingSel) (s : State) : Run State := issueRing sel (.rbIsFull sel .readWr) s

/-- `RB.IS_FULL` (R82). -/
def execRbIsFull (sel : RingSel) (s : State) : Run State := andThen (startRbIsFull sel s) runMain

/-- Issue of `RB.IS_EMPTY` (R80). -/
def startRbIsEmpty (sel : RingSel) (s : State) : Run State := issueRing sel (.rbIsEmpty sel .readWr) s

/-- `RB.IS_EMPTY` (R83). -/
def execRbIsEmpty (sel : RingSel) (s : State) : Run State := andThen (startRbIsEmpty sel s) runMain

/-- Issue of `RB.ENQUEUE` (R80). -/
def startRbEnqueue (sel : RingSel) (byte : Byte) (s : State) : Run State :=
  whileUnowned sel s (issueRing sel (.rbEnqueue sel byte .e1) s)

/-- `RB.ENQUEUE` (R84). -/
def execRbEnqueue (sel : RingSel) (byte : Byte) (s : State) : Run State :=
  andThen (startRbEnqueue sel byte s) runMain

/-- Issue of `RB.DEQUEUE` (R80). -/
def startRbDequeue (sel : RingSel) (s : State) : Run State :=
  whileUnowned sel s (issueRing sel (.rbDequeue sel .q1) s)

/-- `RB.DEQUEUE` (R85). -/
def execRbDequeue (sel : RingSel) (s : State) : Run State := andThen (startRbDequeue sel s) runMain

/-- Issue of `RB.FREE_SLOTS` (R80). -/
def startRbFreeSlots (sel : RingSel) (s : State) : Run State :=
  withStats s (issueRing sel (.rbFreeSlots sel .readWr) s)

/-- `RB.FREE_SLOTS` (R86). -/
def execRbFreeSlots (sel : RingSel) (s : State) : Run State := andThen (startRbFreeSlots sel s) runMain

/-- Issue of `RB.RESET_STATS` (R80). -/
def startRbResetStats (sel : RingSel) (s : State) : Run State :=
  withStats s (asStatsProducer sel s (issueRing sel (.rbResetStats sel .t1) s))

/-- `RB.RESET_STATS` (R87). -/
def execRbResetStats (sel : RingSel) (s : State) : Run State := andThen (startRbResetStats sel s) runMain

/-- Issue of `RB.MIN_FREE` (R80). -/
def startRbMinFree (sel : RingSel) (s : State) : Run State := withStats s (issueRing sel (.rbMinFree sel) s)

/-- `RB.MIN_FREE` (R88). -/
def execRbMinFree (sel : RingSel) (s : State) : Run State := andThen (startRbMinFree sel s) runMain

end Sys2Proof.Machine
end

