-- ==== Sys2Proof/Machine/Transport.lean ====
section
/-! DEFINITION. The transport operations of MAIN and the interrupt mask (spec/41_transport.md R101 to R109): issue and
whole meaning of each. -/

namespace Sys2Proof.Machine

/-- `TP.WRITE` and `TP.READ` are legal only after a successful `TP.INIT` (R103, R105). -/
def whenInitialized (s : State) (o : Run State) : Run State :=
  if s.initialized then o else .refused .notInitialized

/-- Issue of `TP.INIT`, which has no precondition (R101). -/
def startTpInit (baud : Word) (s : State) : Run State := issueMain (.tpInit (baudOperand baud) .i1) s

/-- `TP.INIT` (R101, R102). -/
def execTpInit (baud : Word) (s : State) : Run State := andThen (startTpInit baud s) runMain

/-- Issue of `TP.WRITE` (R103). -/
def startTpWrite (byte : Byte) (s : State) : Run State :=
  whenInitialized s (issueMain (.tpWrite byte (.w1 .e1)) s)

/-- `TP.WRITE` (R103). On a full ring it has not returned: MAIN stands at `W1` again, and goes on with it at every
step that is MAIN's (R104). -/
def execTpWrite (byte : Byte) (s : State) : Run State := andThen (startTpWrite byte s) runMain

/-- Issue of `TP.READ` (R105). -/
def startTpRead (s : State) : Run State := whenInitialized s (issueMain (.tpRead (.d1 .q1)) s)

/-- `TP.READ` (R105). -/
def execTpRead (s : State) : Run State := andThen (startTpRead s) runMain

/-- Issue of `IRQ.MASK` (R108). -/
def startIrqMask (s : State) : Run State := issueMain .irqMask s

/-- `IRQ.MASK` (R108). -/
def execIrqMask (s : State) : Run State := andThen (startIrqMask s) runMain

/-- Issue of `IRQ.UNMASK` (R109). -/
def startIrqUnmask (s : State) : Run State := issueMain .irqUnmask s

/-- `IRQ.UNMASK` (R109). -/
def execIrqUnmask (s : State) : Run State := andThen (startIrqUnmask s) runMain

end Sys2Proof.Machine
end

