-- ==== Sys2Proof/Machine/Dispatch.lean ====
section
/-! DEFINITION. One arm per constructor of `Instr`: the meaning of a command word run whole (R62). -/

namespace Sys2Proof.Machine

def exec (i : Instr) (s : State) : Host.Outcome State Fault Refusal :=
  match i with
  | .rbInit sel cap => Sys2Proof.Machine.execRbInit sel cap s
  | .rbIsFull sel => Sys2Proof.Machine.execRbIsFull sel s
  | .rbIsEmpty sel => Sys2Proof.Machine.execRbIsEmpty sel s
  | .rbEnqueue sel byte => Sys2Proof.Machine.execRbEnqueue sel byte s
  | .rbDequeue sel => Sys2Proof.Machine.execRbDequeue sel s
  | .rbFreeSlots sel => Sys2Proof.Machine.execRbFreeSlots sel s
  | .rbResetStats sel => Sys2Proof.Machine.execRbResetStats sel s
  | .rbMinFree sel => Sys2Proof.Machine.execRbMinFree sel s
  | .tpInit baud => Sys2Proof.Machine.execTpInit baud s
  | .tpWrite byte => Sys2Proof.Machine.execTpWrite byte s
  | .tpRead => Sys2Proof.Machine.execTpRead s
  | .irqMask => Sys2Proof.Machine.execIrqMask s
  | .irqUnmask => Sys2Proof.Machine.execIrqUnmask s
  | .isr => Sys2Proof.Machine.execIsr s
  | .devRxArrive byte => Sys2Proof.Machine.execDevRxArrive byte s
  | .devTxShift => Sys2Proof.Machine.execDevTxShift s

end Sys2Proof.Machine
end

