-- ==== Sys2Proof/Decode.lean ====
section
/-! DEFINITION. The 48-bit command word (spec/30_encoding.md R61 to R67): its fields, the decoder, which is total
and names every word it rejects, and the encoder, both written from the operation map R65. -/

namespace Sys2Proof

/-- The four fields of a command word (R61). -/
structure Fields where
  /-- `cmd[47:44]` -/
  grp : BitVec 4
  /-- `cmd[43:40]` -/
  fn : BitVec 4
  /-- `cmd[39:32]` -/
  sel : BitVec 8
  /-- `cmd[31:0]` -/
  arg : Word
  deriving DecidableEq, Repr

/-- The fields of a word, cut out where R61 puts them. -/
def Fields.ofCommand (w : Command) : Fields where
  grp := w.extractLsb' 44 4
  fn := w.extractLsb' 40 4
  sel := w.extractLsb' 32 8
  arg := w.extractLsb' 0 32

/-- The word made of four fields, `grp` highest (R61). -/
def Fields.toCommand (f : Fields) : Command := f.grp ++ f.fn ++ f.sel ++ f.arg

/-- A ring operation's selector: `0x00` is `RX`, `0x01` is `TX`, every other value is reserved (R62, R66). -/
def decodeSel (f : Fields) (k : RingSel → Except Reserved Instr) : Except Reserved Instr :=
  if f.sel = 0#8 then k .rx else if f.sel = 1#8 then k .tx else .error .selector

/-- Outside group `RB`, `sel` must be 0 (R61). -/
def decodeNoSel (f : Fields) (e : Except Reserved Instr) : Except Reserved Instr :=
  if f.sel = 0#8 then e else .error .selector

/-- Formats `N` and `S`: `arg` must be 0 (R61). -/
def decodeNoArg (f : Fields) (i : Instr) : Except Reserved Instr :=
  if f.arg = 0#32 then .ok i else .error .operand

/-- Formats `SB` and `B`: the operand is `arg[7:0]` and `arg[31:8]` must be 0 (R63). -/
def decodeByte (f : Fields) (i : Byte → Instr) : Except Reserved Instr :=
  if f.arg.extractLsb' 8 24 = 0#24 then .ok (i (f.arg.extractLsb' 0 8)) else .error .operand

/-- An optional operation exists only if `HAS_STATS` (R66). -/
def decodeStats (hasStats : Bool) (e : Except Reserved Instr) : Except Reserved Instr :=
  if hasStats then e else .error .statsAbsent

/-- Group 1, `RB` (R65). -/
def decodeRing (hasStats : Bool) (f : Fields) : Except Reserved Instr :=
  match f.fn.toNat with
  | 0 => decodeSel f fun r => .ok (.rbInit r f.arg)
  | 1 => decodeSel f fun r => decodeNoArg f (.rbIsFull r)
  | 2 => decodeSel f fun r => decodeNoArg f (.rbIsEmpty r)
  | 3 => decodeSel f fun r => decodeByte f (.rbEnqueue r)
  | 4 => decodeSel f fun r => decodeNoArg f (.rbDequeue r)
  | 5 => decodeStats hasStats (decodeSel f fun r => decodeNoArg f (.rbFreeSlots r))
  | 6 => decodeStats hasStats (decodeSel f fun r => decodeNoArg f (.rbResetStats r))
  | 7 => decodeStats hasStats (decodeSel f fun r => decodeNoArg f (.rbMinFree r))
  | _ => .error .function

/-- Group 2, `TP` and `IRQ` (R65). -/
def decodeTransport (f : Fields) : Except Reserved Instr :=
  match f.fn.toNat with
  | 0 => decodeNoSel f (.ok (.tpInit f.arg))
  | 1 => decodeNoSel f (decodeByte f .tpWrite)
  | 2 => decodeNoSel f (decodeNoArg f .tpRead)
  | 8 => decodeNoSel f (decodeNoArg f .irqMask)
  | 9 => decodeNoSel f (decodeNoArg f .irqUnmask)
  | _ => .error .function

/-- Group 3, `ISR` (R65). -/
def decodeHandler (f : Fields) : Except Reserved Instr :=
  match f.fn.toNat with
  | 0 => decodeNoSel f (decodeNoArg f .isr)
  | _ => .error .function

/-- Group 4, `DEV` (R65). -/
def decodeDevice (f : Fields) : Except Reserved Instr :=
  match f.fn.toNat with
  | 0 => decodeNoSel f (decodeByte f .devRxArrive)
  | 1 => decodeNoSel f (decodeNoArg f .devTxShift)
  | _ => .error .function

/-- The operation a command word stands for, or why it is reserved (R65, R66). -/
def decodeCommand (hasStats : Bool) (w : Command) : Except Reserved Instr :=
  match (Fields.ofCommand w).grp.toNat with
  | 1 => decodeRing hasStats (Fields.ofCommand w)
  | 2 => decodeTransport (Fields.ofCommand w)
  | 3 => decodeHandler (Fields.ofCommand w)
  | 4 => decodeDevice (Fields.ofCommand w)
  | _ => .error .group

/-- The six bytes of a command word, most significant first (R67). -/
def commandBytes (w : Command) : List Byte :=
  [w.extractLsb' 40 8, w.extractLsb' 32 8, w.extractLsb' 24 8,
   w.extractLsb' 16 8, w.extractLsb' 8 8, w.extractLsb' 0 8]

/-- The first command word of a trace's bytes and the bytes after it (R67). -/
def takeCommand : List Byte → Option (Command × List Byte)
  | b0 :: b1 :: b2 :: b3 :: b4 :: b5 :: rest => some (b0 ++ b1 ++ b2 ++ b3 ++ b4 ++ b5, rest)
  | _ => none

/-- The first operation of a trace's bytes and the bytes after it. Total: every other beginning is rejected by
name (R66, R67). DESIGN CHOICE (log entry 33): R67 gives a trace whole words only, and fewer than six bytes at its end
are rejected here as `truncated`. -/
def decode (hasStats : Bool) (bytes : List Byte) : Except Reserved (Instr × List Byte) :=
  match takeCommand bytes with
  | none => .error .truncated
  | some (w, rest) =>
    match decodeCommand hasStats w with
    | .ok i => .ok (i, rest)
    | .error e => .error e

/-- The selector's number (R62). -/
def encodeSel : RingSel → BitVec 8
  | .rx => 0x00#8
  | .tx => 0x01#8

/-- A byte operand in `arg[7:0]`, the bits above it 0 (R63). -/
def encodeByte (b : Byte) : Word := 0#24 ++ b

/-- The fields of an instruction's word, row by row of R65. -/
def encodeFields : Instr → Fields
  | .rbInit sel cap => ⟨0x1#4, 0x0#4, encodeSel sel, cap⟩
  | .rbIsFull sel => ⟨0x1#4, 0x1#4, encodeSel sel, 0#32⟩
  | .rbIsEmpty sel => ⟨0x1#4, 0x2#4, encodeSel sel, 0#32⟩
  | .rbEnqueue sel b => ⟨0x1#4, 0x3#4, encodeSel sel, encodeByte b⟩
  | .rbDequeue sel => ⟨0x1#4, 0x4#4, encodeSel sel, 0#32⟩
  | .rbFreeSlots sel => ⟨0x1#4, 0x5#4, encodeSel sel, 0#32⟩
  | .rbResetStats sel => ⟨0x1#4, 0x6#4, encodeSel sel, 0#32⟩
  | .rbMinFree sel => ⟨0x1#4, 0x7#4, encodeSel sel, 0#32⟩
  | .tpInit baud => ⟨0x2#4, 0x0#4, 0#8, baud⟩
  | .tpWrite b => ⟨0x2#4, 0x1#4, 0#8, encodeByte b⟩
  | .tpRead => ⟨0x2#4, 0x2#4, 0#8, 0#32⟩
  | .irqMask => ⟨0x2#4, 0x8#4, 0#8, 0#32⟩
  | .irqUnmask => ⟨0x2#4, 0x9#4, 0#8, 0#32⟩
  | .isr => ⟨0x3#4, 0x0#4, 0#8, 0#32⟩
  | .devRxArrive b => ⟨0x4#4, 0x0#4, 0#8, encodeByte b⟩
  | .devTxShift => ⟨0x4#4, 0x1#4, 0#8, 0#32⟩

/-- The command word of an instruction (R65). -/
def encodeCommand (i : Instr) : Command := (encodeFields i).toCommand

/-- The bytes of an instruction in a trace (R67). -/
def encode (i : Instr) : List Byte := commandBytes (encodeCommand i)

/-- What the decoder reads from a row's word, numbered as spec/opcode_table.json numbers it: `w` is the 48-bit
command word, laid out as its six bytes (R67). The table's rows are those of an implementation with `HAS_STATS`. -/
def decodeTableWord (nbits w : Nat) : Option Instr :=
  match decode true (commandBytes (BitVec.ofNat 48 (w % 2 ^ nbits))) with
  | .ok (i, _) => some i
  | .error _ => none

/-- A row of the opcode table: a word `w` is the row's when `w AND mask = pattern` (R65). -/
structure OpcodeRow where
  /-- the row's mnemonic, letter for letter -/
  mnemonic : String
  /-- the row's `match` -/
  pattern : Command
  /-- the row's `mask` -/
  mask : Command
  deriving DecidableEq, Repr

/-- The sixteen rows of spec/opcode_table.json (R65). -/
def opcodeTable : List OpcodeRow :=
  [⟨"RB.INIT", 0x100000000000#48, 0xFFFE00000000#48⟩,
   ⟨"RB.IS_FULL", 0x110000000000#48, 0xFFFEFFFFFFFF#48⟩,
   ⟨"RB.IS_EMPTY", 0x120000000000#48, 0xFFFEFFFFFFFF#48⟩,
   ⟨"RB.ENQUEUE", 0x130000000000#48, 0xFFFEFFFFFF00#48⟩,
   ⟨"RB.DEQUEUE", 0x140000000000#48, 0xFFFEFFFFFFFF#48⟩,
   ⟨"RB.FREE_SLOTS", 0x150000000000#48, 0xFFFEFFFFFFFF#48⟩,
   ⟨"RB.RESET_STATS", 0x160000000000#48, 0xFFFEFFFFFFFF#48⟩,
   ⟨"RB.MIN_FREE", 0x170000000000#48, 0xFFFEFFFFFFFF#48⟩,
   ⟨"TP.INIT", 0x200000000000#48, 0xFFFF00000000#48⟩,
   ⟨"TP.WRITE", 0x210000000000#48, 0xFFFFFFFFFF00#48⟩,
   ⟨"TP.READ", 0x220000000000#48, 0xFFFFFFFFFFFF#48⟩,
   ⟨"IRQ.MASK", 0x280000000000#48, 0xFFFFFFFFFFFF#48⟩,
   ⟨"IRQ.UNMASK", 0x290000000000#48, 0xFFFFFFFFFFFF#48⟩,
   ⟨"ISR", 0x300000000000#48, 0xFFFFFFFFFFFF#48⟩,
   ⟨"DEV.RX_ARRIVE", 0x400000000000#48, 0xFFFFFFFFFF00#48⟩,
   ⟨"DEV.TX_SHIFT", 0x410000000000#48, 0xFFFFFFFFFFFF#48⟩]

/-- The rows a word matches. -/
def rowsOf (w : Command) : List OpcodeRow := opcodeTable.filter fun r => w &&& r.mask == r.pattern

/-- The mnemonic of an instruction (R65). -/
def Instr.mnemonic : Instr → String
  | .rbInit _ _ => "RB.INIT"
  | .rbIsFull _ => "RB.IS_FULL"
  | .rbIsEmpty _ => "RB.IS_EMPTY"
  | .rbEnqueue _ _ => "RB.ENQUEUE"
  | .rbDequeue _ => "RB.DEQUEUE"
  | .rbFreeSlots _ => "RB.FREE_SLOTS"
  | .rbResetStats _ => "RB.RESET_STATS"
  | .rbMinFree _ => "RB.MIN_FREE"
  | .tpInit _ => "TP.INIT"
  | .tpWrite _ => "TP.WRITE"
  | .tpRead => "TP.READ"
  | .irqMask => "IRQ.MASK"
  | .irqUnmask => "IRQ.UNMASK"
  | .isr => "ISR"
  | .devRxArrive _ => "DEV.RX_ARRIVE"
  | .devTxShift => "DEV.TX_SHIFT"

/-- A selector in the trace syntax (R68). -/
def RingSel.text : RingSel → String
  | .rx => "RX"
  | .tx => "TX"

/-- The operands of an instruction in the trace syntax, numbers in decimal (R68). -/
def Instr.operandTexts : Instr → List String
  | .rbInit sel cap => [sel.text, cap.toNat.repr]
  | .rbIsFull sel => [sel.text]
  | .rbIsEmpty sel => [sel.text]
  | .rbEnqueue sel b => [sel.text, b.toNat.repr]
  | .rbDequeue sel => [sel.text]
  | .rbFreeSlots sel => [sel.text]
  | .rbResetStats sel => [sel.text]
  | .rbMinFree sel => [sel.text]
  | .tpInit baud => [baud.toNat.repr]
  | .tpWrite b => [b.toNat.repr]
  | .tpRead => []
  | .irqMask => []
  | .irqUnmask => []
  | .isr => []
  | .devRxArrive b => [b.toNat.repr]
  | .devTxShift => []

/-- One line of the trace syntax: `MNEMONIC operand, operand` (R68). -/
def Instr.text (i : Instr) : String :=
  match i.operandTexts with
  | [] => i.mnemonic
  | a :: rest => rest.foldl (fun acc x => acc ++ ", " ++ x) (i.mnemonic ++ " " ++ a)

end Sys2Proof
end

