-- ==== Sys2Proof/Machine/Fetch.lean ====
section
/-! DEFINITION. The order of the steps (spec/20_memory.md R50, R56): which agent moves next is read from the state's
`turns` and `trace`, both plain data, so that the step is a function. Every interleaving the spec admits is some such
schedule, and every schedule is admitted. -/

namespace Sys2Proof.Machine

/-- The operation of a word is begun: MAIN's stands before its first micro-step, a handler run has taken `H0`, a step
of DEV is one micro-step and is taken (R12, R143). -/
def startInstr (i : Instr) (s : State) : Run State :=
  match i with
  | .rbInit sel cap => startRbInit sel cap s
  | .rbIsFull sel => startRbIsFull sel s
  | .rbIsEmpty sel => startRbIsEmpty sel s
  | .rbEnqueue sel byte => startRbEnqueue sel byte s
  | .rbDequeue sel => startRbDequeue sel s
  | .rbFreeSlots sel => startRbFreeSlots sel s
  | .rbResetStats sel => startRbResetStats sel s
  | .rbMinFree sel => startRbMinFree sel s
  | .tpInit baud => startTpInit baud s
  | .tpWrite byte => startTpWrite byte s
  | .tpRead => startTpRead s
  | .irqMask => startIrqMask s
  | .irqUnmask => startIrqUnmask s
  | .isr => startIsr s
  | .devRxArrive byte => execDevRxArrive byte s
  | .devTxShift => execDevTxShift s

/-- MAIN cannot issue `i` yet: it is inside an operation, or frozen while the handler runs (R12). -/
def mustWait (i : Instr) (s : State) : Bool := issuedByMain i && (s.mainOp.isSome || s.isrOp.isSome)

/-- Take the next command word off the trace and do `run` with its operation, `rest` being the schedule after this
turn. A word MAIN cannot issue yet waits, turn and all, while the context that can move takes one micro-step; with no
word left that context moves too. -/
def runNext (run : Instr → State → Run State) (rest : List Turn) (s : State) : Run State :=
  if s.trace.isEmpty then advance { s with turns := rest }
  else
    match decode s.cfg.hasStats s.trace with
    | .error why => .refused (.reservedWord why)
    | .ok (i, bytes) =>
      if mustWait i s then advance s else run i { s with trace := bytes, turns := rest }

/-- The external reset event: everything the block holds goes to its value after reset at once, whatever was in
progress; the parameters, the words not yet run and the schedule are not the block's (R170). -/
def resetEvent (rest : List Turn) (s : State) : State :=
  { State.resetWith s.cfg with trace := s.trace, turns := rest }

/-- One step of the machine, `whole` being what a word run whole does. -/
def takeTurn (whole : Instr → State → Run State) (s : State) : Run State :=
  match s.turns with
  | [] => runNext whole [] s
  | .whole :: rest => runNext whole rest s
  | .start :: rest => runNext startInstr rest s
  | .micro :: rest => advance { s with turns := rest }
  | .reset :: rest => .next (resetEvent rest s)

/-- The state with one more command word in front of the trace, and the turn that runs it whole. -/
def pushCommand (w : Command) (s : State) : State :=
  { s with trace := commandBytes w ++ s.trace, turns := .whole :: s.turns }

end Sys2Proof.Machine
end

