-- ==== Sys2Proof/Machine/Step.lean ====
section
/-! DEFINITION. The step function, and the placing of one command word where the next step fetches it. -/

namespace Sys2Proof.Machine

/-- One step: the turn the schedule gives next (`takeTurn`), a word run whole having the meaning `exec` gives it. -/
def step (s : State) : Host.Outcome State Fault Refusal := takeTurn exec s

/-- `s` with the command word whose bits are `w` placed at the front of the trace, to be run whole by the next step.
The words already waiting come after it. -/
def State.withFetchWord (s : State) (nbits w : Nat) : State :=
  pushCommand (BitVec.ofNat 48 (w % 2 ^ nbits)) s

end Sys2Proof.Machine
end

