-- ==== Sys2Proof/Machine/Clock.lean ====
section
/-! DEFINITION. Context above the block: the wall clock of the surrounding software (spec/49_surrounding_software.md
R217, R229 to R232). No step of the machine calls it (R153, R200). -/

namespace Sys2Proof.Machine

/-- A time of day (R229). -/
structure TimeOfDay where
  year : Nat
  month : Nat
  day : Nat
  hour : Nat
  minute : Nat
  second : Nat
  deriving DecidableEq, Repr

/-- The Gregorian leap-year rule (R232; the spec marks it as general knowledge). -/
def isLeapYear (year : Nat) : Bool := (year % 4 == 0 && year % 100 != 0) || year % 400 == 0

/-- `days_in_month(year, month)` (R232). For a month outside 1 to 12 the spec states no value (N33), and none is chosen
(DESIGN CHOICE, log entry 32). -/
def daysInMonth (year month : Nat) : Nat :=
  if month = 2 then (if isLeapYear year then 29 else 28)
  else if month = 4 ∨ month = 6 ∨ month = 9 ∨ month = 11 then 30
  else if 1 ≤ month ∧ month ≤ 12 then 31
  else SoftConfig.daysOutsideDomain year month

/-- The years' turn of `advance_one_second()` (R230): past the year 3000 the clock has no next value, as S5 asks. -/
def advanceYear (t : TimeOfDay) : Option TimeOfDay :=
  if t.year + 1 > 3000 then none else some { t with year := t.year + 1 }

/-- The months' turn of `advance_one_second()` (R230). -/
def advanceMonth (t : TimeOfDay) : Option TimeOfDay :=
  if t.month + 1 > 12 then advanceYear { t with month := 1 } else some { t with month := t.month + 1 }

/-- The days' turn of `advance_one_second()` (R230). -/
def advanceDay (t : TimeOfDay) : Option TimeOfDay :=
  if t.day + 1 > daysInMonth t.year t.month then advanceMonth { t with day := 1 } else some { t with day := t.day + 1 }

/-- The hours' turn of `advance_one_second()` (R230). -/
def advanceHour (t : TimeOfDay) : Option TimeOfDay :=
  if t.hour + 1 ≥ 24 then advanceDay { t with hour := 0 } else some { t with hour := t.hour + 1 }

/-- The minutes' turn of `advance_one_second()` (R230). -/
def advanceMinute (t : TimeOfDay) : Option TimeOfDay :=
  if t.minute + 1 ≥ 60 then advanceHour { t with minute := 0 } else some { t with minute := t.minute + 1 }

/-- `advance_one_second()` (R230): the comparisons are `>=`, so that a stored 60 rolls over. It has no value where the
year would pass 3000: the spec states nothing there and asks for a refusal (S5). -/
def advanceOneSecond (t : TimeOfDay) : Option TimeOfDay :=
  if t.second + 1 ≥ 60 then advanceMinute { t with second := 0 } else some { t with second := t.second + 1 }

/-- `advance_one_second()` applied `k` times. -/
def advanceSeconds : Nat → TimeOfDay → Option TimeOfDay
  | 0, t => some t
  | k + 1, t => (advanceOneSecond t).bind (advanceSeconds k)

/-- The upper bound of the day check (R217). -/
def dayBound (c : SoftConfig) (t : TimeOfDay) : Nat :=
  match c.timeValidation with
  | .reference => SoftConfig.referenceDayBound t.year t.month
  | .corrected => daysInMonth t.year t.month

/-- The range check of the time setter, one column of R217's table for each value of `TIME_VALIDATION`. -/
def timeInRange (c : SoftConfig) (t : TimeOfDay) : Bool :=
  decide (2000 ≤ t.year ∧ t.year ≤ 3000 ∧ 1 ≤ t.month ∧ t.month ≤ 12 ∧ 1 ≤ t.day ∧ t.day ≤ 31) &&
    (match c.timeValidation with
     | .reference =>
       decide (1 ≤ t.hour ∧ t.hour ≤ 23 ∧ 1 ≤ t.minute ∧ t.minute ≤ 60 ∧ 1 ≤ t.second ∧ t.second ≤ 60)
     | .corrected => decide (t.hour ≤ 23 ∧ t.minute ≤ 59 ∧ t.second ≤ 59)) &&
    decide (t.day ≤ dayBound c t)

/-- The domain of a stored time (R229): under the reference validation a minute or second of 60 is reachable, and the
day is only known to lie in 1 to 31. -/
def TimeOfDay.inDomain (c : SoftConfig) (t : TimeOfDay) : Bool :=
  decide (2000 ≤ t.year ∧ t.year ≤ 3000 ∧ 1 ≤ t.month ∧ t.month ≤ 12 ∧ 1 ≤ t.day ∧ t.day ≤ 31 ∧ t.hour ≤ 23) &&
    (match c.timeValidation with
     | .reference => decide (t.minute ≤ 60 ∧ t.second ≤ 60)
     | .corrected => decide (t.minute ≤ 59 ∧ t.second ≤ 59 ∧ t.day ≤ daysInMonth t.year t.month))

end Sys2Proof.Machine
end

