-- ==== Sys2Proof/Machine/Codec.lean ====
section
/-! DEFINITION. Context above the block: the codec of the surrounding software, pure functions from numbers to ASCII
characters and back (spec/49_surrounding_software.md R204 to R207). No step of the machine calls them (R200). -/

namespace Sys2Proof.Machine

/-- The ASCII character of a hex digit, lowercase (R204, R205). -/
def hexDigit (n : Nat) : Byte := if n < 10 then BitVec.ofNat 8 (0x30 + n) else BitVec.ofNat 8 (0x61 + (n - 10))

/-- The last `k` hex digits of a number, most significant first, leading zeros kept (R205). -/
def encodeHex : Nat → Nat → List Byte
  | 0, _ => []
  | k + 1, x => hexDigit (x / 16 ^ k % 16) :: encodeHex k x

/-- `encode_hex_8` (R205). -/
def encodeHex8 (x : BitVec 8) : List Byte := encodeHex 2 x.toNat

/-- `encode_hex_16` (R205). -/
def encodeHex16 (x : BitVec 16) : List Byte := encodeHex 4 x.toNat

/-- `encode_hex_32` (R205). -/
def encodeHex32 (x : BitVec 32) : List Byte := encodeHex 8 x.toNat

/-- The value of a decimal digit's character, if it is one. -/
def decValue (c : Byte) : Option Nat :=
  if 0x30 ≤ c.toNat ∧ c.toNat ≤ 0x39 then some (c.toNat - 0x30) else none

/-- The value of a hex digit's character, if it is in `[0-9a-f]`; uppercase is not (R206). -/
def hexValue (c : Byte) : Option Nat :=
  match decValue c with
  | some n => some n
  | none => if 0x61 ≤ c.toNat ∧ c.toNat ≤ 0x66 then some (c.toNat - 0x61 + 10) else none

/-- The number a run of characters spells in base `base`, first character most significant, `acc` being what the
characters before it spell; none if some character is no digit. -/
def decodeDigits (base : Nat) (digit : Byte → Option Nat) : Nat → List Byte → Option Nat
  | acc, [] => some acc
  | acc, c :: rest =>
    match digit c with
    | some n => decodeDigits base digit (acc * base + n) rest
    | none => none

/-- `decode_hex` of a run of hex characters (R206). -/
def decodeHex (s : List Byte) : Option Nat := decodeDigits 16 hexValue 0 s

/-- `decode_hex_8`: exactly two characters (R206). -/
def decodeHex8 (s : List Byte) : Option (BitVec 8) := if s.length = 2 then (decodeHex s).map (BitVec.ofNat 8) else none

/-- `decode_hex_16`: exactly four characters (R206). -/
def decodeHex16 (s : List Byte) : Option (BitVec 16) :=
  if s.length = 4 then (decodeHex s).map (BitVec.ofNat 16) else none

/-- `decode_hex_32`: exactly eight characters (R206). -/
def decodeHex32 (s : List Byte) : Option (BitVec 32) :=
  if s.length = 8 then (decodeHex s).map (BitVec.ofNat 32) else none

/-- `decode_dec(s, n)`: a run of exactly `n` decimal characters (R207). -/
def decodeDec (s : List Byte) (n : Nat) : Option Nat :=
  if s.length = n then decodeDigits 10 decValue 0 s else none

end Sys2Proof.Machine
end

