-- ==== Sys2Proof/Machine/Protocol.lean ====
section
/-! DEFINITION. Context above the block: the line assembler, the protocol dispatcher, the device state and the
firmware's calls (spec/49_surrounding_software.md R208 to R228, R231, R233 to R237). The software reaches the block
only through `TP.READ` and `TP.WRITE` (R200): what a call writes is a list of `TP.WRITE` operations here, which
Machine/Firmware.lean hands to the block. No step of the machine calls the software. What the spec leaves unstated (S3,
S5) is not given a value. -/

namespace Sys2Proof.Machine

/-- The error codes in the order of R222's list. -/
inductive ErrorCode where
  | none
  | unspecified
  | unknownScreen
  | unknownItem
  | length
  | decode
  | value
  deriving DecidableEq, Repr

/-- The numeric value of an error code: the document fixes `LENGTH = 4`; the rest is the spec's inference (R222, D23). -/
def ErrorCode.number : ErrorCode → BitVec 8
  | .none => 0#8
  | .unspecified => 1#8
  | .unknownScreen => 2#8
  | .unknownItem => 3#8
  | .length => 4#8
  | .decode => 5#8
  | .value => 6#8

/-- DeviceState (R226): ten screens, three 8-bit masks, the ADC registers indexed by channel, the time. -/
structure DeviceState where
  screen : Fin 10
  led : BitVec 8
  switches : BitVec 8
  buttons : BitVec 8
  adc : List (BitVec 16)
  time : TimeOfDay
  deriving DecidableEq, Repr

/-- The domain of the device state, within which its initial value is any (R226, S1): one ADC register for each
channel, a stored time in its domain; the other fields' types are their domains. -/
def DeviceState.inDomain (c : SoftConfig) (d : DeviceState) : Bool :=
  d.adc.length == c.adcChannels && d.time.inDomain c

/-- The software's whole state: the line buffer's characters (`pos` is how many), the device state, the ticks of the
running second, the ADC reads made, and whether the firmware has halted. -/
structure Software where
  line : List Byte
  device : DeviceState
  ticks : Nat
  draws : Nat
  halted : Bool
  deriving DecidableEq, Repr

/-- "initialize once" (R237): the software at the start, and the one operation it issues on the block, `TP.INIT` (R172).
The line position is 0 (R208); the device state is any the caller gives within its domain (S1). That the ticks and the
ADC reads are counted from 0 is the model's (DESIGN CHOICE, log entry 34). -/
def Software.initialize (d : DeviceState) (baud : Word) : Software × Instr :=
  (⟨[], d, 0, 0, false⟩, .tpInit baud)

/-- `'\n'`, which ends every outbound line (R204, R234). -/
def newline : Byte := 0x0A#8

/-- `'\r'`, the other terminator of an inbound line (R204, R234). -/
def carriageReturn : Byte := 0x0D#8

/-! The line assembler. -/

/-- One byte goes into the line buffer: the new characters, and the line if the byte ends one (R208). A byte that
would not leave room for the terminating null discards the line (R209). -/
def assemble (c : SoftConfig) (line : List Byte) (b : Byte) : List Byte × Option (List Byte) :=
  if b = newline ∨ b = carriageReturn then ([], some line)
  else if c.lineN ≤ line.length + 1 then ([], none)
  else (line ++ [b], none)

/-! Outbound lines (R236). -/

/-- `dS<digit>`: screen announce. -/
def screenLine (n : Fin 10) : List Byte := [0x64#8, 0x53#8, BitVec.ofNat 8 (0x30 + n.val), newline]

/-- `d00<2-hex>`: LED state. -/
def ledLine (led : BitVec 8) : List Byte := [0x64#8, 0x30#8, 0x30#8] ++ encodeHex8 led ++ [newline]

/-- `dL<text>`: log line. -/
def logLine (text : List Byte) : List Byte := [0x64#8, 0x4C#8] ++ text ++ [newline]

/-- `dD<text>`: debug log line. -/
def debugLine (text : List Byte) : List Byte := [0x64#8, 0x44#8] ++ text ++ [newline]

/-- `d1<8-hex>`: alarm-clock display value. -/
def alarmLine (v : BitVec 32) : List Byte := [0x64#8, 0x31#8] ++ encodeHex32 v ++ [newline]

/-- `d2<16 mixed hex/flag chars>`: seesaw display. What the sixteen characters spell is not given (S5, N19), and they
are the caller's (log entry 28). -/
def seesawLine (payload : Vector Byte 16) : List Byte := [0x64#8, 0x32#8] ++ payload.toList ++ [newline]

/-- The error echo: `e`, the two-digit code, the original line (R223). -/
def errorLine (code : ErrorCode) (line : List Byte) : List Byte :=
  [0x65#8] ++ encodeHex8 code.number ++ line ++ [newline]

/-! The dispatcher. -/

/-- What a line comes to: a new device state and a reply; an error code to be echoed; silence for a line too short for
its item (R224). -/
inductive Verdict where
  | done (d : DeviceState) (reply : List Byte)
  | error (code : ErrorCode)
  | dropped
  deriving DecidableEq, Repr

/-- The payload of an item that takes exactly `n` characters: shorter is dropped, longer is `LENGTH` (R222, R224). -/
def withPayload (n : Nat) (payload : List Byte) (k : Verdict) : Verdict :=
  if payload.length < n then .dropped else if n < payload.length then .error .length else k

/-- Screen `'0'`'s setter (R214). -/
def setScreenZero (c : SoftConfig) (sub : Byte) (payload : List Byte) (d : DeviceState) : Verdict :=
  if sub = 0x31#8 then
    withPayload 2 payload <| match decodeHex8 payload with
      | some v => .done { d with switches := v } []
      | none => .error .decode
  else if sub = 0x32#8 then
    withPayload 2 payload <| match decodeHex8 payload with
      | some v => .done { d with buttons := v } []
      | none => .error .decode
  else if 0x61 ≤ sub.toNat ∧ sub.toNat < 0x61 + c.adcChannels then
    withPayload 4 payload <| match decodeHex16 payload with
      | some v => .done { d with adc := d.adc.set (sub.toNat - 0x61) v } []
      | none => .error .decode
  else .error .unknownItem

/-- The fields of a timestamp `YYYYMMDDHHMMSS` (R215). -/
def decodeTime (p : List Byte) : Option TimeOfDay :=
  match decodeDec (p.take 4) 4, decodeDec ((p.drop 4).take 2) 2, decodeDec ((p.drop 6).take 2) 2,
    decodeDec ((p.drop 8).take 2) 2, decodeDec ((p.drop 10).take 2) 2, decodeDec ((p.drop 12).take 2) 2 with
  | some year, some month, some day, some hour, some minute, some second =>
    some ⟨year, month, day, hour, minute, second⟩
  | _, _, _, _, _, _ => none

/-- The unnamed setter: `'T'` sets the time (R215), `'V'` is accepted and ignored (R216). -/
def setUnnamed (c : SoftConfig) (item : Byte) (payload : List Byte) (d : DeviceState) : Verdict :=
  if item = 0x54#8 then
    withPayload 14 payload <| match decodeTime payload with
      | some t => if timeInRange c t then .done { d with time := t } [] else .error .value
      | none => .error .decode
  else if item = 0x56#8 then .done d []
  else .error .unknownItem

/-- A `'d'` line after its tag (R213): a screen's setter needs a sub-item, of the numbered screens only `'0'` exists. -/
def dispatchSet (c : SoftConfig) (rest : List Byte) (d : DeviceState) : Verdict :=
  match rest with
  | [] => .dropped
  | item :: payload =>
    if 0x30 ≤ item.toNat ∧ item.toNat ≤ 0x39 then
      match payload with
      | [] => .dropped
      | sub :: p => if item = 0x30#8 then setScreenZero c sub p d else .error .unknownScreen
    else setUnnamed c item payload d

/-- A `'?'` line after its tag (R218): a request takes no payload. -/
def dispatchGet (rest : List Byte) (d : DeviceState) : Verdict :=
  match rest with
  | [] => .dropped
  | item :: payload =>
    if item = 0x53#8 then withPayload 0 payload (.done d (screenLine d.screen))
    else if item = 0x30#8 then withPayload 0 payload (.done d (ledLine d.led))
    else .error .unknownItem

/-- The software after a verdict on `line`, and the bytes it writes (R223 to R225). -/
def settle (line : List Byte) (v : Verdict) (sw : Software) : Software × List Byte :=
  match v with
  | .done d reply => ({ sw with device := d }, reply)
  | .error code => (sw, errorLine code line)
  | .dropped => (sw, [])

/-- Dispatch of a line on its first character (R212): `'d'`, `'?'`, the fatal `'e'` (R219, R221); any other line, the
empty one too, is ignored (R208, R220; what is logged is not stated, S3). -/
def dispatch (c : SoftConfig) (line : List Byte) (sw : Software) : Software × List Byte :=
  match line with
  | [] => (sw, [])
  | tag :: rest =>
    if tag = 0x64#8 then settle line (dispatchSet c rest sw.device) sw
    else if tag = 0x3F#8 then settle line (dispatchGet rest sw.device) sw
    else if tag = 0x65#8 then ({ sw with halted := true }, [])
    else (sw, [])

/-- The operations that send `bytes`: every reply and announcement goes byte by byte with `TP.WRITE` (R200, R225). -/
def sends (bytes : List Byte) : List Instr := bytes.map .tpWrite

/-! The firmware's calls (R237). A halted firmware makes none of them: MAIN is stuck (R157, R221, L4), so a call that
changes the software then changes nothing and sends nothing, and a call that returns a value returns none. -/

/-- A call of MAIN that may change the software and send bytes: the software after it, and the operations it issues
(R225). -/
def Software.call (sw : Software) (k : Software → Software × List Byte) : Software × List Instr :=
  if sw.halted then (sw, []) else ((k sw).1, sends (k sw).2)

/-- A call of MAIN that returns a value. -/
def Software.get {α : Type} (sw : Software) (k : Software → α) : Option α :=
  if sw.halted then none else some (k sw)

/-- "process pending input": what one `TP.READ` returned goes into the assembler, and a line it ends is dispatched in
the same call (R210). -/
def processInput (c : SoftConfig) (read : Option Byte) (sw : Software) : Software × List Instr :=
  sw.call fun sw =>
    match read with
    | none => (sw, [])
    | some b =>
      match assemble c sw.line b with
      | (line, none) => ({ sw with line := line }, [])
      | (line, some whole) => dispatch c whole { sw with line := line }

/-- The per-tick hook: `advance_one_second()` once for every `TICK_HZ` ticks (R231); no outcome where the clock has
none (S5). In which context it runs is not stated (R153), and here it counts in a halted firmware too (DESIGN CHOICE,
log entry 29). DESIGN CHOICE (log entry 38): a tick is one indivisible change, and never falls inside a call. -/
def tickHook (c : SoftConfig) (sw : Software) : Option Software :=
  if c.tickHz ≤ sw.ticks + 1 then
    (advanceOneSecond sw.device.time).map fun t =>
      { sw with ticks := 0, device := { sw.device with time := t } }
  else some { sw with ticks := sw.ticks + 1 }

/-- The LED setter (R227, R237). DESIGN CHOICE (log entry 35): no rule says when the LED-state line of R236 is sent, and
the setter sends nothing. -/
def setLed (led : BitVec 8) (sw : Software) : Software × List Instr :=
  sw.call fun sw => ({ sw with device := { sw.device with led := led } }, [])

/-- Screen selection: a change is announced (R225, R228). Selecting the current screen has no outcome: whether it is
announced is not stated, and S5 asks for a refusal. -/
def selectScreen (n : Fin 10) (sw : Software) : Option (Software × List Instr) :=
  if !sw.halted && n == sw.device.screen then none
  else some (sw.call fun sw => ({ sw with device := { sw.device with screen := n } }, screenLine n))

/-- The setter of the alarm-clock display screen (R237). DESIGN CHOICE (log entry 36): no rule says when the line of
R236 is sent nor whether the value is kept, and every call of the setter sends the line and keeps nothing. -/
def displayAlarm (v : BitVec 32) (sw : Software) : Software × List Instr := sw.call fun sw => (sw, alarmLine v)

/-- The setter of the seesaw display screen (R237). DESIGN CHOICE (log entry 36): as for the alarm clock, every call
sends the line of R236 and keeps nothing. -/
def displaySeesaw (payload : Vector Byte 16) (sw : Software) : Software × List Instr :=
  sw.call fun sw => (sw, seesawLine payload)

/-- A log line goes to the peer (R156, R236). DESIGN CHOICE (log entry 36): R237 names no call for it. -/
def sendLog (text : List Byte) (sw : Software) : Software × List Instr := sw.call fun sw => (sw, logLine text)

/-- A debug log line goes to the peer (R156, R236). DESIGN CHOICE (log entry 36): R237 names no call for it. -/
def sendDebug (text : List Byte) (sw : Software) : Software × List Instr := sw.call fun sw => (sw, debugLine text)

/-- The getter of the switches (R237). -/
def getSwitches (sw : Software) : Option (BitVec 8) := sw.get fun sw => sw.device.switches

/-- The getter of the buttons (R237). -/
def getButtons (sw : Software) : Option (BitVec 8) := sw.get fun sw => sw.device.buttons

/-- The getter of the time of day (R237). -/
def getTime (sw : Software) : Option TimeOfDay := sw.get fun sw => sw.device.time

/-- An ADC read: the stored value perturbed by the next jitter and clamped (R233); a channel that does not exist has no
value. -/
def readAdc (c : SoftConfig) (channel : Nat) (sw : Software) : Option (Int × Software) :=
  (sw.get fun sw => sw.device.adc[channel]?).bind fun stored =>
    stored.map fun v =>
      (min (c.adcMax : Int) (max (c.adcMin : Int) ((v.toNat : Int) + SoftConfig.jitter sw.draws)),
        { sw with draws := sw.draws + 1 })

end Sys2Proof.Machine
end

