-- ==== Sys2Proof/Safety.lean ====
section
/-! DEFINITION. The terms claims are made in: the stored bytes of a ring (spec/10_state.md R14), the invariant of the
machine at every boundary between micro-steps (R11, R13, R16, R18, R27), the two byte streams (spec/20_memory.md R57),
quiescence (spec/70_reset_and_hazards.md R192), unending runs and the fairness assumptions (R185). -/

namespace Sys2Proof.Machine

/-- `contents(r)`: the stored slots, oldest first (R14); `none` would be a slot never written. -/
def Ring.contents (r : Ring) : List (Option Byte) :=
  (List.range r.count).map fun k => memGet r.buf ((r.rd + k) % r.cap)

/-! The invariant. -/

/-- What holds of one ring at every boundary. -/
structure Ring.Inv (c : Config) (r : Ring) : Prop where
  /-- the array is in its canonical form -/
  memory : Memory.wf r.buf
  /-- `2 <= cap <= STORAGE_MAX` (R11) -/
  capacity : r.valid = true → 2 ≤ r.cap ∧ r.cap ≤ c.storageMax
  /-- both indices lie in `[0, cap)` (R13) -/
  indices : r.valid = true → r.rd < r.cap ∧ r.wr < r.cap
  /-- every stored slot has been written (R15) -/
  written : r.valid = true → ∀ v ∈ r.contents, v.isSome = true
  /-- the counter is a count of free slots (R16) -/
  counter : r.valid = true → c.hasStats = true → r.minFree ≤ r.cap - 1

/-- What the locals of an enqueue on `r` satisfy: the own index is current, the snapshot of the consumer's index is at
most behind, so it never shows a slot free that is not (R51, R52). -/
def EnqStep.Inv (r : Ring) (byte : Byte) : EnqStep → Prop
  | .e1 => True
  | .e2 w => r.valid = true ∧ w = r.wr
  | .e3 w ds => r.valid = true ∧ w = r.wr ∧ ds < r.cap ∧ r.count ≤ subMod w ds r.cap
  | .e4 w ds =>
    r.valid = true ∧ w = r.wr ∧ ds < r.cap ∧ r.count ≤ subMod w ds r.cap ∧ isFullOf r.cap w ds = false
  | .e5 w ds =>
    r.valid = true ∧ w = r.wr ∧ ds < r.cap ∧ r.count ≤ subMod w ds r.cap ∧ isFullOf r.cap w ds = false ∧
      memGet r.buf w = some byte
  | .e6 _ _ => r.valid = true
  | .e7 => r.valid = true

/-- What the locals of a dequeue on `r` satisfy: the snapshot of the producer's index is at most behind, so it never
shows a byte that is not there (R51, R52). -/
def DeqStep.Inv (r : Ring) : DeqStep → Prop
  | .q1 => True
  | .q2 d => r.valid = true ∧ d = r.rd
  | .q3 d ws => r.valid = true ∧ d = r.rd ∧ ws < r.cap ∧ subMod ws d r.cap ≤ r.count
  | .q4 d => r.valid = true ∧ d = r.rd ∧ r.empty = false
  | .q5 d b => r.valid = true ∧ d = r.rd ∧ r.empty = false ∧ memGet r.buf d = some b
  | .q6 _ => r.valid = true

/-- The snapshot of the producer's index is up to date: no other context moves while the handler runs, so its
snapshots are never stale (R52). -/
def DeqStep.Current (r : Ring) : DeqStep → Prop
  | .q3 _ ws => ws = r.wr
  | .q1 => True
  | .q2 _ => True
  | .q4 _ => True
  | .q5 _ _ => True
  | .q6 _ => True

/-- A baud rate `TP.INIT` accepts (R102). -/
def Config.accepts (c : Config) (baud : Nat) : Prop := c.baudMin ≤ baud ∧ baud ≤ c.baudMax

/-- Both rings as `TP.INIT` step `I3` leaves them (R101). -/
structure State.Fresh (s : State) : Prop where
  rx : s.rx.valid = true ∧ s.rx.cap = s.cfg.capRx ∧ s.rx.rd = 0 ∧ s.rx.wr = 0
  tx : s.tx.valid = true ∧ s.tx.cap = s.cfg.capTx ∧ s.tx.rd = 0 ∧ s.tx.wr = 0
  disarmed : s.txArmed = false

/-- What holds of `TP.INIT` between its micro-steps. -/
def InitStep.Inv (s : State) (baud : Nat) : InitStep → Prop
  | .i1 => True
  | .i2 => s.initialized = false
  | .i3 => s.initialized = false ∧ Config.accepts s.cfg baud
  | .i4 => s.initialized = false ∧ Config.accepts s.cfg baud ∧ s.Fresh
  | .i5 => s.initialized = false ∧ Config.accepts s.cfg baud ∧ s.Fresh ∧ s.uart.brr = Config.baudDivisor baud
  | .i6 => s.initialized = true

/-- What holds of MAIN's operation in progress: its role (R80) and its locals. -/
def MainOp.Inv (s : State) : MainOp → Prop
  | .rbInit _ cap => s.initialized = false ∧ 2 ≤ cap ∧ cap ≤ s.cfg.storageMax
  | .rbIsFull sel _ => (s.ring sel).valid = true
  | .rbIsEmpty sel _ => (s.ring sel).valid = true
  | .rbEnqueue sel byte st =>
    s.initialized = false ∧ (s.ring sel).valid = true ∧ EnqStep.Inv (s.ring sel) byte st
  | .rbDequeue sel st => s.initialized = false ∧ (s.ring sel).valid = true ∧ DeqStep.Inv (s.ring sel) st
  | .rbFreeSlots sel _ => (s.ring sel).valid = true
  | .rbResetStats sel _ => (s.ring sel).valid = true
  | .rbMinFree sel => (s.ring sel).valid = true
  | .tpInit baud st => InitStep.Inv s baud st
  | .tpWrite byte st =>
    s.initialized = true ∧
      match st with
      | .w1 e => EnqStep.Inv s.tx byte e
      | .w2 _ => True
      | .w3 => True
      | .w4 _ => True
      | .w5 => True
  | .tpRead st =>
    s.initialized = true ∧
      match st with
      | .d1 q => DeqStep.Inv s.rx q
      | .d2 _ => True
  | .irqMask => True
  | .irqUnmask => True

/-- What holds of a handler run in progress. -/
def IsrOp.Inv (s : State) : IsrOp → Prop
  | .h1Test => True
  | .h1Read => s.rxReady = true
  | .h1Enqueue byte st => EnqStep.Inv s.rx byte st
  | .h2Test => True
  | .h2Clear => True
  | .h3Test => True
  | .h3Dequeue st => DeqStep.Inv s.tx st ∧ DeqStep.Current s.tx st ∧ s.txArmed = true ∧ s.txEmpty = true
  | .h3Result (some _) => s.txArmed = true ∧ s.txEmpty = true
  | .h3Result none => s.tx.empty = true
  | .h4 => True

/-- MAIN is inside `TP.WRITE` between its enqueue and its arming step: the window R18 leaves out. -/
def State.inArmingWindow (s : State) : Bool :=
  match s.mainOp with
  | some (.tpWrite _ (.w1 (.e6 _ _))) => true
  | some (.tpWrite _ (.w1 .e7)) => true
  | some (.tpWrite _ (.w2 true)) => true
  | some (.tpWrite _ .w3) => true
  | some (.tpWrite _ (.w4 false)) => true
  | _ => false

/-- The invariant of the machine at every boundary between micro-steps. -/
structure State.Inv (s : State) : Prop where
  /-- the parameters satisfy their constraints (R5) -/
  config : s.cfg.wf = true
  rx : s.rx.Inv s.cfg
  tx : s.tx.Inv s.cfg
  /-- an initialised transport has both rings, of the configured capacities (R27, R28) -/
  rings : s.initialized = true →
    s.rx.valid = true ∧ s.tx.valid = true ∧ s.rx.cap = s.cfg.capRx ∧ s.tx.cap = s.cfg.capTx
  /-- and its device is enabled, with the divisor of a legal rate (R23) -/
  device : s.initialized = true →
    s.uart.en = true ∧ s.uart.rxie = true ∧
      ∃ baud, Config.accepts s.cfg baud ∧ s.uart.brr = Config.baudDivisor baud
  /-- the UART holds at most `RX_HW_DEPTH` bytes (R20) -/
  held : s.uart.rxHw.length ≤ s.cfg.rxHwDepth
  /-- the transmit-armed invariant (R18) -/
  armed : s.initialized = true → s.inArmingWindow = false → s.tx.empty = false → s.txArmed = true
  /-- MAIN's operation in progress -/
  main : ∀ op, s.mainOp = some op → op.Inv s
  /-- a handler runs only on an initialised, unmasked block (R143, R145) -/
  handler : ∀ op, s.isrOp = some op → s.initialized = true ∧ s.irqMasked = false ∧ op.Inv s

/-! The two byte streams. -/

/-- The byte the handler has taken off the TX ring and not yet handed to the UART. -/
def State.outgoingInHand (s : State) : List Byte :=
  match s.isrOp with
  | some (.h3Dequeue (.q6 b)) => [b]
  | some (.h3Result (some b)) => [b]
  | _ => []

/-- Everything on its way out, first sent first: the wire, the transmit register, the byte in the handler's hands, the
TX ring (R57). -/
def State.outbound (s : State) : List (Option Byte) :=
  s.wireOut.map some ++ s.uart.tdr.toList.map some ++ s.outgoingInHand.map some ++ s.tx.contents

/-- The byte the handler has read from the UART and not yet put on the RX ring. -/
def State.incomingInHand (s : State) : List Byte :=
  match s.isrOp with
  | some (.h1Enqueue b .e1) => [b]
  | some (.h1Enqueue b (.e2 _)) => [b]
  | some (.h1Enqueue b (.e3 _ _)) => [b]
  | some (.h1Enqueue b (.e4 _ _)) => [b]
  | some (.h1Enqueue b (.e5 _ _)) => [b]
  | _ => []

/-- Everything received and not yet read by MAIN, first received first: the RX ring, the byte in the handler's hands,
the bytes the UART holds (R57). -/
def State.inbound (s : State) : List (Option Byte) :=
  s.rx.contents ++ s.incomingInHand.map some ++ s.uart.rxHw.map some

/-- The operation the next step takes off the trace, if a turn that takes one is next. -/
def State.nextInstr (s : State) : Option Instr :=
  match s.turns with
  | .micro :: _ => none
  | .reset :: _ => none
  | _ =>
    match decode s.cfg.hasStats s.trace with
    | .ok (i, _) => if mustWait i s then none else some i
    | .error _ => none

/-- The step from `s` to `t` puts the byte `b` of a `TP.WRITE` on the ring: MAIN's micro-step `E5` inside it, or the word
run whole and returned. -/
def State.Writes (s t : State) (b : Byte) : Prop :=
  (∃ w ds, s.mainOp = some (.tpWrite b (.w1 (.e5 w ds))) ∧ t.mainOp = some (.tpWrite b (.w1 (.e6 w ds)))) ∨
    (s.nextInstr = some (.tpWrite b) ∧ t.mainOp = none)

/-- The next step is the reset event. -/
def State.resets (s : State) : Bool := s.turns.head? == some .reset

/-- MAIN is between operations and the handler does not run. -/
def State.idle (s : State) : Bool := s.mainOp.isNone && s.isrOp.isNone

/-- Quiescence (R192). -/
def State.quiescent (s : State) : Bool :=
  s.idle && (!s.irqPending || s.irqMasked) && !(s.uart.en && s.uart.tdr.isSome)

/-! How many micro-steps an operation has before it, at most (R93). -/

/-- Micro-steps an enqueue has left, the one it stands at included. -/
def EnqStep.left : EnqStep → Nat
  | .e1 => 7
  | .e2 _ => 6
  | .e3 _ _ => 5
  | .e4 _ _ => 4
  | .e5 _ _ => 3
  | .e6 _ _ => 2
  | .e7 => 1

/-- Micro-steps a dequeue has left. -/
def DeqStep.left : DeqStep → Nat
  | .q1 => 6
  | .q2 _ => 5
  | .q3 _ _ => 4
  | .q4 _ => 3
  | .q5 _ _ => 2
  | .q6 _ => 1

/-- Micro-steps a query has left. -/
def QueryStep.left : QueryStep → Nat
  | .readWr => 3
  | .readRd _ => 2
  | .answer _ _ => 1

/-- Micro-steps MAIN's operation has left, a failed enqueue of `TP.WRITE` not counted (R104). -/
def MainOp.left : MainOp → Nat
  | .rbInit _ _ => 1
  | .rbIsFull _ st => st.left
  | .rbIsEmpty _ st => st.left
  | .rbEnqueue _ _ st => st.left
  | .rbDequeue _ st => st.left
  | .rbFreeSlots _ st => st.left
  | .rbResetStats _ .t1 => 4
  | .rbResetStats _ (.t2 _) => 3
  | .rbResetStats _ (.t3 _ _) => 2
  | .rbResetStats _ .t4 => 1
  | .rbMinFree _ => 1
  | .tpInit _ .i1 => 6
  | .tpInit _ .i2 => 5
  | .tpInit _ .i3 => 4
  | .tpInit _ .i4 => 3
  | .tpInit _ .i5 => 2
  | .tpInit _ .i6 => 1
  | .tpWrite _ (.w1 st) => st.left + 4
  | .tpWrite _ (.w2 _) => 4
  | .tpWrite _ .w3 => 3
  | .tpWrite _ (.w4 _) => 2
  | .tpWrite _ .w5 => 1
  | .tpRead (.d1 st) => st.left + 1
  | .tpRead (.d2 _) => 1
  | .irqMask => 1
  | .irqUnmask => 1

/-! Unending runs and fairness (R185, decision D21). The schedule inside State is finite, so an unending run is told
move by move. No step of the machine depends on these predicates; a claim that something eventually happens takes
`Fair` as a premise. -/

/-- What moves next: the context that can move takes a micro-step; an operation is begun, or a step of DEV taken; the
external reset event. -/
inductive Move where
  | micro
  | word (i : Instr)
  | reset
  deriving DecidableEq, Repr

/-- What a move makes of a state: what `step` does with that turn next. MAIN makes no move it would have to wait with
(R12). -/
def State.move (m : Move) (s : State) : Run State :=
  match m with
  | .micro => advance s
  | .word i => if mustWait i s then .refused .mainBusy else startInstr i s
  | .reset => .next (resetEvent s.turns s)

/-- An unending run: each state is what its move makes of the one before. DESIGN CHOICE (log entry 37): there is no
move that leaves a context standing inside an operation. MAIN may stay idle for ever, as R185 says, and inside an
operation it waits while other agents move, but where none of them moves it goes on; whether it may stop there for ever
the spec leaves open. -/
def Execution (run : Nat → State) (moves : Nat → Move) : Prop := ∀ n, (run n).move (moves n) = .next (run (n + 1))

/-- At the `n`-th move the handler tests whether the UART holds a byte: the loop test of `H1` (R144). -/
def TestsAt (run : Nat → State) (moves : Nat → Move) (n : Nat) : Prop :=
  (run n).isrOp = some .h1Test ∧ moves n = .micro

/-- (a), its first half: a handler run that is permitted continuously is eventually begun (R185). A run once begun is
itself what ends the permission, so in an execution no request is left standing for ever. -/
def HandlerIsBegun (run : Nat → State) (moves : Nat → Move) : Prop :=
  ∀ n, (∀ m ≥ n, (run m).handlerEnabled = true) → ∃ m ≥ n, moves m = .word .isr

/-- (a), its second half, as far as it is an assumption: a handler run in progress takes its micro-steps. That it then
reaches `H4`, provided (c), is `handler_returns` of Laws/Fairness.lean (R185). -/
def HandlerMoves (run : Nat → State) (moves : Nat → Move) : Prop :=
  ∀ n, (run n).isrOp.isSome = true → ∃ m ≥ n, moves m = .micro ∨ moves m = .reset

/-- (b): a byte in the transmit register is eventually taken by `DEV.TX_SHIFT` (R185), or lost to the reset event
(R170). -/
def UartSends (run : Nat → State) (moves : Nat → Move) : Prop :=
  ∀ n, (run n).uart.tdr.isSome = true → ∃ m ≥ n, moves m = .word .devTxShift ∨ moves m = .reset

/-- (c): PEER does not send bytes for ever faster than the handler's receive loop removes them: where the loop's tests
never cease, one of them finds nothing held (R185, R146). DESIGN CHOICE (log entry 39): the reset event does not meet
this assumption, so a run in which each handler run is cut off by a reset before such a test is not fair. -/
def PeerPauses (run : Nat → State) (moves : Nat → Move) : Prop :=
  ∀ n, (∀ m ≥ n, ∃ k ≥ m, TestsAt run moves k) → ∃ k ≥ n, TestsAt run moves k ∧ (run k).rxReady = false

/-- The three fairness assumptions; MAIN is under none (R185). -/
structure Fair (run : Nat → State) (moves : Nat → Move) : Prop where
  begun : HandlerIsBegun run moves
  moved : HandlerMoves run moves
  sent : UartSends run moves
  paused : PeerPauses run moves

/-- What a handler run has before it while the receive loop finds nothing more: each of its micro-steps but a loop test
that finds a byte makes it less. -/
def IsrOp.left : IsrOp → Nat
  | .h1Read => 20
  | .h1Enqueue _ st => st.left + 12
  | .h1Test => 12
  | .h2Test => 11
  | .h2Clear => 10
  | .h3Test => 9
  | .h3Dequeue st => st.left + 2
  | .h3Result _ => 2
  | .h4 => 1

/-! What whole operations come to, said in one piece each: the terms the claims about results are made in. -/

/-- A ring after a successful enqueue (R84): the byte in the slot of the write index, the index advanced, the counter
lowered to the new free count if that is less. -/
def Ring.enqueued (hasStats : Bool) (r : Ring) (b : Byte) : Ring :=
  { r with
    buf := memPut r.buf r.wr b
    wr := incMod r.wr r.cap
    minFree :=
      if hasStats && decide (freeOf r.cap (incMod r.wr r.cap) r.rd < r.minFree) then
        freeOf r.cap (incMod r.wr r.cap) r.rd
      else r.minFree }

/-- A ring after a successful dequeue (R85): the read index advanced, the slot keeping its byte. -/
def Ring.dequeued (r : Ring) : Ring := { r with rd := incMod r.rd r.cap }

/-- The receive service's work on one byte: stored, or lost on a full ring (R146). -/
def State.received (s : State) (b : Byte) : State :=
  if s.rx.full then { s with wireInLost := s.wireInLost + 1 }
  else { s with rx := s.rx.enqueued s.cfg.hasStats b }

/-- The receive service (R146): every byte the UART holds, in order. -/
def State.receiveAll (s : State) : State :=
  s.uart.rxHw.foldl State.received { s with uart := { s.uart with rxHw := [] } }

/-- The transmit service (R148): one byte to the transmit register, or disarm. -/
def State.transmitOne (s : State) : State :=
  if s.txArmed && s.txEmpty then
    if s.tx.empty then { s with txArmed := false }
    else { s with tx := s.tx.dequeued, uart := { s.uart with tdr := memGet s.tx.buf s.tx.rd } }
  else s

/-- A whole handler run (R144): the three services in their order. -/
def State.handled (s : State) : State := (uartClearOverrun s.receiveAll).transmitOne

/-- A call on a ring used as a queue. -/
inductive QueueOp where
  | put (b : Byte)
  | take
  deriving DecidableEq, Repr

/-- The ring operation of a queue call. -/
def QueueOp.instr (sel : RingSel) : QueueOp → Instr
  | .put b => .rbEnqueue sel b
  | .take => .rbDequeue sel

/-- What a bounded first-in first-out queue of `room` bytes answers to a sequence of calls, and what it then holds. -/
def queueModel (room : Nat) : List QueueOp → List Byte → List Word × List Byte
  | [], bs => ([], bs)
  | .put b :: ops, bs =>
    if bs.length < room then
      (boolResult true :: (queueModel room ops (bs ++ [b])).1, (queueModel room ops (bs ++ [b])).2)
    else (boolResult false :: (queueModel room ops bs).1, (queueModel room ops bs).2)
  | .take :: ops, [] => (optionResult none :: (queueModel room ops []).1, (queueModel room ops []).2)
  | .take :: ops, b :: bs => (optionResult (some b) :: (queueModel room ops bs).1, (queueModel room ops bs).2)

/-- A sequence of operations, each run whole, and the result words they deliver. -/
def runWords : List Instr → State → Run (List Word × State)
  | [], s => .next ([], s)
  | i :: is, s =>
    andThen (exec i s) fun t => andThen (runWords is t) fun x => .next (t.res :: x.1, x.2)

/-- `k` micro-steps of whichever context can move. -/
def advanceFor : Nat → State → Run State
  | 0, s => .next s
  | k + 1, s => andThen (advance s) (advanceFor k)

end Sys2Proof.Machine
end

