-- ==== Sys2Proof/Certificates/Slice0/Obligations.lean ====
section
/-! DEFINITION. The statements for the provers. Where a statement rests on a choice the spec marks as its own
(`[decision: …]`, `[derived: …]`) its docstring names the choice. -/

open Sys2Proof Sys2Proof.Machine

/-! Encoding (spec/30_encoding.md). The bit patterns are the spec's own decision D2. -/

/-- Decoding the bytes of a well-formed instruction gives it back, whatever follows it in the trace (R61, R63, R65,
R67; decision D2). -/
def Obligations.DecodeOfEncodeIsTheInstruction : Prop :=
  ∀ (hasStats : Bool) (i : Instr) (rest : List Byte),
    i.wellFormed hasStats = true → decode hasStats (encode i ++ rest) = .ok (i, rest)

/-- Every word the decoder accepts is the encoding of a well-formed instruction: no bit of it is dropped (R63, R66;
decision D2). -/
def Obligations.AcceptedWordIsAnEncoding : Prop :=
  ∀ (hasStats : Bool) (w : Command) (i : Instr),
    decodeCommand hasStats w = .ok i → encodeCommand i = w ∧ i.wellFormed hasStats = true

/-- The decoder, written from the fields, selects exactly the row of the opcode table whose mask and match the word
meets; a word that meets none is reserved, and none meets two (R65, R66; decision D2). -/
def Obligations.DecoderSelectsTheTableRow : Prop :=
  ∀ w : Command,
    (rowsOf w).map OpcodeRow.mnemonic =
      match decodeCommand true w with
      | .ok i => [i.mnemonic]
      | .error _ => []

/-- Without `HAS_STATS` the three optional operations are reserved words, and every other word reads as it does with
it (R16, R66; decision D2). -/
def Obligations.OptionalOperationsNeedStats : Prop :=
  ∀ w : Command,
    (∀ i, decodeCommand true w = .ok i →
      decodeCommand false w = if i.needsStats then .error .statsAbsent else .ok i) ∧
    (∀ e, decodeCommand true w = .error e → ∃ e', decodeCommand false w = .error e')

/-- A few words of spec/95_test_vectors.md (EN-2, EN-5, EN-12, EN-17, EN-18, EN-28) read as the vectors say (decision
D2). -/
def Obligations.SampleWordsDecode : Prop :=
  decodeCommand true 0x100100000010#48 = .ok (.rbInit .tx 16#32) ∧
  decodeCommand true 0x130100000041#48 = .ok (.rbEnqueue .tx 0x41#8) ∧
  decodeCommand true 0x20000001C200#48 = .ok (.tpInit 115200#32) ∧
  decodeCommand true 0x300000000000#48 = .ok .isr ∧
  decodeCommand true 0x40000000003F#48 = .ok (.devRxArrive 0x3F#8) ∧
  decodeCommand true 0x130200000041#48 = .error .selector

/-! The step (spec/20_memory.md R50, R56; spec/10_state.md R12). The schedule is the model's own field (log entry 4). -/

/-- When the trace's first word decodes to `i` and its agent can issue it, a step that runs a word whole is `exec i`,
the word and the turn taken off (log entry 4: the schedule is the model's). -/
def Obligations.StepRunsTheDecodedWord : Prop :=
  ∀ (s : State) (i : Instr) (rest : List Byte) (ts : List Turn),
    (s.turns = [] ∧ ts = [] ∨ s.turns = .whole :: ts) →
    decode s.cfg.hasStats s.trace = .ok (i, rest) → mustWait i s = false →
    step s = exec i { s with trace := rest, turns := ts }

/-- A word placed by `withFetchWord` is run by the very next step on the state it was placed into (log entry 4). -/
def Obligations.PlacedWordRunsNext : Prop :=
  ∀ (s : State) (i : Instr),
    i.wellFormed s.cfg.hasStats = true → mustWait i s = false →
    step (s.withFetchWord 48 (encodeCommand i).toNat) = exec i s

/-- While MAIN is inside an operation, or frozen by the handler, its next word waits: the step moves the context that
can move, by one micro-step, and takes neither word nor turn (R12; log entry 5: that the word waits). -/
def Obligations.WordOfABusyMainWaits : Prop :=
  ∀ (s : State) (i : Instr) (rest : List Byte),
    (s.turns = [] ∨ ∃ ts, s.turns = .whole :: ts ∨ s.turns = .start :: ts) →
    decode s.cfg.hasStats s.trace = .ok (i, rest) → mustWait i s = true →
    step s = advance s

/-- A word that is no operation is refused by name, whether it is to be run whole or begun (R66; decision D2). The names,
and which of several fits, are the model's (DESIGN CHOICE, log entry 13), and so is that fewer than six bytes at the end
of a trace are refused as a reserved word is, of which R67 says nothing (DESIGN CHOICE, log entry 33). -/
def Obligations.ReservedWordIsRefused : Prop :=
  ∀ (s : State) (why : Reserved),
    (s.turns = [] ∨ ∃ ts, s.turns = .whole :: ts ∨ s.turns = .start :: ts) → s.trace ≠ [] →
    decode s.cfg.hasStats s.trace = .error why → step s = .refused (.reservedWord why)

/-- While the handler runs MAIN takes no step: its operation in progress, the result word, MAIN's own indices, the
array and the counter of `TX`, the interrupt mask, the sizes of both rings and the UART's settings stay as they are
(R12, R48, R145, R149). -/
def Obligations.HandlerLeavesMainFrozen : Prop :=
  ∀ s t : State, s.isrOp.isSome = true → advance s = .next t →
    t.mainOp = s.mainOp ∧ t.res = s.res ∧ t.irqMasked = s.irqMasked ∧ t.initialized = s.initialized ∧
      t.rx.rd = s.rx.rd ∧ t.tx.wr = s.tx.wr ∧ t.tx.buf = s.tx.buf ∧ t.tx.minFree = s.tx.minFree ∧
      t.rx.valid = s.rx.valid ∧ t.tx.valid = s.tx.valid ∧ t.rx.cap = s.rx.cap ∧ t.tx.cap = s.tx.cap ∧
      t.uart.en = s.uart.en ∧ t.uart.rxie = s.uart.rxie ∧ t.uart.brr = s.uart.brr ∧
      t.cfg = s.cfg ∧ t.wireOut = s.wireOut ∧ t.trace = s.trace ∧ t.turns = s.turns

/-- No operation waits for another context: a micro-step of MAIN ends its operation or brings it nearer its end, whatever
the other agents do to the state in between, and `W2` of `TP.WRITE` after a failed enqueue is the one way back (R93,
R104). -/
def Obligations.OnlyTpWriteWaits : Prop :=
  ∀ (s t : State) (op : MainOp),
    s.mainOp = some op → (∀ b, op ≠ .tpWrite b (.w2 false)) → mainStep s = .next t →
    t.mainOp = none ∨ ∃ op', t.mainOp = some op' ∧ op'.left < op.left

/-- Each context advances its own indices only, once the transport owns the rings: MAIN never writes `RX.wr`, `RX.buf`
or `TX.rd`, the handler never `RX.rd`, `TX.wr` or `TX.buf`; and an index that moves advances by one modulo the
capacity (R48, R51). -/
def Obligations.EachContextAdvancesItsOwnIndex : Prop :=
  ∀ s t : State, s.Inv → s.initialized = true →
    (s.isrOp = none → mainStep s = .next t →
      t.rx.wr = s.rx.wr ∧ t.rx.buf = s.rx.buf ∧ t.tx.rd = s.tx.rd ∧
      (t.rx.rd = s.rx.rd ∨ t.rx.rd = incMod s.rx.rd s.rx.cap) ∧
      (t.tx.wr = s.tx.wr ∨ t.tx.wr = incMod s.tx.wr s.tx.cap)) ∧
    (isrStep s = .next t →
      t.rx.rd = s.rx.rd ∧ t.tx.wr = s.tx.wr ∧ t.tx.buf = s.tx.buf ∧
      (t.rx.wr = s.rx.wr ∨ t.rx.wr = incMod s.rx.wr s.rx.cap) ∧
      (t.tx.rd = s.tx.rd ∨ t.tx.rd = incMod s.tx.rd s.tx.cap))

/-! Reset (spec/10_state.md R28, spec/70_reset_and_hazards.md R170, R171; decision D16). -/

/-- The values the spec states for reset, and that no interrupt request can then exist, whatever the parameters (R28,
R171; decision D16). -/
def Obligations.ResetLeavesTheStatedValues : Prop :=
  ∀ c : Config,
    (State.resetWith c).cfg = c ∧
    (State.resetWith c).initialized = false ∧ (State.resetWith c).txArmed = false ∧
    (State.resetWith c).irqMasked = false ∧ (State.resetWith c).mainOp = none ∧ (State.resetWith c).isrOp = none ∧
    (∀ sel, ((State.resetWith c).ring sel).valid = false ∧ ∀ slot, memGet ((State.resetWith c).ring sel).buf slot = none) ∧
    (State.resetWith c).uart.en = false ∧ (State.resetWith c).uart.rxie = false ∧
    (State.resetWith c).uart.rxHw = [] ∧ (State.resetWith c).uart.overrun = false ∧
    (State.resetWith c).uart.tdr = none ∧ (State.resetWith c).wireOut = [] ∧ (State.resetWith c).wireInLost = 0 ∧
    (State.resetWith c).irqPending = false ∧ State.reset = State.resetWith Config.vectors

/-- The reset event abandons whatever was in progress and leaves the reset state of the same parameters (R170; decision
D16). The model's choices in it: the words and turns still to come stay (DESIGN CHOICE, log entry 14; both are the
model's fields, log entry 4); where R28 states no value, `cap`, `rd`, `wr`, `min_free` and `brr` are 0 (DESIGN CHOICE,
log entry 2), and so is the result word (DESIGN CHOICE, log entry 3). -/
def Obligations.ResetEventAbandonsEverything : Prop :=
  ∀ (s : State) (ts : List Turn), s.turns = .reset :: ts →
    step s = .next { State.resetWith s.cfg with trace := s.trace, turns := ts }

/-- The invariant holds after reset, for every legal choice of the parameters (R5, R28). -/
def Obligations.ResetMeetsTheInvariant : Prop := ∀ c : Config, c.wf = true → (State.resetWith c).Inv

/-! The invariant, kept by every step under every interleaving (R13, R15, R16, R18, R27, R51, R52, R187). -/

/-- Every step keeps the invariant: from any state that meets it, whatever the schedule does next, a micro-step of MAIN
or of the handler, a step of DEV, a whole word, or the reset event (R13, R15, R18, R51, R52, R56, R187). -/
def Obligations.EveryStepKeepsTheInvariant : Prop := ∀ s t : State, s.Inv → step s = .next t → t.Inv

/-- At every micro-step boundary the indices of a valid ring lie in `[0, cap)`, and the largest value index arithmetic
forms, `cap`, fits the `IDX_W`-bit word (R13). -/
def Obligations.IndicesStayInRange : Prop :=
  ∀ (s t : State) (sel : RingSel), s.Inv → step s = .next t → (t.ring sel).valid = true →
    (t.ring sel).rd < (t.ring sel).cap ∧ (t.ring sel).wr < (t.ring sel).cap ∧ (t.ring sel).cap < 2 ^ t.cfg.idxW

/-- No step of the machine faults: no slot that was never written, and none outside the array, is ever accessed (R15,
R41, R42: an inference of the spec, marked derived). -/
def Obligations.NoStepFaults : Prop := ∀ (s : State) (f : Fault), s.Inv → step s ≠ .fault f

/-- An operation once begun goes on: no micro-step of MAIN or of the handler faults or is refused, so the handler
never reads an empty receive register nor writes an occupied transmit register (R123, R149). -/
def Obligations.BegunOperationGoesOn : Prop := ∀ s : State, s.Inv → ∃ t, advance s = .next t

/-- `initialized` and `valid` never fall, no written slot is ever unwritten and an owned ring keeps its capacity:
nothing but the reset event destroys a ring (R27; spec/10_state.md R23). -/
def Obligations.RingsLiveUntilReset : Prop :=
  ∀ (s t : State) (sel : RingSel), s.Inv → s.resets = false → step s = .next t →
    (s.initialized = true → t.initialized = true ∧ (t.ring sel).cap = (s.ring sel).cap) ∧
    ((s.ring sel).valid = true → (t.ring sel).valid = true) ∧
    (∀ slot, (memGet (s.ring sel).buf slot).isSome = true → (memGet (t.ring sel).buf slot).isSome = true)

/-- No step changes the parameters of the run (R26). -/
def Obligations.ParametersAreConstant : Prop := ∀ s t : State, step s = .next t → t.cfg = s.cfg

/-- While interrupts are masked no handler run begins: `ISR` is refused, and whatever step is taken the handler's work
waits. The transmit register is not filled and no byte of the UART is removed, the overrun flag stays set, a received
byte is lost only where one arrives, and on an initialised block the handler's indices, the array of `RX` and an armed
transmit interrupt stay (R19, R108, R143). That a byte which arrives on a full UART is itself the one lost, the held
bytes staying in front, is the spec's own choice (R121, decision D12; UNVERIFIED, log entry 9), on which L3 says claims
should not depend. -/
def Obligations.MaskedBlockStartsNoHandler : Prop :=
  ∀ s : State, s.Inv → s.irqMasked = true →
    exec .isr s = .refused .handlerNotEnabled ∧
    ∀ t, s.resets = false → step s = .next t →
      t.isrOp = none ∧ (s.uart.tdr = none → t.uart.tdr = none) ∧ s.uart.rxHw <+: t.uart.rxHw ∧
      (s.uart.overrun = true → t.uart.overrun = true) ∧
      (t.wireInLost = s.wireInLost ∨ ∃ b, s.nextInstr = some (.devRxArrive b)) ∧
      (s.initialized = true →
        t.rx.wr = s.rx.wr ∧ t.rx.buf = s.rx.buf ∧ t.tx.rd = s.tx.rd ∧ (s.txArmed = true → t.txArmed = true))

/-! The two byte streams (spec/20_memory.md R57). -/

/-- Outbound order: a step that puts the byte of MAIN's `TP.WRITE` on the ring, the one micro-step `E5` of it or the
whole word, appends exactly that byte to the sequence wire, transmit register, handler's hands, `TX`; every other step
leaves the sequence as it is. So no byte that was written is lost, repeated or overtaken, under any interleaving (R57,
R110). -/
def Obligations.OutboundOrderIsKept : Prop :=
  ∀ s t : State, s.Inv → s.initialized = true → s.resets = false → step s = .next t →
    (∀ b, s.Writes t b → t.outbound = s.outbound ++ [some b]) ∧
    ((∀ b, ¬ s.Writes t b) → t.outbound = s.outbound)

/-- Inbound order: what is received and not yet read stays in order through a step; bytes may be missing, and the one
byte that may be added is the one PEER sent. So `TP.READ` sees a subsequence, in order, of what PEER sent (R57,
R110). -/
def Obligations.InboundOrderIsKept : Prop :=
  ∀ s t : State, s.Inv → s.initialized = true → s.resets = false → step s = .next t →
    List.Sublist t.inbound s.inbound ∨
      ∃ b, s.nextInstr = some (.devRxArrive b) ∧ List.Sublist t.inbound (s.inbound ++ [some b])

/-- Every received byte that leaves other than by being read is counted: a handler run changes the number of bytes on
their way in by exactly what it adds to the count of lost bytes (R22, R146). -/
def Obligations.LostBytesAreCounted : Prop :=
  ∀ s t : State, s.Inv → exec .isr s = .next t →
    t.inbound.length + t.wireInLost = s.inbound.length + s.wireInLost

/-- A quiescent, initialised, unmasked block has sent everything: `TX` is empty and disarmed, and all that was written
is on the wire (R192: an inference of the spec, marked derived). -/
def Obligations.QuiescentBlockHasSentEverything : Prop :=
  ∀ s : State, s.Inv → s.quiescent = true → s.initialized = true → s.irqMasked = false →
    s.tx.empty = true ∧ s.txArmed = false ∧ s.outbound = s.wireOut.map some

/-! Index arithmetic and flags (spec/10_state.md R14, spec/40_ring_buffer.md R89). -/

/-- The two flags, the counts and the stored bytes of a ring, and that full and empty exclude each other (R14). -/
def Obligations.FlagsSayTheOccupancy : Prop :=
  ∀ r : Ring, 2 ≤ r.cap → r.rd < r.cap → r.wr < r.cap →
    (r.full = true ↔ (r.wr + 1) % r.cap = r.rd) ∧ (r.full = true ↔ r.count = r.cap - 1) ∧
    (r.full = true ↔ r.free = 0) ∧
    (r.empty = true ↔ r.wr = r.rd) ∧ (r.empty = true ↔ r.count = 0) ∧ (r.empty = true ↔ r.free = r.cap - 1) ∧
    r.count + r.free = r.cap - 1 ∧ ¬ (r.full = true ∧ r.empty = true) ∧
    r.contents.length = r.count ∧ ∀ k < r.count, r.contents[k]? = some (memGet r.buf ((r.rd + k) % r.cap))

/-- Increment and difference modulo a capacity that need not be a power of two, and that the free count never goes
below 0 (R89). -/
def Obligations.IndexArithmeticWrapsAtCapacity : Prop :=
  ∀ i w d cap : Nat, 2 ≤ cap → i < cap → w < cap → d < cap →
    incMod i cap = (if i = cap - 1 then 0 else i + 1) ∧
    subMod w d cap = (if d ≤ w then w - d else w + cap - d) ∧
    subMod w d cap ≤ cap - 1 ∧ freeOf cap w d + subMod w d cap = cap - 1

/-! The ring operations (spec/40_ring_buffer.md R80 to R88). -/

/-- `RB.INIT` of a legal capacity before `TP.INIT` creates the ring empty and writes nothing else; a second one discards
what the ring held, its array not cleared (R81; decisions D5, D7). -/
def Obligations.RbInitCreatesAnEmptyRing : Prop :=
  ∀ (s : State) (sel : RingSel) (cap : Word),
    s.idle = true → s.initialized = false → 2 ≤ cap.toNat → cap.toNat ≤ s.cfg.storageMax →
    exec (.rbInit sel cap) s = .next { s.setRing sel
        { valid := true, cap := cap.toNat, buf := (s.ring sel).buf, rd := 0, wr := 0,
          minFree := if s.cfg.hasStats then cap.toNat - 1 else (s.ring sel).minFree } with res := 0#32 }

/-- `RB.INIT` is refused for a capacity outside `[2, STORAGE_MAX]` and, whatever the capacity, on a block that owns its
rings (R80, R81; decisions D4, D20). Which name the refusal carries where both grounds hold, or MAIN is busy too, is the
model's (DESIGN CHOICE, log entry 21). -/
def Obligations.RbInitRefusals : Prop :=
  ∀ (s : State) (sel : RingSel) (cap : Word),
    (s.initialized = true → exec (.rbInit sel cap) s = .refused (.ownedByTransport sel)) ∧
    (s.initialized = false → cap.toNat < 2 ∨ s.cfg.storageMax < cap.toNat →
      exec (.rbInit sel cap) s = .refused .badCapacity)

/-- The three queries answer from the current indices and write nothing but the result word (R82, R83, R86; decision
D8 for the free count). -/
def Obligations.QueriesAnswerAndWriteNothing : Prop :=
  ∀ (s : State) (sel : RingSel), s.idle = true → (s.ring sel).valid = true →
    exec (.rbIsFull sel) s = .next { s with res := if (s.ring sel).full then 1#32 else 0#32 } ∧
    exec (.rbIsEmpty sel) s = .next { s with res := if (s.ring sel).empty then 1#32 else 0#32 } ∧
    (s.cfg.hasStats = true →
      exec (.rbFreeSlots sel) s = .next { s with res := BitVec.ofNat 32 (s.ring sel).free })

/-- `RB.ENQUEUE` on a ring that is not full stores the byte in the slot of the write index, advances that index and
samples the counter; nothing else changes (R84; decisions D6, D7). -/
def Obligations.RbEnqueueStoresTheByte : Prop :=
  ∀ (s : State) (sel : RingSel) (b : Byte),
    s.idle = true → s.initialized = false → (s.ring sel).valid = true → (s.ring sel).wr < (s.ring sel).cap →
    (s.ring sel).full = false →
    exec (.rbEnqueue sel b) s =
      .next { s.setRing sel ((s.ring sel).enqueued s.cfg.hasStats b) with res := 1#32 }

/-- `RB.ENQUEUE` on a full ring answers false and writes nothing: it neither blocks nor overwrites (R84, R93). -/
def Obligations.RbEnqueueOnFullWritesNothing : Prop :=
  ∀ (s : State) (sel : RingSel) (b : Byte),
    s.idle = true → s.initialized = false → (s.ring sel).valid = true → (s.ring sel).full = true →
    exec (.rbEnqueue sel b) s = .next { s with res := 0#32 }

/-- `RB.DEQUEUE` delivers the byte of the read index and advances that index only; on an empty ring it answers `none`
and writes nothing (R85; decision D6). -/
def Obligations.RbDequeueTakesTheOldestByte : Prop :=
  ∀ (s : State) (sel : RingSel), s.idle = true → s.initialized = false → (s.ring sel).valid = true →
    (∀ b, (s.ring sel).rd < (s.ring sel).cap → (s.ring sel).empty = false →
      memGet (s.ring sel).buf (s.ring sel).rd = some b →
      exec (.rbDequeue sel) s =
        .next { s.setRing sel (s.ring sel).dequeued with res := 0x100#32 + b.setWidth 32 }) ∧
    ((s.ring sel).empty = true → exec (.rbDequeue sel) s = .next { s with res := 0#32 })

/-- Reading a slot that was never written faults and supplies no value (R15, R41). -/
def Obligations.UnwrittenSlotFaults : Prop :=
  ∀ (s : State) (sel : RingSel), s.idle = true → s.initialized = false → (s.ring sel).valid = true →
    (s.ring sel).rd < (s.ring sel).cap → (s.ring sel).empty = false →
    memGet (s.ring sel).buf (s.ring sel).rd = none →
    exec (.rbDequeue sel) s = .fault (.unwrittenSlot sel (s.ring sel).rd)

/-- `RB.RESET_STATS` by a context that holds the producer role sets the counter to the current free count and nothing
else (R80, R87; decision D7). -/
def Obligations.RbResetStatsRestartsTheCounter : Prop :=
  ∀ (s : State) (sel : RingSel), s.idle = true → s.cfg.hasStats = true → (s.ring sel).valid = true →
    (s.initialized = false ∨ sel = .tx ∨ s.irqMasked = true) →
    exec (.rbResetStats sel) s =
      .next { s.setRing sel { s.ring sel with minFree := (s.ring sel).free } with res := 0#32 }

/-- `RB.MIN_FREE` delivers the counter and writes nothing (R88; decision D7). -/
def Obligations.RbMinFreeReadsTheCounter : Prop :=
  ∀ (s : State) (sel : RingSel), s.idle = true → s.cfg.hasStats = true → (s.ring sel).valid = true →
    exec (.rbMinFree sel) s = .next { s with res := BitVec.ofNat 32 (s.ring sel).minFree }

/-- The refusals of R80 for the ring operations: a ring that was never created, MAIN off the raw operations and off the
receive ring's counter once the transport owns the rings, the statistics operations without `HAS_STATS` (R80; decision
D20). Which name the refusal carries where several grounds hold at once, statistics before role, role before validity,
validity before a busy MAIN, is the model's (DESIGN CHOICE, log entry 21). -/
def Obligations.RingOperationsAreRefusedOutsideTheirRole : Prop :=
  ∀ (s : State) (sel : RingSel) (b : Byte),
    (s.initialized = true →
      exec (.rbEnqueue sel b) s = .refused (.ownedByTransport sel) ∧
      exec (.rbDequeue sel) s = .refused (.ownedByTransport sel)) ∧
    (s.initialized = true → s.irqMasked = false → s.cfg.hasStats = true →
      exec (.rbResetStats .rx) s = .refused (.notProducer .rx)) ∧
    (s.cfg.hasStats = false →
      exec (.rbFreeSlots sel) s = .refused (.reservedWord .statsAbsent) ∧
      exec (.rbResetStats sel) s = .refused (.reservedWord .statsAbsent) ∧
      exec (.rbMinFree sel) s = .refused (.reservedWord .statsAbsent)) ∧
    ((s.ring sel).valid = false →
      exec (.rbIsFull sel) s = .refused (.ringNotValid sel) ∧
      exec (.rbIsEmpty sel) s = .refused (.ringNotValid sel) ∧
      (s.cfg.hasStats = true →
        exec (.rbFreeSlots sel) s = .refused (.ringNotValid sel) ∧
        exec (.rbMinFree sel) s = .refused (.ringNotValid sel) ∧
        (s.initialized = false ∨ sel = .tx ∨ s.irqMasked = true →
          exec (.rbResetStats sel) s = .refused (.ringNotValid sel))) ∧
      (s.initialized = false →
        exec (.rbEnqueue sel b) s = .refused (.ringNotValid sel) ∧
        exec (.rbDequeue sel) s = .refused (.ringNotValid sel)))

/-- Only an enqueue stores into an array: after `RB.ENQUEUE` and `TP.WRITE` every slot of both rings but the one of the
write index of the ring named reads as before; after a handler run every slot of `TX` does, and every slot of `RX` but
those that follow the write index, as many as the UART held bytes; after every other operation every slot of both rings
does (R42, R48, R146). -/
def Obligations.OnlyEnqueueStores : Prop :=
  ∀ (s t : State) (i : Instr), exec i s = .next t →
    (∀ (sel : RingSel) (slot : Nat),
      (match i with
       | .rbEnqueue sel' _ => sel = sel' ∧ slot = (s.ring sel').wr
       | .tpWrite _ => sel = .tx ∧ slot = s.tx.wr
       | .isr => sel = .rx ∧ ∃ k < s.uart.rxHw.length, slot = (s.rx.wr + k) % s.rx.cap
       | _ => False) ∨
      memGet (t.ring sel).buf slot = memGet (s.ring sel).buf slot)

/-- The counter only decreases until it is explicitly reset: no operation but `RB.INIT`, `RB.RESET_STATS` and `TP.INIT`
raises it (R16). -/
def Obligations.CounterOnlyDecreases : Prop :=
  ∀ (s t : State) (i : Instr) (sel : RingSel), exec i s = .next t →
    (match i with
     | .rbInit _ _ => False
     | .rbResetStats _ => False
     | .tpInit _ => False
     | _ => True) →
    (t.ring sel).minFree ≤ (s.ring sel).minFree

/-- A stand-alone ring answers every sequence of `enqueue` and `dequeue` calls as a first-in first-out queue of
`cap - 1` bytes does: dequeued bytes appear in the order they were enqueued (R90). -/
def Obligations.RingIsABoundedFifo : Prop :=
  ∀ (s : State) (sel : RingSel) (bs : List Byte) (ops : List QueueOp),
    s.idle = true → s.initialized = false → (s.ring sel).valid = true → (s.ring sel).Inv s.cfg →
    (s.ring sel).contents = bs.map some →
    ∃ t, runWords (ops.map (QueueOp.instr sel)) s =
        .next ((queueModel ((s.ring sel).cap - 1) ops bs).1, t) ∧
      (t.ring sel).contents = (queueModel ((s.ring sel).cap - 1) ops bs).2.map some

/-- On an empty ring an enqueue succeeds, the dequeue that follows at once delivers the same byte and leaves the ring
empty (R91). The result words are those of R64, decision D2. -/
def Obligations.EnqueueThenDequeueReturnsTheByte : Prop :=
  ∀ (s : State) (sel : RingSel) (b : Byte),
    s.idle = true → s.initialized = false → (s.ring sel).valid = true → (s.ring sel).Inv s.cfg →
    (s.ring sel).empty = true →
    ∃ t, runWords [.rbEnqueue sel b, .rbDequeue sel] s = .next ([1#32, 0x100#32 + b.setWidth 32], t) ∧
      (t.ring sel).empty = true

/-- A ring of capacity C is empty after `init` and accepts exactly C − 1 enqueues: it is not full before the last of
them, full after it, and the next one stores nothing (R92: an inference of the spec, marked derived). -/
def Obligations.RingAcceptsOneLessThanItsCapacity : Prop :=
  ∀ (s : State) (sel : RingSel) (cap : Word) (bs : List Byte) (b : Byte),
    s.idle = true → s.initialized = false → s.cfg.wf = true → Memory.wf (s.ring sel).buf →
    2 ≤ cap.toNat → cap.toNat ≤ s.cfg.storageMax →
    (bs.length + 1 < cap.toNat →
      ∃ t, runWords ([.rbInit sel cap, .rbIsEmpty sel] ++ bs.map (.rbEnqueue sel) ++ [.rbIsFull sel]) s =
          .next ([0#32, 1#32] ++ List.replicate bs.length 1#32 ++ [0#32], t) ∧
        (t.ring sel).contents = bs.map some) ∧
    (bs.length + 1 = cap.toNat →
      ∃ t, runWords ([.rbInit sel cap, .rbIsEmpty sel] ++ bs.map (.rbEnqueue sel) ++
            [.rbIsFull sel, .rbEnqueue sel b]) s =
          .next ([0#32, 1#32] ++ List.replicate bs.length 1#32 ++ [1#32, 0#32], t) ∧
        (t.ring sel).contents = bs.map some)

/-! The transport operations (spec/41_transport.md R101 to R109). -/

/-- `TP.INIT` of an accepted rate on a block not yet initialised creates both rings with the configured capacities,
disarms, sets the divisor and the enables, and writes nothing else (R101; decision D14). -/
def Obligations.TpInitBringsTheTransportUp : Prop :=
  ∀ (s : State) (baud : Word),
    s.idle = true → s.initialized = false → s.cfg.baudMin ≤ baud.toNat → baud.toNat ≤ s.cfg.baudMax →
    exec (.tpInit baud) s = .next { s with
      rx := { valid := true, cap := s.cfg.capRx, buf := s.rx.buf, rd := 0, wr := 0,
              minFree := if s.cfg.hasStats then s.cfg.capRx - 1 else s.rx.minFree }
      tx := { valid := true, cap := s.cfg.capTx, buf := s.tx.buf, rd := 0, wr := 0,
              minFree := if s.cfg.hasStats then s.cfg.capTx - 1 else s.tx.minFree }
      txArmed := false
      uart := { s.uart with brr := Config.baudDivisor baud.toNat, en := true, rxie := true }
      initialized := true
      res := 1#32 }

/-- Initialisation is one-shot: on an initialised block `TP.INIT` fails without side effects whatever the rate, and
`RB.INIT` does not re-create a ring (R188). -/
def Obligations.SecondInitHasNoSideEffects : Prop :=
  ∀ (s : State) (baud cap : Word) (sel : RingSel), s.idle = true → s.initialized = true →
    exec (.tpInit baud) s = .next { s with res := 0#32 } ∧
    ∀ t, exec (.rbInit sel cap) s ≠ .next t

/-- A rate out of range fails without touching any state, and does not use up the one shot (R102; decision D14). -/
def Obligations.OutOfRangeBaudHasNoSideEffects : Prop :=
  ∀ (s : State) (baud : Word), s.idle = true →
    (baud.toNat < s.cfg.baudMin ∨ s.cfg.baudMax < baud.toNat) →
    exec (.tpInit baud) s = .next { s with res := 0#32 }

/-- `TP.WRITE` on a ring with room stores the byte, leaves the transmit interrupt armed and returns; nothing else
changes (R103; decisions D6, D7). -/
def Obligations.TpWriteStoresAndArms : Prop :=
  ∀ (s : State) (b : Byte),
    s.idle = true → s.initialized = true → s.tx.valid = true → s.tx.wr < s.tx.cap → s.tx.full = false →
    exec (.tpWrite b) s =
      .next { s with tx := s.tx.enqueued s.cfg.hasStats b, txArmed := true, res := 0#32 }

/-- `TP.WRITE` on a full ring spins: it has not returned, nothing else has changed, and every four micro-steps of MAIN
bring it back to where it stands (R104, R181). That the word run whole ends after one round, with MAIN back at `W1`, is
the model's (DESIGN CHOICE, log entry 11). -/
def Obligations.TpWriteSpinsOnAFullRing : Prop :=
  ∀ (s : State) (b : Byte),
    s.idle = true → s.initialized = true → s.tx.valid = true → s.tx.full = true →
    exec (.tpWrite b) s = .next { s with mainOp := some (.tpWrite b (.w1 .e1)) } ∧
    advanceFor 4 { s with mainOp := some (.tpWrite b (.w1 .e1)) } =
      .next { s with mainOp := some (.tpWrite b (.w1 .e1)) }

/-- A spinning `TP.WRITE` returns once one handler run has drained a byte: after the run, MAIN's micro-steps store the
byte behind the others and finish (R104; bounded form of the liveness R185 assumes, decision D21). -/
def Obligations.SpinningWriteReturnsAfterOneDrain : Prop :=
  ∀ (s : State) (b : Byte),
    s.Inv → s.mainOp = some (.tpWrite b (.w1 .e1)) → s.isrOp = none → s.tx.full = true → s.txArmed = true →
    s.uart.tdr = none → s.irqMasked = false →
    ∃ t u, exec .isr s = .next t ∧ runMain t = .next u ∧ u.mainOp = none ∧ u.txArmed = true ∧
      u.tx.contents = s.tx.contents.tail ++ [some b]

/-- `TP.READ` delivers the oldest received byte and advances `RX.rd` only; on an empty ring it answers `none` at once
and writes nothing (R105; decision D15 for the precondition). -/
def Obligations.TpReadTakesTheOldestByte : Prop :=
  ∀ s : State, s.idle = true → s.initialized = true → s.rx.valid = true →
    (∀ b, s.rx.rd < s.rx.cap → s.rx.empty = false → memGet s.rx.buf s.rx.rd = some b →
      exec .tpRead s = .next { s with rx := s.rx.dequeued, res := 0x100#32 + b.setWidth 32 }) ∧
    (s.rx.empty = true → exec .tpRead s = .next { s with res := 0#32 })

/-- Before a successful `TP.INIT` there is neither write nor read (R103, R105; decision D15). -/
def Obligations.TransportNeedsInitialisation : Prop :=
  ∀ (s : State) (b : Byte), s.initialized = false →
    exec (.tpWrite b) s = .refused .notInitialized ∧ exec .tpRead s = .refused .notInitialized

/-- `IRQ.MASK` and `IRQ.UNMASK` set and clear the one mask bit, without a nesting count, and nothing else (R108, R109;
decision D17). -/
def Obligations.MaskOperationsWriteOneBit : Prop :=
  ∀ s : State, s.idle = true →
    exec .irqMask s = .next { s with irqMasked := true, res := 0#32 } ∧
    exec .irqUnmask s = .next { s with irqMasked := false, res := 0#32 }

/-! The handler (spec/60_exceptions.md R143 to R148). -/

/-- A handler run is permitted exactly where interrupts are not masked, no run is in progress, the transport is
initialised and one of the three sources requests it (R21): there `H0` takes the handler to its first test and changes
nothing else, and everywhere else `ISR` is refused (R143 to R145). -/
def Obligations.HandlerBeginsOnlyWherePermitted : Prop :=
  ∀ s : State,
    (s.irqMasked = true ∨ s.isrOp ≠ none ∨ s.initialized = false ∨
        (¬(s.uart.rxie = true ∧ s.uart.rxHw ≠ []) ∧ ¬(s.uart.rxie = true ∧ s.uart.overrun = true) ∧
          ¬(s.txArmed = true ∧ s.uart.tdr = none)) →
      exec .isr s = .refused .handlerNotEnabled) ∧
    (s.irqMasked = false → s.isrOp = none → s.initialized = true →
      (s.uart.rxie = true ∧ s.uart.rxHw ≠ []) ∨ (s.uart.rxie = true ∧ s.uart.overrun = true) ∨
        (s.txArmed = true ∧ s.uart.tdr = none) →
      startIsr s = .next { s with isrOp := some .h1Test })

/-- One uninterrupted run of the handler, all its micro-steps, is the three services in their order: every held byte
into `RX` or lost, the overrun flag cleared, one byte to the transmit register or the disarming. MAIN's operation in
progress and all other state stay (R144 to R148; decisions D10, D11, D19). -/
def Obligations.HandlerRunIsTheThreeServices : Prop :=
  ∀ s : State, s.rx.Inv s.cfg → s.tx.Inv s.cfg → s.rx.valid = true → s.tx.valid = true →
    s.handlerEnabled = true → exec .isr s = .next s.handled

/-- On a receiver overrun the flag is cleared and nothing else happens: the run does what it would do had the overrun
not occurred, and when nothing else requests it, it does nothing more (R147). -/
def Obligations.OverrunIsClearedSilently : Prop :=
  ∀ s t : State, s.uart.overrun = true → exec .isr s = .next t →
    t.uart.overrun = false ∧
    (({ s with uart := { s.uart with overrun := false } } : State).handlerEnabled = true →
      exec .isr { s with uart := { s.uart with overrun := false } } = .next t) ∧
    (({ s with uart := { s.uart with overrun := false } } : State).handlerEnabled = false →
      t = { s with uart := { s.uart with overrun := false } })

/-! The device (spec/42_uart_device.md R120 to R122). -/

/-- A byte that arrives with room is held behind the others; with no room the overrun flag is set, one more byte is
counted lost and no more bytes are held than before. Nothing else changes, and a disabled UART receives nothing (R120,
R121; decision D12. Which byte is lost is the spec's choice: as L3 asks, this does not say which). -/
def Obligations.ArrivingByteIsHeldOrLost : Prop :=
  ∀ (s : State) (b : Byte),
    (s.uart.en = true → s.uart.rxHw.length < s.cfg.rxHwDepth →
      exec (.devRxArrive b) s = .next { s with uart := { s.uart with rxHw := s.uart.rxHw ++ [b] } }) ∧
    (s.uart.en = true → s.cfg.rxHwDepth ≤ s.uart.rxHw.length →
      ∃ held, held.length = s.uart.rxHw.length ∧
        exec (.devRxArrive b) s =
          .next { s with uart := { s.uart with overrun := true, rxHw := held }, wireInLost := s.wireInLost + 1 }) ∧
    (s.uart.en = false → exec (.devRxArrive b) s = .refused .uartDisabled)

/-- The UART puts the byte of the transmit register on the wire and empties the register; with nothing to send, or
disabled, it takes no step (R120, R122; decisions D12, D13). -/
def Obligations.TransmitRegisterGoesToTheWire : Prop :=
  ∀ s : State,
    (∀ b, s.uart.en = true → s.uart.tdr = some b →
      exec .devTxShift s =
        .next { s with wireOut := s.wireOut ++ [b], uart := { s.uart with tdr := none } }) ∧
    (s.uart.en = true → s.uart.tdr = none → exec .devTxShift s = .refused .transmitRegisterEmpty) ∧
    (s.uart.en = false → exec .devTxShift s = .refused .uartDisabled)

/-! The software above the block (spec/49_surrounding_software.md; context, R200). -/

/-- The codec round-trips: decoding the encoding of a number gives it back, at 8, 16 and 32 bits (R205 to R207). -/
def Obligations.HexCodecRoundTrips : Prop :=
  (∀ x : BitVec 8, decodeHex8 (encodeHex8 x) = some x) ∧
  (∀ x : BitVec 16, decodeHex16 (encodeHex16 x) = some x) ∧
  (∀ x : BitVec 32, decodeHex32 (encodeHex32 x) = some x)

/-- Sixty seconds are a minute: `advance_one_second` applied 60 times to a time whose second is in its domain leaves the
second and advances the minute, or from 59 on the hour, or from 23 on the day, or from the month's last day on the
month, or from December on the year (R230; decision D24 for `>=`). Past the year 3000 the clock has no value, as S5 asks
(log entry 25). That the month's days are the Gregorian ones is general knowledge, as R232 marks it (PRESUMED, log entry
26). -/
def Obligations.SixtySecondsAreAMinute : Prop :=
  (∀ t : TimeOfDay, t.second < 60 →
    advanceSeconds 60 t =
      if t.minute + 1 < 60 then some { t with minute := t.minute + 1 }
      else if t.hour + 1 < 24 then some { t with hour := t.hour + 1, minute := 0 }
      else if t.day + 1 ≤ daysInMonth t.year t.month then some { t with day := t.day + 1, hour := 0, minute := 0 }
      else if t.month + 1 ≤ 12 then some { t with month := t.month + 1, day := 1, hour := 0, minute := 0 }
      else if t.year + 1 ≤ 3000 then
        some { t with year := t.year + 1, month := 1, day := 1, hour := 0, minute := 0 }
      else none) ∧
  ∀ year month : Nat, 1 ≤ month → month ≤ 12 →
    daysInMonth year month =
      if month = 2 then (if (year % 4 = 0 ∧ year % 100 ≠ 0) ∨ year % 400 = 0 then 29 else 28)
      else if month = 4 ∨ month = 6 ∨ month = 9 ∨ month = 11 then 30 else 31

/-- However long a line, the assembler's position stays below the buffer's capacity: no write goes outside it (R209;
decision D25 for where the line counts as overlong). -/
def Obligations.LineNeverOverflowsTheBuffer : Prop :=
  ∀ (c : SoftConfig) (bytes line : List Byte), line.length < c.lineN →
    (bytes.foldl (fun l b => (assemble c l b).1) line).length < c.lineN
end

