-- ==== Sys2Proof/Laws/Arith.lean ====
section
/-! SUPPORT. The index arithmetic of R89 as case distinctions, and the occupancy lemmas of R14 that follow. -/

namespace Sys2Proof.Machine

theorem incMod_eq {i cap : Nat} (h : i < cap) : incMod i cap = if i + 1 = cap then 0 else i + 1 := by
  unfold incMod
  split
  · next h' => rw [h', Nat.mod_self]
  · next h' => exact Nat.mod_eq_of_lt (by omega)

theorem incMod_lt {i cap : Nat} (h : i < cap) : incMod i cap < cap := Nat.mod_lt _ (by omega)

theorem subMod_eq {w d cap : Nat} (hw : w < cap) (hd : d < cap) :
    subMod w d cap = if d ≤ w then w - d else w + cap - d := by
  unfold subMod
  split
  · rw [Int.emod_eq_of_lt (by omega) (by omega)]; omega
  · have : ((w : Int) - d) % cap = (w : Int) - d + cap := by
      rw [← Int.add_emod_right, Int.emod_eq_of_lt (by omega) (by omega)]
    rw [this]; omega

@[simp] theorem subMod_self (w cap : Nat) : subMod w w cap = 0 := by simp [subMod]

theorem subMod_lt {w d cap : Nat} (hw : w < cap) (hd : d < cap) : subMod w d cap < cap := by
  rw [subMod_eq hw hd]; split <;> omega

theorem subMod_eq_zero_iff {w d cap : Nat} (hw : w < cap) (hd : d < cap) : subMod w d cap = 0 ↔ w = d := by
  rw [subMod_eq hw hd]; split <;> omega

theorem isEmptyOf_iff (w d : Nat) : isEmptyOf w d = true ↔ w = d := by simp [isEmptyOf]

theorem isFullOf_iff {w d cap : Nat} (hw : w < cap) (hd : d < cap) :
    isFullOf cap w d = true ↔ subMod w d cap = cap - 1 := by
  rw [subMod_eq hw hd, isFullOf, beq_iff_eq, incMod_eq hw]
  split <;> split <;> omega

theorem isFullOf_false_iff {w d cap : Nat} (hw : w < cap) (hd : d < cap) :
    isFullOf cap w d = false ↔ subMod w d cap < cap - 1 := by
  have h := subMod_lt hw hd
  rw [← Bool.not_eq_true, isFullOf_iff hw hd]; omega

theorem subMod_incMod_left {w d cap : Nat} (hw : w < cap) (hd : d < cap) (h : isFullOf cap w d = false) :
    subMod (incMod w cap) d cap = subMod w d cap + 1 := by
  rw [isFullOf_false_iff hw hd] at h
  have e := incMod_eq hw
  have l := incMod_lt hw
  rw [subMod_eq hw hd] at h ⊢
  rw [subMod_eq l hd]
  split at e <;> split at h <;> split <;> simp_all <;> omega

theorem subMod_incMod_right {w d cap : Nat} (hw : w < cap) (hd : d < cap) (h : w ≠ d) :
    subMod w (incMod d cap) cap + 1 = subMod w d cap := by
  have e := incMod_eq hd
  have l := incMod_lt hd
  rw [subMod_eq hw l, subMod_eq hw hd]
  split at e <;> split <;> split <;> omega

theorem add_subMod_mod {w d cap : Nat} (hw : w < cap) (hd : d < cap) : (d + subMod w d cap) % cap = w := by
  rw [subMod_eq hw hd]
  split
  · rw [show d + (w - d) = w by omega, Nat.mod_eq_of_lt hw]
  · rw [show d + (w + cap - d) = w + cap by omega, Nat.add_mod_right, Nat.mod_eq_of_lt hw]

theorem add_mod_ne {d cap i j : Nat} (hi : i < cap) (hj : j < cap) (hij : i ≠ j) :
    (d + i) % cap ≠ (d + j) % cap := by
  intro h
  have h' : i % cap = j % cap := Nat.ModEq.add_left_cancel' d h
  rw [Nat.mod_eq_of_lt hi, Nat.mod_eq_of_lt hj] at h'
  exact hij h'

end Sys2Proof.Machine
end

