-- ==== Sys2Proof/Laws/State.lean ====
section
/-! SUPPORT. One lemma per field per update of the state: no later proof unfolds a record update. -/

namespace Sys2Proof.Machine

@[simp] theorem ring_rx (s : State) : s.ring .rx = s.rx := rfl
@[simp] theorem ring_tx (s : State) : s.ring .tx = s.tx := rfl

@[simp] theorem ring_setRing_same (s : State) (sel : RingSel) (r : Ring) : (s.setRing sel r).ring sel = r := by
  cases sel <;> rfl
theorem ring_setRing_other (s : State) {sel sel' : RingSel} (r : Ring) (h : sel' ≠ sel) :
    (s.setRing sel r).ring sel' = s.ring sel' := by
  cases sel <;> cases sel' <;> first | rfl | exact absurd rfl h
@[simp] theorem setRing_rx (s : State) (r : Ring) : s.setRing .rx r = { s with rx := r } := rfl
@[simp] theorem setRing_tx (s : State) (r : Ring) : s.setRing .tx r = { s with tx := r } := rfl
@[simp] theorem setRing_cfg (s : State) (sel : RingSel) (r : Ring) : (s.setRing sel r).cfg = s.cfg := by
  cases sel <;> rfl
@[simp] theorem setRing_txArmed (s : State) (sel : RingSel) (r : Ring) : (s.setRing sel r).txArmed = s.txArmed := by
  cases sel <;> rfl
@[simp] theorem setRing_initialized (s : State) (sel : RingSel) (r : Ring) :
    (s.setRing sel r).initialized = s.initialized := by cases sel <;> rfl
@[simp] theorem setRing_irqMasked (s : State) (sel : RingSel) (r : Ring) :
    (s.setRing sel r).irqMasked = s.irqMasked := by cases sel <;> rfl
@[simp] theorem setRing_mainOp (s : State) (sel : RingSel) (r : Ring) : (s.setRing sel r).mainOp = s.mainOp := by
  cases sel <;> rfl
@[simp] theorem setRing_isrOp (s : State) (sel : RingSel) (r : Ring) : (s.setRing sel r).isrOp = s.isrOp := by
  cases sel <;> rfl
@[simp] theorem setRing_uart (s : State) (sel : RingSel) (r : Ring) : (s.setRing sel r).uart = s.uart := by
  cases sel <;> rfl
@[simp] theorem setRing_wireOut (s : State) (sel : RingSel) (r : Ring) : (s.setRing sel r).wireOut = s.wireOut := by
  cases sel <;> rfl
@[simp] theorem setRing_wireInLost (s : State) (sel : RingSel) (r : Ring) :
    (s.setRing sel r).wireInLost = s.wireInLost := by cases sel <;> rfl
@[simp] theorem setRing_res (s : State) (sel : RingSel) (r : Ring) : (s.setRing sel r).res = s.res := by
  cases sel <;> rfl
@[simp] theorem setRing_trace (s : State) (sel : RingSel) (r : Ring) : (s.setRing sel r).trace = s.trace := by
  cases sel <;> rfl
@[simp] theorem setRing_turns (s : State) (sel : RingSel) (r : Ring) : (s.setRing sel r).turns = s.turns := by
  cases sel <;> rfl

theorem setWr_eq (s : State) (sel : RingSel) (w : Nat) : s.setWr sel w = s.setRing sel { s.ring sel with wr := w } := rfl
theorem setRd_eq (s : State) (sel : RingSel) (d : Nat) : s.setRd sel d = s.setRing sel { s.ring sel with rd := d } := rfl
theorem setMinFree_eq (s : State) (sel : RingSel) (n : Nat) :
    s.setMinFree sel n = s.setRing sel { s.ring sel with minFree := n } := rfl
theorem setRing_self (s : State) (sel : RingSel) : s.setRing sel (s.ring sel) = s := by cases sel <;> rfl

@[simp] theorem create_valid (h : Bool) (c : Nat) (r : Ring) : (r.create h c).valid = true := rfl
@[simp] theorem create_cap (h : Bool) (c : Nat) (r : Ring) : (r.create h c).cap = c := rfl
@[simp] theorem create_rd (h : Bool) (c : Nat) (r : Ring) : (r.create h c).rd = 0 := rfl
@[simp] theorem create_wr (h : Bool) (c : Nat) (r : Ring) : (r.create h c).wr = 0 := rfl
@[simp] theorem create_buf (h : Bool) (c : Nat) (r : Ring) : (r.create h c).buf = r.buf := rfl

@[simp] theorem uartClearOverrun_overrun (s : State) : (uartClearOverrun s).uart.overrun = false := rfl
@[simp] theorem uartClearOverrun_rxHw (s : State) : (uartClearOverrun s).uart.rxHw = s.uart.rxHw := rfl
@[simp] theorem uartClearOverrun_tdr (s : State) : (uartClearOverrun s).uart.tdr = s.uart.tdr := rfl
@[simp] theorem uartClearOverrun_rx (s : State) : (uartClearOverrun s).rx = s.rx := rfl
@[simp] theorem uartClearOverrun_tx (s : State) : (uartClearOverrun s).tx = s.tx := rfl

@[simp] theorem mainAt_mainOp (s : State) (op : MainOp) : (s.mainAt op).mainOp = some op := rfl
@[simp] theorem mainAt_cfg (s : State) (op : MainOp) : (s.mainAt op).cfg = s.cfg := rfl
@[simp] theorem mainAt_rx (s : State) (op : MainOp) : (s.mainAt op).rx = s.rx := rfl
@[simp] theorem mainAt_tx (s : State) (op : MainOp) : (s.mainAt op).tx = s.tx := rfl
@[simp] theorem mainAt_ring (s : State) (op : MainOp) (sel : RingSel) : (s.mainAt op).ring sel = s.ring sel := by
  cases sel <;> rfl
@[simp] theorem mainAt_txArmed (s : State) (op : MainOp) : (s.mainAt op).txArmed = s.txArmed := rfl
@[simp] theorem mainAt_initialized (s : State) (op : MainOp) : (s.mainAt op).initialized = s.initialized := rfl
@[simp] theorem mainAt_irqMasked (s : State) (op : MainOp) : (s.mainAt op).irqMasked = s.irqMasked := rfl
@[simp] theorem mainAt_isrOp (s : State) (op : MainOp) : (s.mainAt op).isrOp = s.isrOp := rfl
@[simp] theorem mainAt_uart (s : State) (op : MainOp) : (s.mainAt op).uart = s.uart := rfl
@[simp] theorem mainAt_wireOut (s : State) (op : MainOp) : (s.mainAt op).wireOut = s.wireOut := rfl
@[simp] theorem mainAt_wireInLost (s : State) (op : MainOp) : (s.mainAt op).wireInLost = s.wireInLost := rfl
@[simp] theorem mainAt_res (s : State) (op : MainOp) : (s.mainAt op).res = s.res := rfl
@[simp] theorem mainAt_trace (s : State) (op : MainOp) : (s.mainAt op).trace = s.trace := rfl
@[simp] theorem mainAt_turns (s : State) (op : MainOp) : (s.mainAt op).turns = s.turns := rfl
@[simp] theorem mainAt_mainAt (s : State) (op op' : MainOp) : (s.mainAt op).mainAt op' = s.mainAt op' := rfl

@[simp] theorem mainReturn_mainOp (s : State) (v : Word) : (s.mainReturn v).mainOp = none := rfl
@[simp] theorem mainReturn_res (s : State) (v : Word) : (s.mainReturn v).res = v := rfl
@[simp] theorem mainReturn_cfg (s : State) (v : Word) : (s.mainReturn v).cfg = s.cfg := rfl
@[simp] theorem mainReturn_rx (s : State) (v : Word) : (s.mainReturn v).rx = s.rx := rfl
@[simp] theorem mainReturn_tx (s : State) (v : Word) : (s.mainReturn v).tx = s.tx := rfl
@[simp] theorem mainReturn_ring (s : State) (v : Word) (sel : RingSel) : (s.mainReturn v).ring sel = s.ring sel := by
  cases sel <;> rfl
@[simp] theorem mainReturn_txArmed (s : State) (v : Word) : (s.mainReturn v).txArmed = s.txArmed := rfl
@[simp] theorem mainReturn_initialized (s : State) (v : Word) : (s.mainReturn v).initialized = s.initialized := rfl
@[simp] theorem mainReturn_irqMasked (s : State) (v : Word) : (s.mainReturn v).irqMasked = s.irqMasked := rfl
@[simp] theorem mainReturn_isrOp (s : State) (v : Word) : (s.mainReturn v).isrOp = s.isrOp := rfl
@[simp] theorem mainReturn_uart (s : State) (v : Word) : (s.mainReturn v).uart = s.uart := rfl
@[simp] theorem mainReturn_wireOut (s : State) (v : Word) : (s.mainReturn v).wireOut = s.wireOut := rfl
@[simp] theorem mainReturn_wireInLost (s : State) (v : Word) : (s.mainReturn v).wireInLost = s.wireInLost := rfl
@[simp] theorem mainReturn_trace (s : State) (v : Word) : (s.mainReturn v).trace = s.trace := rfl
@[simp] theorem mainReturn_turns (s : State) (v : Word) : (s.mainReturn v).turns = s.turns := rfl

@[simp] theorem isrAt_isrOp (s : State) (op : IsrOp) : (s.isrAt op).isrOp = some op := rfl
@[simp] theorem isrAt_cfg (s : State) (op : IsrOp) : (s.isrAt op).cfg = s.cfg := rfl
@[simp] theorem isrAt_rx (s : State) (op : IsrOp) : (s.isrAt op).rx = s.rx := rfl
@[simp] theorem isrAt_tx (s : State) (op : IsrOp) : (s.isrAt op).tx = s.tx := rfl
@[simp] theorem isrAt_ring (s : State) (op : IsrOp) (sel : RingSel) : (s.isrAt op).ring sel = s.ring sel := by
  cases sel <;> rfl
@[simp] theorem isrAt_txArmed (s : State) (op : IsrOp) : (s.isrAt op).txArmed = s.txArmed := rfl
@[simp] theorem isrAt_initialized (s : State) (op : IsrOp) : (s.isrAt op).initialized = s.initialized := rfl
@[simp] theorem isrAt_irqMasked (s : State) (op : IsrOp) : (s.isrAt op).irqMasked = s.irqMasked := rfl
@[simp] theorem isrAt_mainOp (s : State) (op : IsrOp) : (s.isrAt op).mainOp = s.mainOp := rfl
@[simp] theorem isrAt_uart (s : State) (op : IsrOp) : (s.isrAt op).uart = s.uart := rfl
@[simp] theorem isrAt_wireOut (s : State) (op : IsrOp) : (s.isrAt op).wireOut = s.wireOut := rfl
@[simp] theorem isrAt_wireInLost (s : State) (op : IsrOp) : (s.isrAt op).wireInLost = s.wireInLost := rfl
@[simp] theorem isrAt_res (s : State) (op : IsrOp) : (s.isrAt op).res = s.res := rfl
@[simp] theorem isrAt_trace (s : State) (op : IsrOp) : (s.isrAt op).trace = s.trace := rfl
@[simp] theorem isrAt_turns (s : State) (op : IsrOp) : (s.isrAt op).turns = s.turns := rfl
@[simp] theorem isrAt_isrAt (s : State) (op op' : IsrOp) : (s.isrAt op).isrAt op' = s.isrAt op' := rfl

@[simp] theorem leaveHandler_isrOp (s : State) : (leaveHandler s).isrOp = none := rfl
@[simp] theorem leaveHandler_mainOp (s : State) : (leaveHandler s).mainOp = s.mainOp := rfl
@[simp] theorem leaveHandler_rx (s : State) : (leaveHandler s).rx = s.rx := rfl
@[simp] theorem leaveHandler_tx (s : State) : (leaveHandler s).tx = s.tx := rfl
@[simp] theorem leaveHandler_uart (s : State) : (leaveHandler s).uart = s.uart := rfl

@[simp] theorem andThen_next {α β : Type} (a : α) (k : α → Run β) : andThen (.next a) k = k a := rfl
@[simp] theorem andThen_fault {α β : Type} (f : Fault) (k : α → Run β) : andThen (.fault f) k = .fault f := rfl
@[simp] theorem andThen_refused {α β : Type} (r : Refusal) (k : α → Run β) : andThen (.refused r) k = .refused r := rfl

/-- An outcome goes on through `andThen` exactly when both parts do. -/
theorem andThen_eq_next {α β : Type} {o : Run α} {k : α → Run β} {b : β} :
    andThen o k = .next b ↔ ∃ a, o = .next a ∧ k a = .next b := by
  cases o <;> simp [andThen]

/-- An outcome faults through `andThen` exactly when a part does. -/
theorem andThen_eq_fault {α β : Type} {o : Run α} {k : α → Run β} {f : Fault} :
    andThen o k = .fault f ↔ o = .fault f ∨ ∃ a, o = .next a ∧ k a = .fault f := by
  cases o <;> simp [andThen]

theorem withValid_eq_next {α : Type} {sel : RingSel} {s : State} {k : Ring → Run α} {a : α} :
    withValid sel s k = .next a ↔ (s.ring sel).valid = true ∧ k (s.ring sel) = .next a := by
  unfold withValid; split <;> simp_all

theorem withValid_of_valid {α : Type} {sel : RingSel} {s : State} (k : Ring → Run α)
    (h : (s.ring sel).valid = true) : withValid sel s k = k (s.ring sel) := by
  simp [withValid, h]

theorem issueMain_eq_next {op : MainOp} {s s' : State} :
    issueMain op s = .next s' ↔ s.mainOp = none ∧ s.isrOp = none ∧ s' = s.mainAt op := by
  unfold issueMain
  split
  · next h =>
    simp only [Bool.and_eq_true, Option.isNone_iff_eq_none] at h
    exact ⟨fun e => ⟨h.1, h.2, (Host.Outcome.next.inj e).symm⟩, fun e => by rw [e.2.2]⟩
  · next h =>
    simp only [Bool.and_eq_true, Option.isNone_iff_eq_none] at h
    exact ⟨fun e => (by cases e), fun e => absurd ⟨e.1, e.2.1⟩ h⟩

theorem enterHandler_eq_next {s s' : State} :
    enterHandler s = .next s' ↔ s.handlerEnabled = true ∧ s' = s.isrAt .h1Test := by
  unfold enterHandler
  split
  · next h => exact ⟨fun e => ⟨h, (Host.Outcome.next.inj e).symm⟩, fun e => by rw [e.2]⟩
  · next h => exact ⟨fun e => (by cases e), fun e => absurd e.1 h⟩

end Sys2Proof.Machine
end

