-- ==== Sys2Proof/Laws/Steps.lean ====
section
/-! SUPPORT. What a micro-step of a shared part can do, said once: the inversion lemmas of the slot accesses, of
enqueue, dequeue and the queries (R41, R42, R82 to R86), and how a part's step moves MAIN and the handler. -/

namespace Sys2Proof.Machine

theorem memWrite_eq_next {sel : RingSel} {i : Nat} {b : Byte} {s s' : State} :
    memWrite sel i b s = .next s' ↔
      ((s.ring sel).valid = true ∧ i < (s.ring sel).cap) ∧
        s' = s.setRing sel { s.ring sel with buf := memPut (s.ring sel).buf i b } := by
  unfold memWrite
  split
  · next h =>
    simp only [Bool.and_eq_true, decide_eq_true_eq] at h
    exact ⟨fun e => ⟨h, (Host.Outcome.next.inj e).symm⟩, fun e => by rw [e.2]⟩
  · next h =>
    simp only [Bool.and_eq_true, decide_eq_true_eq] at h
    exact ⟨fun e => (by cases e), fun e => absurd e.1 h⟩

theorem memRead_eq_next {sel : RingSel} {i : Nat} {b : Byte} {s : State} :
    memRead sel i s = .next b ↔
      ((s.ring sel).valid = true ∧ i < (s.ring sel).cap) ∧ memGet (s.ring sel).buf i = some b := by
  unfold memRead
  split
  · next h =>
    simp only [Bool.and_eq_true, decide_eq_true_eq] at h
    cases memGet (s.ring sel).buf i with
    | none => simp
    | some c => simp [h]
  · next h =>
    simp only [Bool.and_eq_true, decide_eq_true_eq] at h
    exact ⟨fun e => (by cases e), fun e => absurd e.1 h⟩

/-- Everything a micro-step of an enqueue can do (R84). -/
theorem enqueueStep_cases {sel : RingSel} {byte : Byte} {st : EnqStep} {s s' : State} {p : Progress EnqStep Bool}
    (h : enqueueStep sel byte st s = .next (s', p)) :
    (st = .e1 ∧ (s.ring sel).valid = true ∧ s' = s ∧ p = .more (.e2 (s.ring sel).wr)) ∨
    (∃ w, st = .e2 w ∧ s' = s ∧ p = .more (.e3 w (s.ring sel).rd)) ∨
    (∃ w ds, st = .e3 w ds ∧ isFullOf (s.ring sel).cap w ds = true ∧ s' = s ∧ p = .done false) ∨
    (∃ w ds, st = .e3 w ds ∧ isFullOf (s.ring sel).cap w ds = false ∧ s' = s ∧ p = .more (.e4 w ds)) ∨
    (∃ w ds, st = .e4 w ds ∧ (s.ring sel).valid = true ∧ w < (s.ring sel).cap ∧
      s' = s.setRing sel { s.ring sel with buf := memPut (s.ring sel).buf w byte } ∧ p = .more (.e5 w ds)) ∨
    (∃ w ds, st = .e5 w ds ∧ s' = s.setRing sel { s.ring sel with wr := incMod w (s.ring sel).cap } ∧
      p = .more (.e6 w ds)) ∨
    (∃ w ds, st = .e6 w ds ∧ s' = sampleMinFree sel (incMod w (s.ring sel).cap) ds s ∧ p = .more .e7) ∨
    (st = .e7 ∧ s' = s ∧ p = .done true) := by
  cases st with
  | e1 =>
    simp only [enqueueStep] at h
    obtain ⟨hv, e⟩ := withValid_eq_next.1 h
    cases e
    exact .inl ⟨rfl, hv, rfl, rfl⟩
  | e2 w => cases h; exact .inr (.inl ⟨w, rfl, rfl, rfl⟩)
  | e3 w ds =>
    simp only [enqueueStep] at h
    split at h
    · next hf => cases h; exact .inr (.inr (.inl ⟨w, ds, rfl, hf, rfl, rfl⟩))
    · next hf =>
      cases h
      exact .inr (.inr (.inr (.inl ⟨w, ds, rfl, Bool.eq_false_iff.2 hf, rfl, rfl⟩)))
  | e4 w ds =>
    obtain ⟨a, ha, e⟩ := andThen_eq_next.1 h
    obtain ⟨⟨hv, hc⟩, rfl⟩ := memWrite_eq_next.1 ha
    cases e
    exact .inr (.inr (.inr (.inr (.inl ⟨w, ds, rfl, hv, hc, rfl, rfl⟩))))
  | e5 w ds => cases h; exact .inr (.inr (.inr (.inr (.inr (.inl ⟨w, ds, rfl, rfl, rfl⟩)))))
  | e6 w ds => cases h; exact .inr (.inr (.inr (.inr (.inr (.inr (.inl ⟨w, ds, rfl, rfl, rfl⟩))))))
  | e7 => cases h; exact .inr (.inr (.inr (.inr (.inr (.inr (.inr ⟨rfl, rfl, rfl⟩))))))

/-- Everything a micro-step of a dequeue can do (R85). -/
theorem dequeueStep_cases {sel : RingSel} {st : DeqStep} {s s' : State} {p : Progress DeqStep (Option Byte)}
    (h : dequeueStep sel st s = .next (s', p)) :
    (st = .q1 ∧ (s.ring sel).valid = true ∧ s' = s ∧ p = .more (.q2 (s.ring sel).rd)) ∨
    (∃ d, st = .q2 d ∧ s' = s ∧ p = .more (.q3 d (s.ring sel).wr)) ∨
    (∃ d ws, st = .q3 d ws ∧ ws = d ∧ s' = s ∧ p = .done none) ∨
    (∃ d ws, st = .q3 d ws ∧ ws ≠ d ∧ s' = s ∧ p = .more (.q4 d)) ∨
    (∃ d b, st = .q4 d ∧ (s.ring sel).valid = true ∧ d < (s.ring sel).cap ∧ memGet (s.ring sel).buf d = some b ∧
      s' = s ∧ p = .more (.q5 d b)) ∨
    (∃ d b, st = .q5 d b ∧ s' = s.setRing sel { s.ring sel with rd := incMod d (s.ring sel).cap } ∧
      p = .more (.q6 b)) ∨
    (∃ b, st = .q6 b ∧ s' = s ∧ p = .done (some b)) := by
  cases st with
  | q1 =>
    simp only [dequeueStep] at h
    obtain ⟨hv, e⟩ := withValid_eq_next.1 h
    cases e
    exact .inl ⟨rfl, hv, rfl, rfl⟩
  | q2 d => cases h; exact .inr (.inl ⟨d, rfl, rfl, rfl⟩)
  | q3 d ws =>
    simp only [dequeueStep] at h
    split at h
    · next he => cases h; exact .inr (.inr (.inl ⟨d, ws, rfl, (isEmptyOf_iff _ _).1 he, rfl, rfl⟩))
    · next he =>
      cases h
      exact .inr (.inr (.inr (.inl ⟨d, ws, rfl, fun e => he ((isEmptyOf_iff _ _).2 e), rfl, rfl⟩)))
  | q4 d =>
    obtain ⟨b, hb, e⟩ := andThen_eq_next.1 h
    obtain ⟨⟨hv, hc⟩, hb⟩ := memRead_eq_next.1 hb
    cases e
    exact .inr (.inr (.inr (.inr (.inl ⟨d, b, rfl, hv, hc, hb, rfl, rfl⟩))))
  | q5 d b => cases h; exact .inr (.inr (.inr (.inr (.inr (.inl ⟨d, b, rfl, rfl, rfl⟩)))))
  | q6 b => cases h; exact .inr (.inr (.inr (.inr (.inr (.inr ⟨b, rfl, rfl, rfl⟩)))))

/-- Everything a micro-step of a query can do: it writes nothing (R82, R83, R86). -/
theorem queryStep_cases {sel : RingSel} {answer : Nat → Nat → Nat → Word} {st : QueryStep} {s s' : State}
    {p : Progress QueryStep Word} (h : queryStep sel answer st s = .next (s', p)) :
    s' = s ∧
      ((st = .readWr ∧ (s.ring sel).valid = true ∧ p = .more (.readRd (s.ring sel).wr)) ∨
       (∃ w, st = .readRd w ∧ p = .more (.answer w (s.ring sel).rd)) ∨
       (∃ w d, st = .answer w d ∧ p = .done (answer (s.ring sel).cap w d))) := by
  cases st with
  | readWr =>
    simp only [queryStep] at h
    obtain ⟨hv, e⟩ := withValid_eq_next.1 h
    cases e
    exact ⟨rfl, .inl ⟨rfl, hv, rfl⟩⟩
  | readRd w => cases h; exact ⟨rfl, .inr (.inl ⟨w, rfl, rfl⟩)⟩
  | answer w d => cases h; exact ⟨rfl, .inr (.inr ⟨w, d, rfl, rfl⟩)⟩

/-- How a part of MAIN's operation moves MAIN. -/
theorem mainGoesOn_eq_next {σ ρ : Type} {o : Run (State × Progress σ ρ)} {at' : σ → MainOp}
    {k : ρ → State → Run State} {s' : State} :
    mainGoesOn o at' k = .next s' ↔
      (∃ a st, o = .next (a, .more st) ∧ s' = a.mainAt (at' st)) ∨
      (∃ a v, o = .next (a, .done v) ∧ k v a = .next s') := by
  unfold mainGoesOn
  rw [andThen_eq_next]
  constructor
  · rintro ⟨⟨a, st | v⟩, rfl, h⟩
    · exact .inl ⟨a, st, rfl, (Host.Outcome.next.inj h).symm⟩
    · exact .inr ⟨a, v, rfl, h⟩
  · rintro (⟨a, st, rfl, rfl⟩ | ⟨a, v, rfl, h⟩)
    · exact ⟨(a, .more st), rfl, rfl⟩
    · exact ⟨(a, .done v), rfl, h⟩

/-- How a part of the handler moves the handler. -/
theorem isrGoesOn_eq_next {σ ρ : Type} {o : Run (State × Progress σ ρ)} {at' : σ → IsrOp}
    {k : ρ → State → Run State} {s' : State} :
    isrGoesOn o at' k = .next s' ↔
      (∃ a st, o = .next (a, .more st) ∧ s' = a.isrAt (at' st)) ∨
      (∃ a v, o = .next (a, .done v) ∧ k v a = .next s') := by
  unfold isrGoesOn
  rw [andThen_eq_next]
  constructor
  · rintro ⟨⟨a, st | v⟩, rfl, h⟩
    · exact .inl ⟨a, st, rfl, (Host.Outcome.next.inj h).symm⟩
    · exact .inr ⟨a, v, rfl, h⟩
  · rintro (⟨a, st, rfl, rfl⟩ | ⟨a, v, rfl, h⟩)
    · exact ⟨(a, .more st), rfl, rfl⟩
    · exact ⟨(a, .done v), rfl, h⟩

/-- The counter's sample touches the counter only (R84, `E6`). -/
theorem sampleMinFree_eq (sel : RingSel) (w1 ds : Nat) (s : State) :
    ∃ n, n ≤ (s.ring sel).minFree ∧ sampleMinFree sel w1 ds s = s.setRing sel { s.ring sel with minFree := n } := by
  unfold sampleMinFree
  split
  · next h =>
    simp only [Bool.and_eq_true, decide_eq_true_eq] at h
    exact ⟨_, Nat.le_of_lt h.2, rfl⟩
  · refine ⟨(s.ring sel).minFree, Nat.le_refl _, ?_⟩
    cases sel <;> rfl

end Sys2Proof.Machine
end

