-- ==== Sys2Proof/Laws/Runs.lean ====
section
/-! SUPPORT. How a whole run unfolds into its micro-steps (R62), the inversion of the legality checks (R80, R103, R105)
and of the accesses to the UART (R121 to R123). -/

namespace Sys2Proof.Machine

theorem idle_iff {s : State} : (s.mainOp.isNone && s.isrOp.isNone) = true ↔ s.mainOp = none ∧ s.isrOp = none := by
  simp

/-- A micro-step of a run that does not end it. -/
theorem runMainFor_more {n : Nat} {s t : State} (h : mainStep s = .next t) (e : mainRunEnds t = false) :
    runMainFor (n + 1) s = runMainFor n t := by
  simp [runMainFor, h, e]

/-- The micro-step that ends a run. -/
theorem runMainFor_last {n : Nat} {s t : State} (h : mainStep s = .next t) (e : mainRunEnds t = true) :
    runMainFor (n + 1) s = .next t := by
  simp [runMainFor, h, e]

theorem runHandlerFor_more {n : Nat} {s t : State} {op : IsrOp} (h : isrStep s = .next t) (e : t.isrOp = some op) :
    runHandlerFor (n + 1) s = runHandlerFor n t := by
  simp [runHandlerFor, h, e]

theorem runHandlerFor_last {n : Nat} {s t : State} (h : isrStep s = .next t) (e : t.isrOp = none) :
    runHandlerFor (n + 1) s = .next t := by
  simp [runHandlerFor, h, e]

/-- A property every micro-step of MAIN keeps holds at the end of a run. -/
theorem runMainFor_induct {P : State → Prop} (hP : ∀ s t, P s → mainStep s = .next t → P t) {n : Nat} {s t : State}
    (hs : P s) (h : runMainFor n s = .next t) : P t := by
  induction n generalizing s with
  | zero => cases h; exact hs
  | succ n ih =>
    obtain ⟨a, ha, e⟩ := andThen_eq_next.1 h
    split at e
    · cases e; exact hP _ _ hs ha
    · exact ih (hP _ _ hs ha) e

/-- A property every micro-step of the handler keeps holds at the end of a run. -/
theorem runHandlerFor_induct {P : State → Prop} (hP : ∀ s t, P s → isrStep s = .next t → P t) {n : Nat} {s t : State}
    (hs : P s) (h : runHandlerFor n s = .next t) : P t := by
  induction n generalizing s with
  | zero => cases h; exact hs
  | succ n ih =>
    obtain ⟨a, ha, e⟩ := andThen_eq_next.1 h
    split at e
    · cases e; exact hP _ _ hs ha
    · exact ih (hP _ _ hs ha) e

/-- A word of MAIN run whole is its issue and then its micro-steps. -/
theorem exec_of_main {i : Instr} (h : issuedByMain i = true) (s : State) :
    exec i s = andThen (startInstr i s) runMain := by
  cases i <;> first | rfl | cases h

theorem whileUnowned_eq_next {sel : RingSel} {s t : State} {o : Run State} :
    whileUnowned sel s o = .next t ↔ s.initialized = false ∧ o = .next t := by
  unfold whileUnowned; split <;> simp_all

theorem withStats_eq_next {s t : State} {o : Run State} :
    withStats s o = .next t ↔ s.cfg.hasStats = true ∧ o = .next t := by
  unfold withStats; split <;> simp_all

theorem asStatsProducer_eq_next {sel : RingSel} {s t : State} {o : Run State} :
    asStatsProducer sel s o = .next t ↔
      (s.initialized = false ∨ sel = .tx ∨ s.irqMasked = true) ∧ o = .next t := by
  unfold asStatsProducer
  split
  · next h => simp only [Bool.or_eq_true, Bool.not_eq_true', beq_iff_eq, or_assoc] at h; simp [h]
  · next h => simp only [Bool.or_eq_true, Bool.not_eq_true', beq_iff_eq, or_assoc] at h; simp [h]

theorem whenInitialized_eq_next {s t : State} {o : Run State} :
    whenInitialized s o = .next t ↔ s.initialized = true ∧ o = .next t := by
  unfold whenInitialized; split <;> simp_all

theorem uartReadRx_eq_next {s t : State} {b : Byte} :
    uartReadRx s = .next (t, b) ↔
      ∃ rest, s.uart.rxHw = b :: rest ∧ t = { s with uart := { s.uart with rxHw := rest } } := by
  unfold uartReadRx
  split
  · next b' rest e => rw [e]; constructor
                      · intro h; cases h; exact ⟨rest, rfl, rfl⟩
                      · rintro ⟨rest', h, rfl⟩; cases h; rfl
  · next e => simp [e]

theorem uartWriteTx_eq_next {s t : State} {b : Byte} :
    uartWriteTx b s = .next t ↔ s.uart.tdr = none ∧ t = { s with uart := { s.uart with tdr := some b } } := by
  unfold uartWriteTx
  split
  · next e => rw [e]; exact ⟨fun h => ⟨rfl, (Host.Outcome.next.inj h).symm⟩, fun h => by rw [h.2]⟩
  · next e => simp [e]

theorem uartReceive_eq_next {s t : State} {b : Byte} :
    uartReceive b s = .next t ↔ s.uart.en = true ∧
      ((s.uart.rxHw.length < s.cfg.rxHwDepth ∧
          t = { s with uart := { s.uart with rxHw := s.uart.rxHw ++ [b] } }) ∨
        (s.cfg.rxHwDepth ≤ s.uart.rxHw.length ∧
          t = { s with uart := { s.uart with overrun := true }, wireInLost := s.wireInLost + 1 })) := by
  unfold uartReceive
  split
  · next he =>
    split
    · next hl => simp only [he, hl, true_and, Nat.not_le.2 hl, false_and, or_false]
                 exact ⟨fun h => (Host.Outcome.next.inj h).symm, fun h => by rw [h]⟩
    · next hl => simp only [he, hl, true_and, false_and, false_or, Nat.not_lt.1 hl]
                 exact ⟨fun h => (Host.Outcome.next.inj h).symm, fun h => by rw [h]⟩
  · next he => simp [he]

theorem uartShift_eq_next {s t : State} :
    uartShift s = .next t ↔ s.uart.en = true ∧
      ∃ b, s.uart.tdr = some b ∧ t = { s with wireOut := s.wireOut ++ [b], uart := { s.uart with tdr := none } } := by
  unfold uartShift
  split
  · next he =>
    split
    · next b e => rw [e]; simp only [he, true_and, Option.some.injEq, exists_eq_left']
                  exact ⟨fun h => (Host.Outcome.next.inj h).symm, fun h => by rw [h]⟩
    · next e => simp [e]
  · next he => simp [he]

end Sys2Proof.Machine
end

