-- ==== Sys2Proof/Laws/Fairness.lean ====
section
/-! SUPPORT. What the fairness assumptions give (spec/70_reset_and_hazards.md R185): a handler run once begun comes to
its end, because each of its micro-steps but a loop test that finds a byte brings it nearer. -/

namespace Sys2Proof.Machine

/-- The first of the numbers from `n` on with a property. -/
theorem first_from {P : Nat → Prop} {n : Nat} (h : ∃ m ≥ n, P m) :
    ∃ m ≥ n, P m ∧ ∀ k, n ≤ k → k < m → ¬ P k := by
  classical
  refine ⟨Nat.find h, (Nat.find_spec h).1, (Nat.find_spec h).2, fun k hk hm hp => Nat.find_min h hm ⟨hk, hp⟩⟩

/-- A micro-step of the handler ends the run or brings it nearer its end, unless it is a loop test that finds a byte. -/
theorem isrMicro_left {op : IsrOp} {s t : State} (h : isrMicro op s = .next t)
    (hq : op = .h1Test → s.rxReady = false) :
    t.isrOp = none ∨ ∃ op', t.isrOp = some op' ∧ op'.left < op.left := by
  cases op with
  | h1Test =>
    cases h
    exact .inr ⟨.h2Test, by simp [State.isrAt, hq rfl], by decide⟩
  | h1Read =>
    obtain ⟨a, -, e⟩ := andThen_eq_next.1 h
    cases e
    exact .inr ⟨_, rfl, by simp [IsrOp.left, EnqStep.left]⟩
  | h1Enqueue b st =>
    obtain ⟨a, st', ha, rfl⟩ | ⟨a, v, ha, e⟩ := isrGoesOn_eq_next.1 h
    · refine .inr ⟨_, rfl, ?_⟩
      rcases enqueueStep_cases ha with ⟨rfl, -, -, e⟩ | ⟨w, rfl, -, e⟩ | ⟨w, ds, rfl, -, -, e⟩ |
        ⟨w, ds, rfl, -, -, e⟩ | ⟨w, ds, rfl, -, -, -, e⟩ | ⟨w, ds, rfl, -, e⟩ | ⟨w, ds, rfl, -, e⟩ | ⟨rfl, -, e⟩ <;>
        cases e <;> simp [IsrOp.left, EnqStep.left]
    · cases e
      refine .inr ⟨.h1Test, rfl, ?_⟩
      cases st <;> simp [IsrOp.left, EnqStep.left]
  | h2Test =>
    cases h
    refine .inr ⟨_, rfl, ?_⟩
    split <;> decide
  | h2Clear => cases h; exact .inr ⟨.h3Test, rfl, by decide⟩
  | h3Test =>
    cases h
    refine .inr ⟨_, rfl, ?_⟩
    split <;> decide
  | h3Dequeue st =>
    obtain ⟨a, st', ha, rfl⟩ | ⟨a, v, ha, e⟩ := isrGoesOn_eq_next.1 h
    · refine .inr ⟨_, rfl, ?_⟩
      rcases dequeueStep_cases ha with ⟨rfl, -, -, e⟩ | ⟨d, rfl, -, e⟩ | ⟨d, ws, rfl, -, -, e⟩ |
        ⟨d, ws, rfl, -, -, e⟩ | ⟨d, b, rfl, -, -, -, -, e⟩ | ⟨d, b, rfl, -, e⟩ | ⟨b, rfl, -, e⟩ <;>
        cases e <;> simp [IsrOp.left, DeqStep.left]
    · cases e
      refine .inr ⟨.h3Result v, rfl, ?_⟩
      cases st <;> simp [IsrOp.left, DeqStep.left]
  | h3Result v =>
    cases v with
    | none => cases h; exact .inr ⟨.h4, rfl, by decide⟩
    | some b =>
      obtain ⟨a, -, e⟩ := andThen_eq_next.1 h
      cases e
      exact .inr ⟨.h4, rfl, by simp [IsrOp.left]⟩
  | h4 => cases h; exact .inl rfl

/-- A micro-step is a step of the machine, and so is the reset event. -/
theorem move_micro_eq_step (s : State) : s.move .micro = step { s with turns := .micro :: s.turns } := rfl

theorem move_reset_eq_step (s : State) : s.move .reset = step { s with turns := .reset :: s.turns } := rfl

/-- An operation's beginning is a step of the machine: the one the word's bytes cause. -/
theorem move_word_eq_step {s : State} {i : Instr} {bytes : List Byte} (hb : bytes ≠ [])
    (hd : decode s.cfg.hasStats (bytes ++ s.trace) = .ok (i, s.trace)) (hw : mustWait i s = false) :
    s.move (.word i) = step { s with trace := bytes ++ s.trace, turns := .start :: s.turns } := by
  have hw' : mustWait i { s with trace := bytes ++ s.trace, turns := .start :: s.turns } = false := hw
  simp [State.move, step, takeTurn, runNext, hb, hd, hw, hw']

/-- While the handler runs, a move other than its own micro-step leaves it where it is, or is the reset event. -/
theorem move_isrOp {s t : State} {m : Move} (hm : m ≠ .micro) (hi : s.isrOp.isSome = true)
    (h : s.move m = .next t) : t.isrOp = s.isrOp ∨ m = .reset := by
  cases m with
  | micro => exact absurd rfl hm
  | reset => exact .inr rfl
  | word i =>
    refine .inl ?_
    simp only [State.move] at h
    split at h
    · cases h
    · next hw =>
      cases i with
      | isr =>
        obtain ⟨he, -⟩ := enterHandler_eq_next.1 h
        simp [State.handlerEnabled, Option.isNone_iff_eq_none] at he
        simp [he.2] at hi
      | devRxArrive b =>
        obtain ⟨-, ⟨-, rfl⟩ | ⟨-, rfl⟩⟩ := uartReceive_eq_next.1 h <;> rfl
      | devTxShift =>
        obtain ⟨-, b, -, rfl⟩ := uartShift_eq_next.1 h
        rfl
      | _ => exact absurd (by simp [mustWait, issuedByMain, hi]) hw

variable {run : Nat → State} {moves : Nat → Move}

/-- A handler run in progress stands where it stood until its next micro-step, or has been abandoned. -/
theorem handler_stands (he : Execution run moves) (hm : HandlerMoves run moves) {n : Nat} {op : IsrOp}
    (hop : (run n).isrOp = some op) :
    ∃ m ≥ n, (run m).isrOp = none ∨ ((run m).isrOp = some op ∧ moves m = .micro) := by
  obtain ⟨m, hnm, hmv, hfirst⟩ := first_from (hm n (by simp [hop]))
  have stay : ∀ d, n + d ≤ m → (run (n + d)).isrOp = some op := by
    intro d
    induction d with
    | zero => intro _; exact hop
    | succ d ih =>
      intro hd
      have h0 := ih (by omega)
      have hf := hfirst (n + d) (by omega) (by omega)
      rcases move_isrOp (fun e => hf (.inl e)) (by simp [h0]) (he (n + d)) with e | e
      · rw [← h0]; exact e
      · exact absurd (.inr e) hf
  obtain ⟨d, rfl⟩ := Nat.exists_eq_add_of_le hnm
  rcases hmv with e | e
  · exact ⟨n + d, hnm, .inr ⟨stay d (Nat.le_refl _), e⟩⟩
  · refine ⟨n + d + 1, by omega, .inl ?_⟩
    have h := he (n + d)
    rw [e] at h
    rw [← Host.Outcome.next.inj h]
    rfl

/-- One micro-step of a handler run that is not a loop test finding a byte ends it or brings it nearer its end. -/
theorem handler_nearer (he : Execution run moves) {m : Nat} {op : IsrOp} (hop : (run m).isrOp = some op)
    (hmv : moves m = .micro) (hq : op = .h1Test → (run m).rxReady = false) :
    (run (m + 1)).isrOp = none ∨ ∃ op', (run (m + 1)).isrOp = some op' ∧ op'.left < op.left := by
  have h := he m
  rw [hmv] at h
  simp only [State.move, advance, hop, Option.isSome_some, if_true, isrStep] at h
  exact isrMicro_left h hq

/-- A handler run comes to its end or to another loop test. -/
theorem handler_returns_or_tests (he : Execution run moves) (hm : HandlerMoves run moves) (r : Nat) :
    ∀ (n : Nat) (op : IsrOp), (run n).isrOp = some op → op.left = r →
      ∃ m ≥ n, (run m).isrOp = none ∨ TestsAt run moves m := by
  induction r using Nat.strong_induction_on with
  | _ r ih =>
    intro n op hop hr
    obtain ⟨m, hnm, e | ⟨hm', hmv⟩⟩ := handler_stands he hm hop
    · exact ⟨m, hnm, .inl e⟩
    · by_cases ht : op = .h1Test
      · subst ht
        exact ⟨m, hnm, .inr ⟨hm', hmv⟩⟩
      · rcases handler_nearer he hm' hmv (fun e => absurd e ht) with e | ⟨op', hop', hl⟩
        · exact ⟨m + 1, by omega, .inl e⟩
        · obtain ⟨k, hk, h⟩ := ih op'.left (by omega) (m + 1) op' hop' rfl
          exact ⟨k, by omega, h⟩

/-- Past the receive loop a handler run comes to its end. -/
theorem handler_returns_past_loop (he : Execution run moves) (hm : HandlerMoves run moves) (r : Nat) :
    ∀ (n : Nat) (op : IsrOp), (run n).isrOp = some op → op.left = r → r < 12 → ∃ m ≥ n, (run m).isrOp = none := by
  induction r using Nat.strong_induction_on with
  | _ r ih =>
    intro n op hop hr hlt
    obtain ⟨m, hnm, e | ⟨hm', hmv⟩⟩ := handler_stands he hm hop
    · exact ⟨m, hnm, e⟩
    · have ht : op ≠ .h1Test := by rintro rfl; simp [IsrOp.left] at hr; omega
      rcases handler_nearer he hm' hmv (fun e => absurd e ht) with e | ⟨op', hop', hl⟩
      · exact ⟨m + 1, by omega, e⟩
      · obtain ⟨k, hk, h⟩ := ih op'.left (by omega) (m + 1) op' hop' rfl (by omega)
        exact ⟨k, by omega, h⟩

/-- Assumption (a)'s second half: a handler run once begun reaches its end, provided (c) (R185). -/
theorem handler_returns (he : Execution run moves) (hm : HandlerMoves run moves) (hp : PeerPauses run moves) {n : Nat} :
    ∃ m ≥ n, (run m).isrOp = none := by
  by_contra hnone
  have going : ∀ m ≥ n, ∃ op, (run m).isrOp = some op := fun m hmn =>
    Option.ne_none_iff_exists'.1 fun e => hnone ⟨m, hmn, e⟩
  obtain ⟨k, hk, ⟨hop, hmv⟩, hq⟩ := hp n fun m hmn => by
    obtain ⟨op, hop⟩ := going m hmn
    obtain ⟨k, hk, e | ht⟩ := handler_returns_or_tests he hm op.left m op hop rfl
    · exact absurd ⟨k, Nat.le_trans hmn hk, e⟩ hnone
    · exact ⟨k, hk, ht⟩
  rcases handler_nearer he hop hmv (fun _ => hq) with e | ⟨op', hop', hl⟩
  · exact hnone ⟨k + 1, by omega, e⟩
  · obtain ⟨m, hmk, e⟩ := handler_returns_past_loop he hm op'.left (k + 1) op' hop' rfl hl
    exact hnone ⟨m, by omega, e⟩

end Sys2Proof.Machine
end

