-- ==== Sys2Proof/Laws/Memory.lean ====
section
/-! SUPPORT. The laws of the slot memory: a read after a write, and that every operation on it keeps the canonical
form. -/

namespace Sys2Proof.Machine

theorem memGet_memPut_same (m : Memory) (i : Nat) (b : Byte) : memGet (memPut m i b) i = some b := by
  induction m with
  | nil => simp [memPut, memGet]
  | cons p m ih =>
    obtain ⟨a, c⟩ := p
    unfold memPut
    split
    · simp [memGet]
    · split
      · simp [memGet]
      · next h1 h2 => simp only [memGet, if_neg (Ne.symm h2), ih]

theorem memGet_memPut_other (m : Memory) {i j : Nat} (b : Byte) (h : j ≠ i) :
    memGet (memPut m i b) j = memGet m j := by
  induction m with
  | nil => simp [memPut, memGet, Ne.symm h]
  | cons p m ih =>
    obtain ⟨a, c⟩ := p
    unfold memPut
    split
    · simp [memGet, Ne.symm h]
    · split
      · next h2 => subst h2; simp [memGet, Ne.symm h]
      · simp only [memGet, ih]

theorem memGet_memPut (m : Memory) (i j : Nat) (b : Byte) :
    memGet (memPut m i b) j = if j = i then some b else memGet m j := by
  split
  · next h => rw [h, memGet_memPut_same]
  · next h => exact memGet_memPut_other m b h

/-- A slot of the memory after a write is the written one or one that was there. -/
theorem mem_memPut {m : Memory} {i : Nat} {b : Byte} {p : Host.Cell} (h : p ∈ memPut m i b) : p.1 = i ∨ p ∈ m := by
  induction m with
  | nil => simp [memPut] at h; simp [h]
  | cons q m ih =>
    obtain ⟨a, c⟩ := q
    unfold memPut at h
    split at h
    · rcases List.mem_cons.1 h with h | h
      · exact .inl (by rw [h])
      · exact .inr h
    · split at h
      · rcases List.mem_cons.1 h with h | h
        · exact .inl (by rw [h])
        · exact .inr (List.mem_cons_of_mem _ h)
      · rcases List.mem_cons.1 h with h | h
        · exact .inr (by rw [h]; exact List.mem_cons_self)
        · exact (ih h).imp_right (List.mem_cons_of_mem _)

/-- A write keeps the canonical form. -/
theorem memPut_wf {m : Memory} (i : Nat) (b : Byte) (h : Memory.wf m) : Memory.wf (memPut m i b) := by
  induction m with
  | nil => simp [memPut, Memory.wf]
  | cons p m ih =>
    obtain ⟨a, c⟩ := p
    obtain ⟨h1, h2⟩ := List.pairwise_cons.1 h
    unfold memPut
    split
    · next hlt =>
      refine List.pairwise_cons.2 ⟨fun q hq => ?_, h⟩
      rcases List.mem_cons.1 hq with rfl | hq
      · exact hlt
      · exact Nat.lt_trans hlt (h1 q hq)
    · split
      · next heq => subst heq; exact List.pairwise_cons.2 ⟨h1, h2⟩
      · next hlt hne =>
        refine List.pairwise_cons.2 ⟨fun q hq => ?_, ih h2⟩
        rcases mem_memPut hq with h | h
        · show a < q.1
          omega
        · exact h1 q h

/-- `MemWrite` keeps the canonical form of the ring it writes (R42). -/
theorem memWrite_wf {sel : RingSel} {i : Nat} {b : Byte} {s s' : State} (h : memWrite sel i b s = .next s')
    (hw : Memory.wf (s.ring sel).buf) : Memory.wf (s'.ring sel).buf := by
  unfold memWrite at h
  split at h
  · injection h with h
    subst h
    cases sel <;> exact memPut_wf i b hw
  · cases h

end Sys2Proof.Machine
end

