-- ==== Sys2Proof/Laws/Ring.lean ====
section
/-! SUPPORT. What the writes of the micro-steps do to the stored bytes of a ring (R14, R51, R90). -/

namespace Sys2Proof.Machine

theorem Ring.count_lt {r : Ring} (hr : r.rd < r.cap) (hw : r.wr < r.cap) : r.count < r.cap := subMod_lt hw hr

theorem Ring.full_iff {r : Ring} (hr : r.rd < r.cap) (hw : r.wr < r.cap) :
    r.full = true ↔ r.count = r.cap - 1 := isFullOf_iff hw hr

theorem Ring.full_false_iff {r : Ring} (hr : r.rd < r.cap) (hw : r.wr < r.cap) :
    r.full = false ↔ r.count < r.cap - 1 := isFullOf_false_iff hw hr

theorem Ring.empty_iff {r : Ring} (hr : r.rd < r.cap) (hw : r.wr < r.cap) : r.empty = true ↔ r.count = 0 := by
  rw [Ring.empty, isEmptyOf_iff, Ring.count, subMod_eq_zero_iff hw hr]

@[simp] theorem Ring.contents_length (r : Ring) : r.contents.length = r.count := by simp [Ring.contents]

/-- The slot the next byte goes to is not one of the stored ones (R42). -/
theorem Ring.slot_ne_wr {r : Ring} (hr : r.rd < r.cap) (hw : r.wr < r.cap) {k : Nat} (hk : k < r.count) :
    (r.rd + k) % r.cap ≠ r.wr := by
  have hc := Ring.count_lt hr hw
  have e : (r.rd + r.count) % r.cap = r.wr := add_subMod_mod hw hr
  rw [← e]
  exact add_mod_ne (by omega) hc (by omega)

/-- `E4`: the slot write leaves the stored bytes alone (R42). -/
theorem Ring.contents_put {r : Ring} (hr : r.rd < r.cap) (hw : r.wr < r.cap) (b : Byte) :
    Ring.contents { r with buf := memPut r.buf r.wr b } = r.contents := by
  refine List.map_congr_left fun k hk => ?_
  exact memGet_memPut_other _ b (Ring.slot_ne_wr hr hw (List.mem_range.1 hk))

/-- `E5`: the index write hands the slot over as the newest byte (R51, R90). -/
theorem Ring.contents_publish {r : Ring} (hr : r.rd < r.cap) (hw : r.wr < r.cap) (hf : r.full = false) :
    Ring.contents { r with wr := incMod r.wr r.cap } = r.contents ++ [memGet r.buf r.wr] := by
  have e : subMod (incMod r.wr r.cap) r.rd r.cap = r.count + 1 := subMod_incMod_left hw hr hf
  have e2 : (r.rd + r.count) % r.cap = r.wr := add_subMod_mod hw hr
  simp only [Ring.contents, Ring.count] at e e2 ⊢
  rw [e, List.range_succ, List.map_append, List.map_singleton, e2]

/-- `Q5`: the index write takes the oldest byte away (R51, R90). -/
theorem Ring.contents_advance {r : Ring} (hr : r.rd < r.cap) (hw : r.wr < r.cap) (he : r.empty = false) :
    r.contents = memGet r.buf r.rd :: Ring.contents { r with rd := incMod r.rd r.cap } := by
  have hne : r.wr ≠ r.rd := by
    intro h; rw [Ring.empty, (isEmptyOf_iff _ _).2 h] at he; cases he
  have e : subMod r.wr (incMod r.rd r.cap) r.cap + 1 = r.count := subMod_incMod_right hw hr hne
  simp only [Ring.contents, Ring.count] at e ⊢
  rw [← e, List.range_succ_eq_map, List.map_cons, Nat.add_zero, Nat.mod_eq_of_lt hr, List.map_map]
  congr 1
  refine List.map_congr_left fun k _ => ?_
  have : (r.rd + (k + 1)) % r.cap = (incMod r.rd r.cap + k) % r.cap := by
    rw [incMod, Nat.mod_add_mod]; congr 1; omega
  simp only [Function.comp, this]

end Sys2Proof.Machine
end

