-- ==== Sys2Proof/Laws/Parts.lean ====
section
/-! SUPPORT. What a micro-step of an enqueue or a dequeue does to its ring under the invariant, and that a snapshot
stays safe when the other context moves (spec/20_memory.md R51, R52). -/

namespace Sys2Proof.Machine


/-- What a micro-step of an enqueue does to the ring it works on, under the invariant: the ring stays good, only the
index write `E5` hands the byte over, and no slot but the own one is written (R51, R52). -/
theorem enqueueStep_keeps {sel : RingSel} {byte : Byte} {st : EnqStep} {s s' : State} {p : Progress EnqStep Bool}
    (h : enqueueStep sel byte st s = .next (s', p)) (hr : (s.ring sel).Inv s.cfg) (hv : (s.ring sel).valid = true)
    (hl : EnqStep.Inv (s.ring sel) byte st) :
    ∃ r', s' = s.setRing sel r' ∧ r'.Inv s.cfg ∧ r'.valid = true ∧ r'.cap = (s.ring sel).cap ∧ r'.rd = (s.ring sel).rd ∧
      (∀ st', p = .more st' → EnqStep.Inv r' byte st') ∧
      ((∀ w ds, st ≠ .e5 w ds) → r'.wr = (s.ring sel).wr ∧ r'.contents = (s.ring sel).contents) ∧
      (∀ w ds, st = .e5 w ds → r'.contents = (s.ring sel).contents ++ [some byte] ∧ p = .more (.e6 w ds)) ∧
      (∀ i, i ≠ (s.ring sel).wr → memGet r'.buf i = memGet (s.ring sel).buf i) := by
  obtain ⟨hmem, hcap, hidx, hwrit, hcnt⟩ := hr
  have hcap' := hcap hv
  obtain ⟨hrd, hwr⟩ := hidx hv
  have self : s = s.setRing sel (s.ring sel) := by cases sel <;> rfl
  rcases enqueueStep_cases h with ⟨rfl, _, rfl, rfl⟩ | ⟨w, rfl, rfl, rfl⟩ | ⟨w, ds, rfl, hf, rfl, rfl⟩ |
    ⟨w, ds, rfl, hf, rfl, rfl⟩ | ⟨w, ds, rfl, _, hwc, rfl, rfl⟩ | ⟨w, ds, rfl, rfl, rfl⟩ | ⟨w, ds, rfl, hs, rfl⟩ |
    ⟨rfl, rfl, rfl⟩
  · exact ⟨_, self, ⟨hmem, hcap, hidx, hwrit, hcnt⟩, hv, rfl, rfl, by rintro _ ⟨⟩; exact ⟨hv, rfl⟩,
      fun _ => ⟨rfl, rfl⟩, by simp, fun _ _ => rfl⟩
  · exact ⟨_, self, ⟨hmem, hcap, hidx, hwrit, hcnt⟩, hv, rfl, rfl, by
      rintro _ ⟨⟩; exact ⟨hv, hl.2, hrd, by rw [hl.2]; exact Nat.le_refl _⟩,
      fun _ => ⟨rfl, rfl⟩, by simp, fun _ _ => rfl⟩
  · exact ⟨_, self, ⟨hmem, hcap, hidx, hwrit, hcnt⟩, hv, rfl, rfl, by simp,
      fun _ => ⟨rfl, rfl⟩, by simp, fun _ _ => rfl⟩
  · exact ⟨_, self, ⟨hmem, hcap, hidx, hwrit, hcnt⟩, hv, rfl, rfl, by
      rintro _ ⟨⟩; exact ⟨hv, hl.2.1, hl.2.2.1, hl.2.2.2, hf⟩,
      fun _ => ⟨rfl, rfl⟩, by simp, fun _ _ => rfl⟩
  · obtain ⟨_, rfl, hds, hst, hnf⟩ := hl
    have hcon := Ring.contents_put hrd hwr byte
    refine ⟨_, rfl, ⟨memPut_wf _ _ hmem, hcap, hidx, fun _ => ?_, hcnt⟩, hv, rfl, rfl, ?_, fun _ => ⟨rfl, hcon⟩, by simp, ?_⟩
    · rw [hcon]; exact hwrit hv
    · rintro _ ⟨⟩; exact ⟨hv, rfl, hds, hst, hnf, memGet_memPut_same _ _ _⟩
    · intro i hi; exact memGet_memPut_other _ _ hi
  · obtain ⟨_, rfl, hds, hst, hnf, hb⟩ := hl
    have hnf' : (s.ring sel).full = false := by
      rw [Ring.full_false_iff hrd hwr]
      rw [isFullOf_false_iff hwr hds] at hnf; omega
    have hcon := Ring.contents_publish hrd hwr hnf'
    rw [hb] at hcon
    refine ⟨_, rfl, ⟨hmem, hcap, fun _ => ⟨hrd, incMod_lt hwr⟩, fun _ => ?_, hcnt⟩, hv, rfl, rfl, ?_, by simp, ?_, fun _ _ => rfl⟩
    · rw [hcon]; intro v hv'; rcases List.mem_append.1 hv' with h | h
      · exact hwrit hv v h
      · simp at h; simp [h]
    · rintro _ ⟨⟩; exact hv
    · rintro w ds e; cases e; exact ⟨hcon, rfl⟩
  · obtain ⟨n, hn, e⟩ := sampleMinFree_eq sel (incMod w (s.ring sel).cap) ds s
    rw [e] at hs; subst hs
    refine ⟨_, rfl, ⟨hmem, hcap, hidx, hwrit, fun h1 h2 => Nat.le_trans hn (hcnt h1 h2)⟩, hv, rfl, rfl, ?_, fun _ => ⟨rfl, rfl⟩, by simp, fun _ _ => rfl⟩
    rintro _ ⟨⟩; exact hv
  · exact ⟨_, self, ⟨hmem, hcap, hidx, hwrit, hcnt⟩, hv, rfl, rfl, by simp,
      fun _ => ⟨rfl, rfl⟩, by simp, fun _ _ => rfl⟩

/-- What a micro-step of a dequeue does to the ring it works on, under the invariant: the array is not written, and
only the index write `Q5` takes the oldest byte away (R51, R52). -/
theorem dequeueStep_keeps {sel : RingSel} {st : DeqStep} {s s' : State} {p : Progress DeqStep (Option Byte)}
    (h : dequeueStep sel st s = .next (s', p)) (hr : (s.ring sel).Inv s.cfg) (hv : (s.ring sel).valid = true)
    (hl : DeqStep.Inv (s.ring sel) st) :
    ∃ r', s' = s.setRing sel r' ∧ r'.Inv s.cfg ∧ r'.valid = true ∧ r'.cap = (s.ring sel).cap ∧ r'.wr = (s.ring sel).wr ∧
      r'.buf = (s.ring sel).buf ∧
      (∀ st', p = .more st' → DeqStep.Inv r' st') ∧
      ((∀ w b, st ≠ .q5 w b) → r' = (s.ring sel)) ∧
      (∀ w b, st = .q5 w b → (s.ring sel).contents = some b :: r'.contents ∧ p = .more (.q6 b) ∧ r'.count + 1 = (s.ring sel).count) := by
  obtain ⟨hmem, hcap, hidx, hwrit, hcnt⟩ := hr
  have hcap' := hcap hv
  obtain ⟨hrd, hwr⟩ := hidx hv
  have self : s = s.setRing sel (s.ring sel) := by cases sel <;> rfl
  rcases dequeueStep_cases h with ⟨rfl, _, rfl, rfl⟩ | ⟨w, rfl, rfl, rfl⟩ | ⟨w, ds, rfl, hf, rfl, rfl⟩ |
    ⟨w, ds, rfl, hf, rfl, rfl⟩ | ⟨w, b, rfl, _, hwc, hb, rfl, rfl⟩ | ⟨w, b, rfl, rfl, rfl⟩ | ⟨b, rfl, rfl, rfl⟩
  · exact ⟨_, self, ⟨hmem, hcap, hidx, hwrit, hcnt⟩, hv, rfl, rfl, rfl, by rintro _ ⟨⟩; exact ⟨hv, rfl⟩,
      fun _ => rfl, by simp⟩
  · exact ⟨_, self, ⟨hmem, hcap, hidx, hwrit, hcnt⟩, hv, rfl, rfl, rfl, by
      rintro _ ⟨⟩; exact ⟨hv, hl.2, hwr, by rw [hl.2]; exact Nat.le_refl _⟩,
      fun _ => rfl, by simp⟩
  · exact ⟨_, self, ⟨hmem, hcap, hidx, hwrit, hcnt⟩, hv, rfl, rfl, rfl, by simp, fun _ => rfl, by simp⟩
  · obtain ⟨_, rfl, hws, hst⟩ := hl
    refine ⟨_, self, ⟨hmem, hcap, hidx, hwrit, hcnt⟩, hv, rfl, rfl, rfl, ?_, fun _ => rfl, by simp⟩
    rintro _ ⟨⟩
    refine ⟨hv, rfl, ?_⟩
    rw [← Bool.not_eq_true, Ring.empty_iff hrd hwr]
    have := (subMod_eq_zero_iff hws hrd).not.2 hf
    omega
  · exact ⟨_, self, ⟨hmem, hcap, hidx, hwrit, hcnt⟩, hv, rfl, rfl, rfl, by
      rintro _ ⟨⟩; exact ⟨hv, hl.2.1, hl.2.2, hb⟩, fun _ => rfl, by simp⟩
  · obtain ⟨_, rfl, he, hb⟩ := hl
    have hcon := Ring.contents_advance hrd hwr he
    rw [hb] at hcon
    refine ⟨_, rfl, ⟨hmem, hcap, fun _ => ⟨incMod_lt hrd, hwr⟩, fun _ => ?_, hcnt⟩, hv, rfl, rfl, rfl, ?_, by simp, ?_⟩
    · intro v hv'; exact hwrit hv v (by rw [hcon]; exact List.mem_cons_of_mem _ hv')
    · rintro _ ⟨⟩; exact hv
    · rintro w ds e; cases e
      refine ⟨hcon, rfl, ?_⟩
      have := congrArg List.length hcon
      simp only [Ring.contents_length, List.length_cons] at this
      exact this.symm
  · exact ⟨_, self, ⟨hmem, hcap, hidx, hwrit, hcnt⟩, hv, rfl, rfl, rfl, by simp, fun _ => rfl, by simp⟩

/-- The locals of an enqueue stay good when the consumer takes bytes away under it (R52). -/
theorem EnqStep.Inv_of_consumed {r r' : Ring} {b : Byte} {st : EnqStep} (h : EnqStep.Inv r b st) (hv : r'.valid = r.valid) (hw : r'.wr = r.wr)
    (hb : r'.buf = r.buf) (hc : r'.cap = r.cap) (hn : r'.count ≤ r.count) : EnqStep.Inv r' b st := by
  cases st with
  | e1 => trivial
  | e2 w => simp_all [EnqStep.Inv]
  | e3 w ds => obtain ⟨h1, rfl, h3, h4⟩ := h; exact ⟨hv.trans h1, hw.symm, hc ▸ h3, by rw [hc]; omega⟩
  | e4 w ds => obtain ⟨h1, rfl, h3, h4, h5⟩ := h; exact ⟨hv.trans h1, hw.symm, hc ▸ h3, by rw [hc]; omega, hc ▸ h5⟩
  | e5 w ds =>
    obtain ⟨h1, rfl, h3, h4, h5, h6⟩ := h
    exact ⟨hv.trans h1, hw.symm, hc ▸ h3, by rw [hc]; omega, hc ▸ h5, by rw [hb]; exact h6⟩
  | e6 w ds => exact hv.trans h
  | e7 => exact hv.trans h

/-- The locals of a dequeue stay good when the producer adds bytes under it (R52). -/
theorem DeqStep.Inv_of_produced {r r' : Ring} {st : DeqStep} (h : DeqStep.Inv r st) (hv : r'.valid = r.valid) (hw : r'.rd = r.rd)
    (hb : r.empty = false → memGet r'.buf r.rd = memGet r.buf r.rd) (hc : r'.cap = r.cap) (hn : r.count ≤ r'.count)
    (he : r.empty = false → r'.empty = false) : DeqStep.Inv r' st := by
  cases st with
  | q1 => trivial
  | q2 d => simp_all [DeqStep.Inv]
  | q3 d ws => obtain ⟨h1, rfl, h3, h4⟩ := h; exact ⟨hv.trans h1, hw.symm, hc ▸ h3, by rw [hc]; omega⟩
  | q4 d => simp_all [DeqStep.Inv]
  | q5 d b => obtain ⟨h1, h2, h3, h4⟩ := h; subst h2; exact ⟨hv.trans h1, hw.symm, he h3, by rw [hb h3]; exact h4⟩
  | q6 b => simp_all [DeqStep.Inv]

end Sys2Proof.Machine
end

