-- ==== Sys2Proof/Laws/PerInstr.lean ====
section
/-! SUPPORT. Statements made once per instruction. -/

namespace Sys2Proof.Laws

/-- The group of an instruction's word fixes who issues it: groups 1 and 2 are MAIN's, the others never are (R61,
R62). -/
def GroupFixesIssuer.Statement (i : Instr) : Prop :=
  Sys2Proof.Machine.issuedByMain i = decide ((encodeFields i).grp.toNat ≤ 2)

theorem GroupFixesIssuer.rbInit (sel : RingSel) (cap : Word) : GroupFixesIssuer.Statement (.rbInit sel cap) := rfl
theorem GroupFixesIssuer.rbIsFull (sel : RingSel) : GroupFixesIssuer.Statement (.rbIsFull sel) := rfl
theorem GroupFixesIssuer.rbIsEmpty (sel : RingSel) : GroupFixesIssuer.Statement (.rbIsEmpty sel) := rfl
theorem GroupFixesIssuer.rbEnqueue (sel : RingSel) (b : Byte) : GroupFixesIssuer.Statement (.rbEnqueue sel b) := rfl
theorem GroupFixesIssuer.rbDequeue (sel : RingSel) : GroupFixesIssuer.Statement (.rbDequeue sel) := rfl
theorem GroupFixesIssuer.rbFreeSlots (sel : RingSel) : GroupFixesIssuer.Statement (.rbFreeSlots sel) := rfl
theorem GroupFixesIssuer.rbResetStats (sel : RingSel) : GroupFixesIssuer.Statement (.rbResetStats sel) := rfl
theorem GroupFixesIssuer.rbMinFree (sel : RingSel) : GroupFixesIssuer.Statement (.rbMinFree sel) := rfl
theorem GroupFixesIssuer.tpInit (baud : Word) : GroupFixesIssuer.Statement (.tpInit baud) := rfl
theorem GroupFixesIssuer.tpWrite (b : Byte) : GroupFixesIssuer.Statement (.tpWrite b) := rfl
theorem GroupFixesIssuer.tpRead : GroupFixesIssuer.Statement .tpRead := rfl
theorem GroupFixesIssuer.irqMask : GroupFixesIssuer.Statement .irqMask := rfl
theorem GroupFixesIssuer.irqUnmask : GroupFixesIssuer.Statement .irqUnmask := rfl
theorem GroupFixesIssuer.isr : GroupFixesIssuer.Statement .isr := rfl
theorem GroupFixesIssuer.devRxArrive (b : Byte) : GroupFixesIssuer.Statement (.devRxArrive b) := rfl
theorem GroupFixesIssuer.devTxShift : GroupFixesIssuer.Statement .devTxShift := rfl

end Sys2Proof.Laws
end

