-- ==== Sys2Proof/Machine/Firmware.lean ====
section
/-! DEFINITION. Context above the block: the firmware on its block (spec/49_surrounding_software.md R200, R202, R225,
R237; spec/70_reset_and_hazards.md R172). Its calls become operations of MAIN, which the machine's own step runs: a
reply is a row of `TP.WRITE` words, and where the ring is full MAIN spins in one of them while the others wait (R104,
R225). No step of the machine depends on it. -/

namespace Sys2Proof.Machine

/-- MAIN issues operations: their words come after those still to run (R62, R67). -/
def State.issue (s : State) (is : List Instr) : State := { s with trace := s.trace ++ is.flatMap encode }

/-- What `TP.READ` returned, from its result word (R64, R105). -/
def readResult (res : Word) : Option Byte :=
  if res.extractLsb' 8 1 = 1#1 then some (res.extractLsb' 0 8) else none

/-- The block and the software above it. `polled`: MAIN has issued the iteration's `TP.READ` and has not yet taken in
what it returns. -/
structure Firmware where
  block : State
  software : Software
  polled : Bool
  deriving DecidableEq, Repr

/-- The firmware starts, on a block after reset: initialization is issued, and no other word waits (R172, R237). -/
def Firmware.boot (block : State) (d : DeviceState) (baud : Word) : Firmware where
  block := { block with trace := [] }.issue [(Software.initialize d baud).2]
  software := (Software.initialize d baud).1
  polled := false

/-- The firmware at its start on a block with the parameters `c`. -/
def Firmware.start (c : Config) (d : DeviceState) (baud : Word) : Firmware := Firmware.boot (State.resetWith c) d baud

/-- MAIN's operation has returned and no word of it waits: calls are synchronous (R237). -/
def Firmware.between (f : Firmware) : Bool := f.block.mainOp.isNone && f.block.trace.isEmpty

/-- A call of the firmware, between its operations. DESIGN CHOICE (log entry 38): how the device state is kept consistent
between the main loop and a tick is not described (R227, N9, N14), and a call is one indivisible change here, inside
which no tick falls. -/
def Firmware.perform (f : Firmware) (k : Software → Software × List Instr) : Option Firmware :=
  if f.between && !f.polled then some ⟨f.block.issue (k f.software).2, (k f.software).1, false⟩ else none

/-- Screen selection, whose announcement is issued (R225, R228); no outcome where it has none (S5). -/
def Firmware.select (n : Fin 10) (f : Firmware) : Option Firmware :=
  (selectScreen n f.software).bind fun r => f.perform fun _ => r

/-- The first half of an iteration of the main loop: `TP.READ` is issued, once (R172, R200); not by a halted firmware
(R157). -/
def Firmware.poll (f : Firmware) : Option Firmware :=
  if f.between && !f.polled && !f.software.halted then
    some { f with block := f.block.issue [.tpRead], polled := true }
  else none

/-- The second half: what `TP.READ` returned is processed, and the reply is issued (R202, R210, R225). -/
def Firmware.process (c : SoftConfig) (f : Firmware) : Option Firmware :=
  if f.polled then { f with polled := false }.perform (processInput c (readResult f.block.res)) else none

/-- The per-tick hook, which does not touch the block (R153, R231). DESIGN CHOICE (log entry 38): it falls between two
calls, at any boundary of MAIN's operations, and is one indivisible change. -/
def Firmware.tick (c : SoftConfig) (f : Firmware) : Option Firmware :=
  (tickHook c f.software).map fun sw => { f with software := sw }

/-- The block takes a step, and the software waits. The reset event, which alone ends the fatal halt (R157, R170), starts
the firmware again with its block: with a device state `d` that may be any of its domain (S1) and the rate `baud`
(DESIGN CHOICE, log entry 40). No other step uses the two. -/
def Firmware.step (d : DeviceState) (baud : Word) (f : Firmware) : Run Firmware :=
  andThen (Sys2Proof.Machine.step f.block) fun b =>
    .next (if f.block.turns.head? == some .reset then Firmware.boot b d baud else { f with block := b })

end Sys2Proof.Machine
end

