-- ==== Sys2Proof/Laws/Software.lean ====
section
/-! SUPPORT. The software above the block (spec/49_surrounding_software.md): a halted firmware makes no call (R157,
R221), a call issues nothing but `TP.WRITE` (R200, R225), every call keeps the device state in its domain (R226, R229,
S1), and all that the firmware's moves on the block can do. -/

namespace Sys2Proof.Machine

@[simp] theorem call_halted {sw : Software} (h : sw.halted = true) (k : Software → Software × List Byte) :
    sw.call k = (sw, []) := by simp [Software.call, h]

@[simp] theorem call_running {sw : Software} (h : sw.halted = false) (k : Software → Software × List Byte) :
    sw.call k = ((k sw).1, sends (k sw).2) := by simp [Software.call, h]

/-- All that a call issues is `TP.WRITE` (R200, R225). -/
theorem call_issues_writes {sw : Software} {k : Software → Software × List Byte} {i : Instr} (h : i ∈ (sw.call k).2) :
    ∃ b, i = .tpWrite b := by
  unfold Software.call sends at h
  split at h
  · cases h
  · obtain ⟨b, -, rfl⟩ := List.mem_map.1 h
    exact ⟨b, rfl⟩

@[simp] theorem get_halted {α : Type} {sw : Software} (h : sw.halted = true) (k : Software → α) : sw.get k = none := by
  simp [Software.get, h]

@[simp] theorem get_running {α : Type} {sw : Software} (h : sw.halted = false) (k : Software → α) :
    sw.get k = some (k sw) := by simp [Software.get, h]

/-- After the fatal line the firmware sends nothing and changes nothing of its own. -/
theorem halted_is_stuck {sw : Software} (h : sw.halted = true) (c : SoftConfig) (read : Option Byte) (led : BitVec 8)
    (n : Fin 10) (channel : Nat) :
    processInput c read sw = (sw, []) ∧ setLed led sw = (sw, []) ∧ selectScreen n sw = some (sw, []) ∧
      readAdc c channel sw = none := by
  simp [processInput, setLed, selectScreen, readAdc, h]

theorem inDomain_iff {c : SoftConfig} {d : DeviceState} :
    d.inDomain c = true ↔ d.adc.length = c.adcChannels ∧ d.time.inDomain c = true := by simp [DeviceState.inDomain]

/-- A time the setter accepts lies in the domain of a stored time. -/
theorem timeInRange_inDomain {c : SoftConfig} {t : TimeOfDay} (h : timeInRange c t = true) : t.inDomain c = true := by
  unfold timeInRange at h
  unfold TimeOfDay.inDomain
  cases hv : c.timeValidation <;>
    simp only [hv, dayBound, Bool.and_eq_true, decide_eq_true_eq] at h ⊢ <;> omega

theorem daysInMonth_bounds {year month : Nat} (h1 : 1 ≤ month) (h2 : month ≤ 12) :
    28 ≤ daysInMonth year month ∧ daysInMonth year month ≤ 31 := by
  unfold daysInMonth
  repeat' split
  all_goals omega

/-- The clock stays in the domain of a stored time (R229, R230). -/
theorem advanceOneSecond_inDomain {c : SoftConfig} {t u : TimeOfDay} (ht : t.inDomain c = true)
    (h : advanceOneSecond t = some u) : u.inDomain c = true := by
  unfold TimeOfDay.inDomain at ht ⊢
  simp only [Bool.and_eq_true, decide_eq_true_eq] at ht
  have hd := daysInMonth_bounds (year := t.year) ht.1.2.2.1 ht.1.2.2.2.1
  have hm := fun (hlt : t.month + 1 ≤ 12) => daysInMonth_bounds (year := t.year) (Nat.le_add_left 1 t.month) hlt
  have hy := daysInMonth_bounds (year := t.year + 1) (month := 1) (by decide) (by decide)
  simp only [advanceOneSecond, advanceMinute, advanceHour, advanceDay, advanceMonth, advanceYear] at h
  cases hv : c.timeValidation <;> simp only [hv, decide_eq_true_eq] at ht <;> (repeat' split at h) <;> cases h <;>
    simp only [Bool.and_eq_true, decide_eq_true_eq] <;> omega

/-- A setter that succeeds leaves the device state in its domain. -/
theorem dispatchSet_inDomain {c : SoftConfig} {rest reply : List Byte} {d d' : DeviceState} (hd : d.inDomain c = true)
    (h : dispatchSet c rest d = .done d' reply) : d'.inDomain c = true := by
  obtain ⟨ha, ht⟩ := inDomain_iff.1 hd
  rw [inDomain_iff]
  unfold dispatchSet setScreenZero setUnnamed withPayload at h
  repeat' split at h
  all_goals first
    | cases h
      first
        | exact ⟨ha, ht⟩
        | exact ⟨(List.length_set ..).trans ha, ht⟩
        | exact ⟨ha, timeInRange_inDomain ‹_›⟩
    | cases h

theorem dispatchGet_device {rest reply : List Byte} {d d' : DeviceState} (h : dispatchGet rest d = .done d' reply) :
    d' = d := by
  unfold dispatchGet withPayload at h
  repeat' split at h
  all_goals cases h
  all_goals rfl

/-- Every line leaves the device state in its domain. -/
theorem dispatch_inDomain {c : SoftConfig} {sw : Software} (line : List Byte) (h : sw.device.inDomain c = true) :
    (dispatch c line sw).1.device.inDomain c = true := by
  unfold dispatch
  split
  · exact h
  · next tag rest =>
    split
    · cases hv : dispatchSet c rest sw.device with
      | done d reply => exact dispatchSet_inDomain h hv
      | error code => exact h
      | dropped => exact h
    · split
      · cases hv : dispatchGet rest sw.device with
        | done d reply => exact dispatchGet_device hv ▸ h
        | error code => exact h
        | dropped => exact h
      · split <;> exact h

/-- "Process pending input" leaves the device state in its domain. -/
theorem processInput_inDomain {c : SoftConfig} {sw : Software} (read : Option Byte) (h : sw.device.inDomain c = true) :
    (processInput c read sw).1.device.inDomain c = true := by
  cases hh : sw.halted with
  | true => simpa [processInput, hh] using h
  | false =>
    simp only [processInput, call_running hh]
    split
    · exact h
    · split
      · exact h
      · exact dispatch_inDomain _ h

/-- The tick leaves the device state in its domain, where the clock has a value. -/
theorem tickHook_inDomain {c : SoftConfig} {sw sw' : Software} (h : sw.device.inDomain c = true)
    (ht : tickHook c sw = some sw') : sw'.device.inDomain c = true := by
  obtain ⟨ha, hd⟩ := inDomain_iff.1 h
  unfold tickHook at ht
  split at ht
  · obtain ⟨u, hu, rfl⟩ := Option.map_eq_some_iff.1 ht
    exact inDomain_iff.2 ⟨ha, advanceOneSecond_inDomain hd hu⟩
  · cases ht; exact h

/-! The firmware on its block. -/

/-- The word of a result says what the read returned (R64). -/
@[simp] theorem readResult_optionResult (v : Option Byte) : readResult (optionResult v) = v := by
  cases v with
  | none => rfl
  | some b => revert b; decide

/-- Issuing operations touches nothing but the words still to run. -/
@[simp] theorem issue_trace (s : State) (is : List Instr) : (s.issue is).trace = s.trace ++ is.flatMap encode := rfl
@[simp] theorem issue_mainOp (s : State) (is : List Instr) : (s.issue is).mainOp = s.mainOp := rfl
@[simp] theorem issue_isrOp (s : State) (is : List Instr) : (s.issue is).isrOp = s.isrOp := rfl
@[simp] theorem issue_rx (s : State) (is : List Instr) : (s.issue is).rx = s.rx := rfl
@[simp] theorem issue_tx (s : State) (is : List Instr) : (s.issue is).tx = s.tx := rfl
@[simp] theorem issue_turns (s : State) (is : List Instr) : (s.issue is).turns = s.turns := rfl
@[simp] theorem issue_nil (s : State) : s.issue [] = s := by simp [State.issue]

/-- Everything a call of the firmware can do: between operations, it changes the software and issues its operations. -/
theorem Firmware.perform_eq_some {f g : Firmware} {k : Software → Software × List Instr} :
    f.perform k = some g ↔
      (f.block.mainOp = none ∧ f.block.trace = [] ∧ f.polled = false) ∧
        g = ⟨f.block.issue (k f.software).2, (k f.software).1, false⟩ := by
  unfold Firmware.perform Firmware.between
  constructor
  · intro h
    split at h
    · next hb => cases h; simp_all
    · cases h
  · rintro ⟨⟨h1, h2, h3⟩, rfl⟩
    simp [h1, h2, h3]

/-! "Only reset ends it" (R157). -/

theorem perform_halted {f g : Firmware} {k : Software → Software × List Instr} (h : f.perform k = some g)
    (hk : (k f.software).1.halted = true) : g.software.halted = true := by
  obtain ⟨-, rfl⟩ := Firmware.perform_eq_some.1 h
  exact hk

/-- A halted firmware polls no more, and none of its moves but the reset event wakes it. -/
theorem Firmware.halt_lasts {c : SoftConfig} {d : DeviceState} {baud : Word} {f g : Firmware}
    (hf : f.software.halted = true) :
    f.poll = none ∧
      (∀ n, f.select n = some g → g.software.halted = true) ∧
      (f.process c = some g → g.software.halted = true) ∧
      (f.tick c = some g → g.software.halted = true) ∧
      (f.block.turns.head? ≠ some .reset → f.step d baud = .next g → g.software.halted = true) := by
  refine ⟨by simp [Firmware.poll, hf], fun n h => ?_, fun h => ?_, fun h => ?_, fun hr h => ?_⟩
  · obtain ⟨r, hs, h⟩ := Option.bind_eq_some_iff.1 h
    have hs' := (halted_is_stuck hf c none 0#8 n 0).2.2.1
    rw [hs'] at hs
    cases hs
    exact perform_halted h hf
  · unfold Firmware.process at h
    split at h
    · refine perform_halted h ?_
      rw [(halted_is_stuck hf c _ 0#8 0 0).1]
      exact hf
    · cases h
  · obtain ⟨sw, hs, rfl⟩ := Option.map_eq_some_iff.1 h
    unfold tickHook at hs
    split at hs
    · obtain ⟨t, -, rfl⟩ := Option.map_eq_some_iff.1 hs
      exact hf
    · cases hs; exact hf
  · obtain ⟨b, -, e⟩ := andThen_eq_next.1 h
    cases e
    simpa [hr] using hf

/-- The reset event ends the halt: the firmware starts again on the reset block. -/
theorem Firmware.step_reset {d : DeviceState} {baud : Word} {f : Firmware} {rest : List Turn}
    (h : f.block.turns = .reset :: rest) :
    f.step d baud = .next (Firmware.boot (resetEvent rest f.block) d baud) := by
  simp [Firmware.step, Sys2Proof.Machine.step, takeTurn, h]

@[simp] theorem boot_software (b : State) (d : DeviceState) (baud : Word) :
    (Firmware.boot b d baud).software = (Software.initialize d baud).1 := rfl
@[simp] theorem boot_running (b : State) (d : DeviceState) (baud : Word) :
    (Firmware.boot b d baud).software.halted = false := rfl
@[simp] theorem boot_trace (b : State) (d : DeviceState) (baud : Word) :
    (Firmware.boot b d baud).block.trace = encode (.tpInit baud) := by simp [Firmware.boot, Software.initialize]

end Sys2Proof.Machine
end

