-- ==== Sys2Proof/Tests/Slice0.lean ====
section
/-! SUPPORT. Tests: the vectors of spec/95_test_vectors.md (their names in the docstrings), the refusals of the
well-formedness check, and for every statement with hypotheses a concrete state that meets them together. -/

namespace Sys2Proof.Tests

open Sys2Proof Sys2Proof.Machine

/-! Helpers. -/

/-- The outcome is a next state with the property `p`. -/
def nextIs (o : Run State) (p : State → Bool) : Bool :=
  match o with
  | .next t => p t
  | .fault _ => false
  | .refused _ => false

/-- The outcome is the refusal `r`. -/
def refusedAs (o : Run State) (r : Refusal) : Bool :=
  match o with
  | .next _ => false
  | .fault _ => false
  | .refused r' => r' == r

/-- The outcome is the fault `f`. -/
def faultedAs (o : Run State) (f : Fault) : Bool :=
  match o with
  | .next _ => false
  | .fault f' => f' == f
  | .refused _ => false

/-- The word decodes to `i`. -/
def readsAs (hasStats : Bool) (w : Command) (i : Instr) : Bool :=
  match decodeCommand hasStats w with
  | .ok j => j == i
  | .error _ => false

/-- The word is reserved for the reason `why`. -/
def reservedAs (hasStats : Bool) (w : Command) (why : Reserved) : Bool :=
  match decodeCommand hasStats w with
  | .ok _ => false
  | .error e => e == why

/-- A valid ring of capacity 4. -/
def ring4 (rd wr minFree : Nat) (buf : Memory) : Ring := ⟨true, 4, buf, rd, wr, minFree⟩

/-- A block not yet initialised, with `r` as its TX ring (section 2.2 of the vectors). -/
def alone (r : Ring) : State := { State.reset with tx := r }

/-- The UART as `TP.INIT 9600` leaves it. -/
def uart9600 : Uart := { Uart.reset with en := true, rxie := true, brr := Config.baudDivisor 9600 }

/-- The block after `TP.INIT 9600` (TP-1). -/
def up : State :=
  { State.reset with initialized := true, uart := uart9600, rx := ring4 0 0 3 [], tx := ring4 0 0 3 [] }

/-! The well-formedness check: the three statistics operations are ill-formed without `HAS_STATS`. -/

theorem test_wellFormed_refuses_freeSlots : (Instr.rbFreeSlots .tx).wellFormed false = false := by decide
theorem test_wellFormed_refuses_resetStats : (Instr.rbResetStats .rx).wellFormed false = false := by decide
theorem test_wellFormed_refuses_minFree : (Instr.rbMinFree .tx).wellFormed false = false := by decide
theorem test_wellFormed_takes_isr : Instr.isr.wellFormed false = true := by decide

/-! Decoding: EN-1 to EN-19, words written out from R65. -/

theorem test_decode_rbInit : readsAs true 0x100000000004#48 (.rbInit .rx 4#32) = true := by decide
theorem test_decode_rbInit_tx : readsAs true 0x100100000010#48 (.rbInit .tx 16#32) = true := by decide
theorem test_decode_rbIsFull : readsAs true 0x110100000000#48 (.rbIsFull .tx) = true := by decide
theorem test_decode_rbIsEmpty : readsAs true 0x120000000000#48 (.rbIsEmpty .rx) = true := by decide
theorem test_decode_rbEnqueue : readsAs true 0x130100000041#48 (.rbEnqueue .tx 0x41#8) = true := by decide
theorem test_decode_rbEnqueue_ff : readsAs true 0x1300000000FF#48 (.rbEnqueue .rx 0xFF#8) = true := by decide
theorem test_decode_rbDequeue : readsAs true 0x140000000000#48 (.rbDequeue .rx) = true := by decide
theorem test_decode_rbFreeSlots : readsAs true 0x150100000000#48 (.rbFreeSlots .tx) = true := by decide
theorem test_decode_rbResetStats : readsAs true 0x160100000000#48 (.rbResetStats .tx) = true := by decide
theorem test_decode_rbMinFree : readsAs true 0x170000000000#48 (.rbMinFree .rx) = true := by decide
theorem test_decode_tpInit : readsAs true 0x200000002580#48 (.tpInit 9600#32) = true := by decide
theorem test_decode_tpInit_115200 : readsAs true 0x20000001C200#48 (.tpInit 115200#32) = true := by decide
theorem test_decode_tpWrite : readsAs true 0x210000000064#48 (.tpWrite 0x64#8) = true := by decide
theorem test_decode_tpRead : readsAs true 0x220000000000#48 .tpRead = true := by decide
theorem test_decode_irqMask : readsAs true 0x280000000000#48 .irqMask = true := by decide
theorem test_decode_irqUnmask : readsAs true 0x290000000000#48 .irqUnmask = true := by decide
theorem test_decode_isr : readsAs true 0x300000000000#48 .isr = true := by decide
theorem test_decode_devRxArrive : readsAs true 0x40000000003F#48 (.devRxArrive 0x3F#8) = true := by decide
theorem test_decode_devTxShift : readsAs true 0x410000000000#48 .devTxShift = true := by decide

/-- EN-20 to EN-22: reserved groups, the all-zero word among them. -/
theorem test_reserved_groups :
    reservedAs true 0x000000000000#48 .group && reservedAs true 0x500000000000#48 .group &&
      reservedAs true 0xF00000000000#48 .group = true := by decide

/-- EN-23 to EN-27: reserved functions of each group. -/
theorem test_reserved_functions :
    reservedAs true 0x180100000000#48 .function && reservedAs true 0x230000000000#48 .function &&
      reservedAs true 0x2A0000000000#48 .function && reservedAs true 0x310000000000#48 .function &&
      reservedAs true 0x420000000000#48 .function = true := by decide

/-- EN-28, EN-31: reserved selectors. -/
theorem test_reserved_selectors :
    reservedAs true 0x130200000041#48 .selector && reservedAs true 0x210100000041#48 .selector = true := by decide

/-- EN-29, EN-30, EN-32 to EN-34: operand bits the format does not use. -/
theorem test_reserved_operands :
    reservedAs true 0x130100000141#48 .operand && reservedAs true 0x110100000001#48 .operand &&
      reservedAs true 0x220000000001#48 .operand && reservedAs true 0x300000000001#48 .operand &&
      reservedAs true 0x410000000100#48 .operand = true := by decide

/-- EN-35, EN-8: an optional operation with and without `HAS_STATS`. -/
theorem test_reserved_statsAbsent :
    reservedAs false 0x150100000000#48 .statsAbsent && readsAs true 0x150100000000#48 (.rbFreeSlots .tx) = true := by
  decide

/-- The first three words of P2's byte stream (R67): the first is read, the rest stays. -/
theorem test_decode_stream :
    (match decode true [0x20#8, 0x00#8, 0x00#8, 0x00#8, 0x25#8, 0x80#8, 0x21#8, 0x00#8, 0x00#8, 0x00#8, 0x00#8, 0x64#8] with
     | .ok (i, rest) => i == .tpInit 9600#32 && rest == encode (.tpWrite 0x64#8)
     | .error _ => false) = true := by decide

/-- The examples of the trace syntax (R68). -/
theorem test_text : (Instr.rbEnqueue .tx 0x41#8).text = "RB.ENQUEUE TX, 65" ∧ Instr.isr.text = "ISR" := by decide

/-- No two rows of the opcode table overlap (R65). -/
theorem test_rows_disjoint :
    (opcodeTable.Pairwise fun p q => (p.mask &&& q.mask) &&& (p.pattern ^^^ q.pattern) ≠ 0#48) := by decide

/-! The operations, one step each, from the vectors. -/

/-- RB-1a: a ring is created empty, its array untouched. -/
theorem test_rbInit :
    nextIs (exec (.rbInit .tx 4#32) State.reset) (fun t => t.tx == ring4 0 0 3 [] && t.res == 0#32) = true := by decide

/-- RB-1b: capacity 1 is refused. -/
theorem test_rbInit_capacity : refusedAs (exec (.rbInit .tx 1#32) State.reset) .badCapacity = true := by decide

/-- RB-1l: `(3 + 1) mod 4 = 0`. -/
theorem test_rbIsFull_wraps :
    nextIs (exec (.rbIsFull .tx) (alone (ring4 0 3 0 []))) (fun t => t.res == 1#32) = true := by decide

/-- RB-1e. -/
theorem test_rbIsFull_not :
    nextIs (exec (.rbIsFull .tx) (alone (ring4 0 0 3 []))) (fun t => t.res == 0#32) = true := by decide

/-- RB-1m: equal after wrapping. -/
theorem test_rbIsEmpty :
    nextIs (exec (.rbIsEmpty .tx) (alone (ring4 3 3 0 []))) (fun t => t.res == 1#32) = true := by decide

/-- RB-1c: a ring that does not exist. -/
theorem test_rbIsEmpty_invalid : refusedAs (exec (.rbIsEmpty .tx) State.reset) (.ringNotValid .tx) = true := by decide

/-- RB-1n: the write index wraps to 0. -/
theorem test_rbEnqueue_wraps :
    nextIs (exec (.rbEnqueue .tx 0x65#8) (alone (ring4 2 3 0 [])))
      (fun t => t.tx == ring4 2 0 0 [(3, 0x65#8)] && t.res == 1#32) = true := by decide

/-- RB-1j: a full ring stores nothing. -/
theorem test_rbEnqueue_full :
    nextIs (exec (.rbEnqueue .tx 0x42#8) (alone (ring4 0 3 0 [])))
      (fun t => t.tx == ring4 0 3 0 [] && t.res == 0#32) = true := by decide

/-- RB-1o: the read index wraps to 0. -/
theorem test_rbDequeue_wraps :
    nextIs (exec (.rbDequeue .tx) (alone (ring4 3 1 0 [(3, 0x0A#8)])))
      (fun t => t.tx == ring4 0 1 0 [(3, 0x0A#8)] && t.res == 0x10A#32) = true := by decide

/-- RB-1h: `some 0` is not `none`. -/
theorem test_rbDequeue_zero :
    nextIs (exec (.rbDequeue .tx) (alone (ring4 0 1 2 [(0, 0x00#8)]))) (fun t => t.res == 0x100#32) = true := by decide

/-- RB-1p: two bytes stored across the wrap. -/
theorem test_rbFreeSlots :
    nextIs (exec (.rbFreeSlots .tx) (alone (ring4 3 1 0 []))) (fun t => t.res == 1#32) = true := by decide

/-- RB-1s. -/
theorem test_rbResetStats :
    nextIs (exec (.rbResetStats .tx) (alone (ring4 1 2 0 []))) (fun t => t.tx == ring4 1 2 2 []) = true := by decide

/-- RB-2: the receive ring's counter is the handler's. -/
theorem test_rbResetStats_role : refusedAs (exec (.rbResetStats .rx) up) (.notProducer .rx) = true := by decide

/-- RB-1u. -/
theorem test_rbMinFree :
    nextIs (exec (.rbMinFree .tx) (alone (ring4 1 2 2 []))) (fun t => t.res == 2#32) = true := by decide

/-- TP-1, but for the divisor, whose value is no number. -/
theorem test_tpInit :
    nextIs (exec (.tpInit 9600#32) State.reset)
      (fun t => t.initialized && t.rx == ring4 0 0 3 [] && t.tx == ring4 0 0 3 [] && t.uart.en && t.uart.rxie &&
        !t.txArmed && !t.irqPending && t.res == 1#32) = true := by decide

/-- TP-2: below `BAUD_MIN`. -/
theorem test_tpInit_range :
    nextIs (exec (.tpInit 300#32) State.reset) (fun t => t == State.reset) = true := by decide

/-- TP-9: the byte is stored and the transmit interrupt armed. -/
theorem test_tpWrite :
    nextIs (exec (.tpWrite 0x64#8) up)
      (fun t => t.tx == ring4 0 1 2 [(0, 0x64#8)] && t.txArmed && t.irqPending && t.mainOp.isNone) = true := by decide

/-- TP-17: on a full ring MAIN is back at `W1`. -/
theorem test_tpWrite_spins :
    nextIs (exec (.tpWrite 0x41#8) { up with tx := ring4 0 3 0 [], irqMasked := true })
      (fun t => t.mainOp == some (.tpWrite 0x41#8 (.w1 .e1)) && t.tx == ring4 0 3 0 []) = true := by decide

/-- TP-12. -/
theorem test_tpRead :
    nextIs (exec .tpRead { up with rx := ring4 0 2 1 [(0, 0x3F#8), (1, 0x53#8)] })
      (fun t => t.res == 0x13F#32 && t.rx.rd == 1) = true := by decide

/-- TP-11. -/
theorem test_tpRead_empty : nextIs (exec .tpRead up) (fun t => t.res == 0#32 && t.rx == up.rx) = true := by decide

/-- TP-13. -/
theorem test_irqMask : nextIs (exec .irqMask up) (fun t => t.irqMasked) = true := by decide

/-- TP-15. -/
theorem test_irqUnmask :
    nextIs (exec .irqUnmask { up with irqMasked := true }) (fun t => !t.irqMasked) = true := by decide

/-- IS-10: one run serves all three conditions. -/
theorem test_isr :
    nextIs (exec .isr { up with
        tx := ring4 0 1 2 [(0, 0x64#8)], txArmed := true,
        uart := { uart9600 with rxHw := [0x41#8], overrun := true } })
      (fun t => t.rx == ring4 0 1 2 [(0, 0x41#8)] && !t.uart.overrun && t.uart.tdr == some 0x64#8 && t.tx.empty &&
        t.txArmed && t.uart.rxHw == [] && t.isrOp.isNone) = true := by decide

/-- IS-2: transmit-empty holds but is not armed. -/
theorem test_isr_notEnabled : refusedAs (exec .isr up) .handlerNotEnabled = true := by decide

/-- DV-2: an overrun keeps the held byte and loses the arriving one. -/
theorem test_devRxArrive_overrun :
    nextIs (exec (.devRxArrive 0x53#8) { up with uart := { uart9600 with rxHw := [0x3F#8] } })
      (fun t => t.uart.rxHw == [0x3F#8] && t.uart.overrun && t.wireInLost == 1) = true := by decide

/-- DV-1. -/
theorem test_devRxArrive :
    nextIs (exec (.devRxArrive 0x3F#8) up) (fun t => t.uart.rxHw == [0x3F#8] && t.irqPending) = true := by decide

/-- DV-6. -/
theorem test_devTxShift :
    nextIs (exec .devTxShift { up with uart := { uart9600 with tdr := some 0x64#8 } })
      (fun t => t.wireOut == [0x64#8] && t.uart.tdr == none) = true := by decide

/-- DV-7. -/
theorem test_devTxShift_empty : refusedAs (exec .devTxShift up) .transmitRegisterEmpty = true := by decide

/-- IV-1: `TP.READ` decides from a snapshot taken before the byte arrived. -/
theorem test_stale_snapshot :
    nextIs (advance { up with rx := ring4 0 1 2 [(0, 0x41#8)], mainOp := some (.tpRead (.d1 (.q3 0 0))) })
      (fun t => t.mainOp == some (.tpRead (.d2 none))) = true := by decide

/-- P5 step 1 at the step itself: a placed word is run by the next step. -/
theorem test_placed_word :
    refusedAs (step (State.reset.withFetchWord 48 0x210000000041)) .notInitialized = true := by decide

/-- Reset drops what was in progress (R170). -/
theorem test_reset_event :
    nextIs (step { up with turns := [.reset], isrOp := some .h4 }) (fun t => t == State.reset) = true := by decide

/-! The software above the block. -/

/-- CD-3, CD-5. -/
theorem test_encodeHex :
    encodeHex16 0x03FF#16 = [0x30#8, 0x33#8, 0x66#8, 0x66#8] ∧
      encodeHex32 1#32 = [0x30#8, 0x30#8, 0x30#8, 0x30#8, 0x30#8, 0x30#8, 0x30#8, 0x31#8] := by decide

/-- CD-8, CD-9, CD-10: uppercase fails, a letter past `f` fails, a decimal run is read. -/
theorem test_decodeHex :
    decodeHex8 [0x46#8, 0x46#8] = none ∧ decodeHex16 [0x31#8, 0x32#8, 0x67#8, 0x34#8] = none ∧
      decodeDec [0x32#8, 0x30#8, 0x32#8, 0x34#8] 4 = some 2024 := by decide

/-- The parameters of section 2.8. -/
def soft : SoftConfig := ⟨8, 1, 10, 0, 1023, .corrected⟩

/-- The software with screen 3 and switches 0. -/
def soft0 : Software := ⟨[], ⟨3, 0xA5#8, 0#8, 0#8, [0#16], ⟨2024, 6, 15, 12, 0, 0⟩⟩, 0, 0, false⟩

/-- LA-3: at the eighth character the line is discarded. -/
theorem test_assemble_overlong :
    assemble soft [0x61#8, 0x62#8, 0x63#8, 0x64#8, 0x65#8, 0x66#8, 0x67#8] 0x68#8 = ([], none) := by decide

/-- LA-1. -/
theorem test_assemble_line : assemble soft [0x3F#8, 0x53#8] newline = ([], some [0x3F#8, 0x53#8]) := by decide

/-- PD-1 (source, S5). -/
theorem test_dispatch_screen :
    (dispatch soft [0x3F#8, 0x53#8] soft0).2 = [0x64#8, 0x53#8, 0x33#8, 0x0A#8] := by decide

/-- PD-2 (source, S6). -/
theorem test_dispatch_switches :
    (dispatch soft [0x64#8, 0x30#8, 0x31#8, 0x66#8, 0x66#8] soft0).1.device.switches = 0xFF#8 := by decide

/-- PD-5. -/
theorem test_dispatch_led :
    (dispatch soft [0x3F#8, 0x30#8] soft0).2 = [0x64#8, 0x30#8, 0x30#8, 0x61#8, 0x35#8, 0x0A#8] := by decide

/-- PD-7: an undefined screen. -/
theorem test_dispatch_unknownScreen :
    (dispatch soft [0x64#8, 0x31#8, 0x66#8, 0x66#8] soft0).2 =
      [0x65#8, 0x30#8, 0x32#8, 0x64#8, 0x31#8, 0x66#8, 0x66#8, 0x0A#8] := by decide

/-- PD-9 (source, S8): month 13. -/
theorem test_dispatch_time :
    (dispatch soft [0x64#8, 0x54#8, 0x32#8, 0x30#8, 0x32#8, 0x34#8, 0x31#8, 0x33#8, 0x30#8, 0x31#8, 0x31#8, 0x32#8,
      0x33#8, 0x30#8, 0x34#8, 0x35#8] soft0).2.take 3 = [0x65#8, 0x30#8, 0x36#8] := by decide

/-- PD-11: too short is dropped. -/
theorem test_dispatch_short :
    (dispatch soft [0x64#8, 0x30#8, 0x31#8, 0x66#8] soft0) = (soft0, []) := by decide

/-- PD-15: the fatal line halts. -/
theorem test_dispatch_fatal : (dispatch soft [0x65#8, 0x30#8] soft0).1.halted = true := by decide

/-- CK-2, CK-3, CK-5, CK-6: the end of February. -/
theorem test_clock_february :
    advanceOneSecond ⟨2024, 2, 28, 23, 59, 59⟩ = some ⟨2024, 2, 29, 0, 0, 0⟩ ∧
      advanceOneSecond ⟨2023, 2, 28, 23, 59, 59⟩ = some ⟨2023, 3, 1, 0, 0, 0⟩ ∧
      advanceOneSecond ⟨2100, 2, 28, 23, 59, 59⟩ = some ⟨2100, 3, 1, 0, 0, 0⟩ ∧
      advanceOneSecond ⟨2000, 2, 28, 23, 59, 59⟩ = some ⟨2000, 2, 29, 0, 0, 0⟩ := by decide

/-- CK-7, CK-9: the full cascade, and a stored 60. -/
theorem test_clock_cascade :
    advanceOneSecond ⟨2023, 12, 31, 23, 59, 59⟩ = some ⟨2024, 1, 1, 0, 0, 0⟩ ∧
      advanceOneSecond ⟨2024, 6, 15, 12, 0, 60⟩ = some ⟨2024, 6, 15, 12, 1, 0⟩ := by decide

/-- No clock past the year 3000 (S5), and no outcome of the tick that would need it. -/
theorem test_clock_end :
    advanceOneSecond ⟨3000, 12, 31, 23, 59, 59⟩ = none ∧
      tickHook soft { soft0 with device := { soft0.device with time := ⟨3000, 12, 31, 23, 59, 59⟩ }, ticks := 9 } = none := by
  decide

/-- The software at the start: no character, not halted, within its domain, and one `TP.INIT` issued (R208, R237). -/
theorem test_initialize :
    Software.initialize soft0.device 9600#32 = (soft0, .tpInit 9600#32) ∧ soft0.device.inDomain soft = true := by decide

/-- A halted firmware sets and sends nothing (R157, R221), a running one announces the change (R228). -/
theorem test_selectScreen :
    selectScreen 4 { soft0 with halted := true } = some ({ soft0 with halted := true }, []) ∧
      (selectScreen 4 soft0).map Prod.snd =
        some [.tpWrite 0x64#8, .tpWrite 0x53#8, .tpWrite 0x34#8, .tpWrite 0x0A#8] ∧ selectScreen 3 soft0 = none := by
  decide

/-- The firmware about to take in the byte that ends `?S`, which `TP.READ` has returned. -/
def asked : Firmware :=
  { block := { up with res := 0x10A#32 }, software := { soft0 with line := [0x3F#8, 0x53#8] }, polled := true }

/-- The document's `?S`: the reply `dS3` and its end are four `TP.WRITE` words to the block (R225). -/
theorem test_firmware_reply :
    (asked.process soft).map (fun f => (f.block.trace, f.polled)) =
      some (encode (.tpWrite 0x64#8) ++ encode (.tpWrite 0x53#8) ++ encode (.tpWrite 0x33#8) ++ encode (.tpWrite 0x0A#8),
        false) := by decide

/-- On a full ring a reply spins in its first `TP.WRITE`, and the second waits (R104, R225). -/
theorem test_firmware_spins :
    nextIs (step ({ up with tx := ring4 0 3 0 [] }.issue (sends [0x64#8, 0x0A#8])))
      (fun t => t.mainOp == some (.tpWrite 0x64#8 (.w1 .e1)) && t.trace == encode (.tpWrite 0x0A#8)) = true := by decide

/-- The firmware at its start: after reset, `TP.INIT` issued (R172, R237). -/
theorem test_firmware_start :
    (Firmware.start Config.vectors soft0.device 9600#32).block.trace = encode (.tpInit 9600#32) ∧
      (Firmware.start Config.vectors soft0.device 9600#32).software = soft0 := by decide

/-- The seesaw line: `d2`, sixteen characters, and the end (R236). -/
theorem test_seesaw :
    seesawLine (Vector.replicate 16 0x30#8) = [0x64#8, 0x32#8] ++ List.replicate 16 0x30#8 ++ [0x0A#8] := by decide

/-- Only reset ends the halt (R157): a halted firmware does not poll, and starts again with its block. -/
theorem test_firmware_reset :
    let f : Firmware := ⟨{ up with turns := [.reset] }, { soft0 with halted := true }, false⟩
    f.poll = none ∧ f.step soft0.device 9600#32 = .next (Firmware.start Config.vectors soft0.device 9600#32) :=
  ⟨by decide, rfl⟩

/-! Witnesses: for every statement with hypotheses, a state and operands that meet them together. -/

/-- An outcome that is a next state has one. -/
theorem exists_next {o : Run State} (h : nextIs o (fun _ => true) = true) : ∃ t, o = .next t := by
  cases o with
  | next t => exact ⟨t, rfl⟩
  | fault f => cases h
  | refused r => cases h

/-- After `TP.INIT`, spinning in `TP.WRITE` on a full ring with the transmit register empty (IV-2). -/
def spinning : State :=
  { up with
    tx := ring4 0 3 0 [(0, 0x64#8), (1, 0x53#8), (2, 0x33#8)], txArmed := true,
    mainOp := some (.tpWrite 0x0A#8 (.w1 .e1)) }

/-- After `TP.INIT`, MAIN inside `TP.READ` and the handler about to receive a byte (IV-1). -/
def handling : State :=
  { up with
    uart := { uart9600 with rxHw := [0x41#8] }, mainOp := some (.tpRead (.d1 (.q2 0))), isrOp := some .h1Test }

/-- After `TP.INIT` and `IRQ.MASK`, a byte held by the UART (P4). -/
def masked : State := { up with uart := { uart9600 with rxHw := [0x41#8] }, irqMasked := true }

/-- After `TP.INIT`, a byte held by the UART and no handler running (IS-3). -/
def arrived : State := { up with uart := { uart9600 with rxHw := [0x3F#8] } }

/-- A ring whose fields pass the checks meets the invariant. -/
theorem ringInv_of {c : Config} {r : Ring} (hm : Memory.wf r.buf)
    (hc : (decide (2 ≤ r.cap) && decide (r.cap ≤ c.storageMax) && decide (r.rd < r.cap) && decide (r.wr < r.cap) &&
      decide (r.minFree ≤ r.cap - 1)) = true)
    (hw : r.contents.all Option.isSome = true) : r.Inv c := by
  simp only [Bool.and_eq_true, decide_eq_true_eq] at hc
  exact ⟨hm, fun _ => ⟨hc.1.1.1.1, hc.1.1.1.2⟩, fun _ => ⟨hc.1.1.2, hc.1.2⟩, fun _ => List.all_eq_true.1 hw,
    fun _ _ => hc.2⟩

theorem witness_reset_inv : State.reset.Inv :=
  ⟨by decide, ⟨by decide, by rintro ⟨⟩, by rintro ⟨⟩, by rintro ⟨⟩, by rintro ⟨⟩⟩,
    ⟨by decide, by rintro ⟨⟩, by rintro ⟨⟩, by rintro ⟨⟩, by rintro ⟨⟩⟩, by decide, by rintro ⟨⟩, by decide, by decide,
    by rintro _ ⟨⟩, by rintro _ ⟨⟩⟩

theorem witness_up_inv : up.Inv :=
  ⟨by decide, ringInv_of (by decide) (by decide) rfl, ringInv_of (by decide) (by decide) rfl, by decide,
    fun _ => ⟨rfl, rfl, 9600, ⟨by decide, by decide⟩, rfl⟩, by decide, by decide, by rintro _ ⟨⟩, by rintro _ ⟨⟩⟩

theorem witness_spinning_inv : spinning.Inv :=
  ⟨by decide, ringInv_of (by decide) (by decide) rfl, ringInv_of (by decide) (by decide) rfl, by decide,
    fun _ => ⟨rfl, rfl, 9600, ⟨by decide, by decide⟩, rfl⟩, by decide, by decide,
    by rintro _ ⟨⟩; exact ⟨rfl, trivial⟩, by rintro _ ⟨⟩⟩

theorem witness_handling_inv : handling.Inv :=
  ⟨by decide, ringInv_of (by decide) (by decide) rfl, ringInv_of (by decide) (by decide) rfl, by decide,
    fun _ => ⟨rfl, rfl, 9600, ⟨by decide, by decide⟩, rfl⟩, by decide, by decide,
    by rintro _ ⟨⟩; exact ⟨rfl, rfl, rfl⟩, by rintro _ ⟨⟩; exact ⟨rfl, rfl, trivial⟩⟩

theorem witness_masked_inv : masked.Inv :=
  ⟨by decide, ringInv_of (by decide) (by decide) rfl, ringInv_of (by decide) (by decide) rfl, by decide,
    fun _ => ⟨rfl, rfl, 9600, ⟨by decide, by decide⟩, rfl⟩, by decide, by decide, by rintro _ ⟨⟩, by rintro _ ⟨⟩⟩

theorem witness_arrived_inv : arrived.Inv :=
  ⟨by decide, ringInv_of (by decide) (by decide) rfl, ringInv_of (by decide) (by decide) rfl, by decide,
    fun _ => ⟨rfl, rfl, 9600, ⟨by decide, by decide⟩, rfl⟩, by decide, by decide, by rintro _ ⟨⟩, by rintro _ ⟨⟩⟩

/-- For DecodeOfEncodeIsTheInstruction, with and without `HAS_STATS`. -/
theorem witness_DecodeOfEncode :
    (Instr.rbInit .tx 0xFFFFFFFF#32).wellFormed false = true ∧ (Instr.rbMinFree .rx).wellFormed true = true := by decide

/-- For AcceptedWordIsAnEncoding and both clauses of OptionalOperationsNeedStats. -/
theorem witness_AcceptedWord :
    decodeCommand true 0x170000000000#48 = .ok (.rbMinFree .rx) ∧ decodeCommand true 0#48 = .error .group := by decide

/-- For StepRunsTheDecodedWord and PlacedWordRunsNext: both forms of the schedule. -/
theorem witness_StepRunsTheDecodedWord :
    (decode up.cfg.hasStats (encode .tpRead) = .ok (.tpRead, [])) ∧ mustWait .tpRead up = false ∧ up.turns = [] ∧
      ({ up with turns := [.whole] } : State).turns = .whole :: [] ∧
      Instr.tpRead.wellFormed up.cfg.hasStats = true := by decide

/-- For WordOfABusyMainWaits: MAIN spinning, and MAIN frozen by the handler. -/
theorem witness_WordOfABusyMainWaits :
    decode spinning.cfg.hasStats (encode .irqMask) = .ok (.irqMask, []) ∧ mustWait .irqMask spinning = true ∧
      mustWait .irqMask handling = true := by decide

/-- For ReservedWordIsRefused: a reserved word, and fewer bytes than a word has, to be run whole or begun. -/
theorem witness_ReservedWordIsRefused :
    up.turns = [] ∧ ({ up with turns := [.start] } : State).turns = .start :: [] ∧
    decode up.cfg.hasStats (commandBytes 0#48) = .error .group ∧ decode up.cfg.hasStats [0x22#8] = .error .truncated := by
  decide

/-- For HandlerLeavesMainFrozen, NoStepFaults and BegunOperationGoesOn: the handler at its first step, and at its
return. -/
theorem witness_HandlerLeavesMainFrozen :
    (handling.isrOp.isSome = true ∧ ∃ t, advance handling = .next t) ∧ ∃ t, advance (handling.isrAt .h4) = .next t :=
  ⟨⟨rfl, exists_next (by decide)⟩, exists_next (by decide)⟩

/-- For OnlyTpWriteWaits: an operation that goes on, and one that ends. -/
theorem witness_OnlyTpWriteWaits :
    (spinning.mainOp = some (.tpWrite 0x0A#8 (.w1 .e1)) ∧ ∃ t, mainStep spinning = .next t) ∧
      (∃ t, mainStep (up.mainAt .irqMask) = .next t) :=
  ⟨⟨rfl, exists_next (by decide)⟩, exists_next (by decide)⟩

/-- For EachContextAdvancesItsOwnIndex: MAIN's clause and the handler's. -/
theorem witness_EachContextAdvancesItsOwnIndex :
    (spinning.Inv ∧ spinning.initialized = true ∧ spinning.isrOp = none ∧ ∃ t, mainStep spinning = .next t) ∧
      (handling.Inv ∧ handling.initialized = true ∧ ∃ t, isrStep handling = .next t) :=
  ⟨⟨witness_spinning_inv, rfl, rfl, exists_next (by decide)⟩, ⟨witness_handling_inv, rfl, exists_next (by decide)⟩⟩

/-- For ResetEventAbandonsEverything. -/
theorem witness_ResetEventAbandonsEverything :
    ({ handling with turns := [.reset] } : State).turns = .reset :: [] := rfl

/-- For ResetMeetsTheInvariant. -/
theorem witness_ResetMeetsTheInvariant : Config.vectors.wf = true := by decide

/-- For EveryStepKeepsTheInvariant, IndicesStayInRange, ParametersAreConstant, OutboundOrderIsKept and
InboundOrderIsKept: MAIN moves, and the handler moves. -/
theorem witness_EveryStepKeepsTheInvariant :
    (spinning.Inv ∧ spinning.initialized = true ∧ spinning.resets = false ∧
      ∃ t, step spinning = .next t ∧ (t.ring .tx).valid = true) ∧
    (handling.Inv ∧ handling.initialized = true ∧ handling.resets = false ∧ ∃ t, step handling = .next t) :=
  ⟨⟨witness_spinning_inv, rfl, rfl, _, rfl, rfl⟩, ⟨witness_handling_inv, rfl, rfl, exists_next (by decide)⟩⟩

/-- For RingsLiveUntilReset: all three clauses, on a ring that holds bytes. -/
theorem witness_RingsLiveUntilReset :
    spinning.Inv ∧ spinning.resets = false ∧ spinning.initialized = true ∧ (spinning.ring .tx).valid = true ∧
      (memGet (spinning.ring .tx).buf 2).isSome = true ∧ ∃ t, step spinning = .next t :=
  ⟨witness_spinning_inv, rfl, rfl, rfl, rfl, exists_next (by decide)⟩

/-- For MaskedBlockStartsNoHandler: all three sources request, and each clause's premise holds; with a byte arriving on a
full UART too. -/
theorem witness_MaskedBlockStartsNoHandler :
    let s := { masked with txArmed := true, uart := { masked.uart with overrun := true } }
    s.Inv ∧ s.irqMasked = true ∧ s.resets = false ∧ s.initialized = true ∧ s.uart.tdr = none ∧
      s.uart.overrun = true ∧ s.txArmed = true ∧ s.irqPending = true ∧ (∃ t, step s = .next t) ∧
      s.cfg.rxHwDepth ≤ s.uart.rxHw.length ∧
      ({ s with trace := encode (.devRxArrive 0x53#8) } : State).nextInstr = some (.devRxArrive 0x53#8) ∧
      ∃ t, step { s with trace := encode (.devRxArrive 0x53#8) } = .next t :=
  ⟨⟨by decide, ringInv_of (by decide) (by decide) rfl, ringInv_of (by decide) (by decide) rfl, by decide,
      fun _ => ⟨rfl, rfl, 9600, ⟨by decide, by decide⟩, rfl⟩, by decide, by decide, by rintro _ ⟨⟩, by rintro _ ⟨⟩⟩,
    rfl, rfl, rfl, rfl, rfl, rfl, rfl, exists_next (by decide), by decide, by decide, exists_next (by decide)⟩

/-- For OutboundOrderIsKept: a micro-step that puts the byte on the ring, a word run whole that does, and a step that
puts none. -/
theorem witness_OutboundOrderIsKept :
    (∃ t, step { up with mainOp := some (.tpWrite 0x64#8 (.w1 (.e5 0 0))), tx := ring4 0 0 3 [(0, 0x64#8)] } = .next t ∧
      ({ up with mainOp := some (.tpWrite 0x64#8 (.w1 (.e5 0 0))), tx := ring4 0 0 3 [(0, 0x64#8)] } : State).Writes t
        0x64#8) ∧
    (∃ t, step { up with trace := encode (.tpWrite 0x64#8) } = .next t ∧
      ({ up with trace := encode (.tpWrite 0x64#8) } : State).Writes t 0x64#8) ∧
    ∃ t, step up = .next t ∧ ∀ b, ¬ up.Writes t b :=
  ⟨⟨_, rfl, .inl ⟨0, 0, rfl, rfl⟩⟩, ⟨_, rfl, .inr ⟨by decide, rfl⟩⟩,
    ⟨up, rfl, by rintro b (⟨_, _, h, -⟩ | ⟨h, -⟩) <;> exact absurd h (by simp [up, State.reset, State.resetWith, State.nextInstr, decode, takeCommand])⟩⟩

/-- For InboundOrderIsKept: a byte arrives. -/
theorem witness_InboundOrderIsKept :
    up.Inv ∧ (∃ t, step { up with trace := encode (.devRxArrive 0x3F#8) } = .next t) ∧
      ({ up with trace := encode (.devRxArrive 0x3F#8) } : State).nextInstr = some (.devRxArrive 0x3F#8) :=
  ⟨witness_up_inv, exists_next (by decide), by decide⟩

/-- For LostBytesAreCounted, HandlerRunIsTheThreeServices. -/
theorem witness_LostBytesAreCounted :
    arrived.Inv ∧ arrived.handlerEnabled = true ∧ arrived.rx.valid = true ∧ arrived.tx.valid = true ∧
      ∃ t, exec .isr arrived = .next t :=
  ⟨witness_arrived_inv, by decide, rfl, rfl, exists_next (by decide)⟩

/-- For QuiescentBlockHasSentEverything. -/
theorem witness_QuiescentBlockHasSentEverything :
    up.Inv ∧ up.quiescent = true ∧ up.initialized = true ∧ up.irqMasked = false :=
  ⟨witness_up_inv, by decide, rfl, rfl⟩

/-- For FlagsSayTheOccupancy and IndexArithmeticWrapsAtCapacity: the least capacity, full and empty. -/
theorem witness_FlagsSayTheOccupancy :
    (let r : Ring := ⟨true, 2, [], 1, 0, 0⟩; 2 ≤ r.cap ∧ r.rd < r.cap ∧ r.wr < r.cap ∧ r.full = true) ∧
      (let r : Ring := ⟨true, 2, [], 1, 1, 0⟩; 2 ≤ r.cap ∧ r.rd < r.cap ∧ r.wr < r.cap ∧ r.empty = true) := by decide

/-- For RbInitCreatesAnEmptyRing: the least and the greatest capacity. -/
theorem witness_RbInitCreatesAnEmptyRing :
    State.reset.idle = true ∧ State.reset.initialized = false ∧ 2 ≤ (2#32).toNat ∧
      (0xFFFFFFFF#32).toNat ≤ State.reset.cfg.storageMax := by decide

/-- For RbInitRefusals: an owned ring, a capacity below the range and one above it. -/
theorem witness_RbInitRefusals :
    up.initialized = true ∧ State.reset.initialized = false ∧ (1#32).toNat < 2 ∧
      ({ Config.vectors with storageMax := 8 } : Config).storageMax < (9#32).toNat := by decide

/-- For QueriesAnswerAndWriteNothing, RbMinFreeReadsTheCounter and RbResetStatsRestartsTheCounter, in each role. -/
theorem witness_QueriesAnswerAndWriteNothing :
    up.idle = true ∧ (up.ring .rx).valid = true ∧ up.cfg.hasStats = true ∧ masked.irqMasked = true ∧
      (alone (ring4 0 0 3 [])).initialized = false ∧ masked.idle = true := by decide

/-- For RbEnqueueStoresTheByte and RbEnqueueOnFullWritesNothing: the last slot, and a full ring. -/
theorem witness_RbEnqueueStoresTheByte :
    (let s := alone (ring4 2 3 0 [])
     s.idle = true ∧ s.initialized = false ∧ (s.ring .tx).valid = true ∧ (s.ring .tx).wr < (s.ring .tx).cap ∧
       (s.ring .tx).full = false) ∧
    (let s := alone (ring4 0 3 0 [])
     s.idle = true ∧ s.initialized = false ∧ (s.ring .tx).valid = true ∧ (s.ring .tx).full = true) := by decide

/-- For RbDequeueTakesTheOldestByte (both clauses) and UnwrittenSlotFaults. -/
theorem witness_RbDequeueTakesTheOldestByte :
    (let s := alone (ring4 3 1 0 [(3, 0x0A#8)])
     s.idle = true ∧ s.initialized = false ∧ (s.ring .tx).valid = true ∧ (s.ring .tx).rd < (s.ring .tx).cap ∧
       (s.ring .tx).empty = false ∧ memGet (s.ring .tx).buf (s.ring .tx).rd = some 0x0A#8) ∧
    (alone (ring4 3 3 0 [])).idle = true ∧ ((alone (ring4 3 3 0 [])).ring .tx).empty = true ∧
    (let s := alone (ring4 3 1 0 [])
     s.idle = true ∧ s.initialized = false ∧ (s.ring .tx).valid = true ∧ (s.ring .tx).rd < (s.ring .tx).cap ∧
       (s.ring .tx).empty = false ∧ memGet (s.ring .tx).buf (s.ring .tx).rd = none) := by decide

/-- For RingOperationsAreRefusedOutsideTheirRole: each clause. -/
theorem witness_RingOperationsAreRefusedOutsideTheirRole :
    up.initialized = true ∧ up.irqMasked = false ∧ up.cfg.hasStats = true ∧
      (State.resetWith { Config.vectors with hasStats := false }).cfg.hasStats = false ∧
      (State.reset.ring .rx).valid = false ∧ State.reset.cfg.hasStats = true ∧ State.reset.initialized = false := by
  decide

/-- For OnlyEnqueueStores and CounterOnlyDecreases: a store, a handler run that stores across the wrap, and an operation
that stores nothing. -/
theorem witness_OnlyEnqueueStores :
    (∃ t, exec (.rbEnqueue .tx 0x65#8) (alone (ring4 2 3 0 [])) = .next t) ∧
      (∃ t, exec .isr { arrived with rx := ring4 3 3 3 [], uart := { uart9600 with rxHw := [0x3F#8, 0x53#8] } } = .next t) ∧
      ∃ t, exec .tpRead up = .next t :=
  ⟨exists_next (by decide), exists_next (by decide), exists_next (by decide)⟩

/-- For RingIsABoundedFifo: a ring that holds one byte, across the wrap. -/
theorem witness_RingIsABoundedFifo :
    let s := alone (ring4 3 0 0 [(3, 0x0A#8)])
    s.idle = true ∧ s.initialized = false ∧ (s.ring .tx).valid = true ∧ (s.ring .tx).Inv s.cfg ∧
      (s.ring .tx).contents = [0x0A#8].map some :=
  ⟨by decide, rfl, rfl, ringInv_of (by decide) (by decide) rfl, by decide⟩

/-- For EnqueueThenDequeueReturnsTheByte: an empty ring at the last slot. -/
theorem witness_EnqueueThenDequeueReturnsTheByte :
    let s := alone (ring4 3 3 0 [])
    s.idle = true ∧ s.initialized = false ∧ (s.ring .tx).valid = true ∧ (s.ring .tx).Inv s.cfg ∧
      (s.ring .tx).empty = true :=
  ⟨by decide, rfl, rfl, ringInv_of (by decide) (by decide) rfl, by decide⟩

/-- For RingAcceptsOneLessThanItsCapacity: the least capacity, in both clauses. -/
theorem witness_RingAcceptsOneLessThanItsCapacity :
    State.reset.idle = true ∧ State.reset.initialized = false ∧ State.reset.cfg.wf = true ∧
      Memory.wf (State.reset.ring .tx).buf ∧ 2 ≤ (2#32).toNat ∧ (2#32).toNat ≤ State.reset.cfg.storageMax ∧
      ([] : List Byte).length + 1 < (2#32).toNat ∧ [0x61#8].length + 1 = (2#32).toNat := by decide

/-- For TpInitBringsTheTransportUp: the least and the greatest accepted rate. -/
theorem witness_TpInitBringsTheTransportUp :
    State.reset.idle = true ∧ State.reset.initialized = false ∧ State.reset.cfg.baudMin ≤ (1200#32).toNat ∧
      (1200#32).toNat ≤ State.reset.cfg.baudMax ∧ State.reset.cfg.baudMin ≤ (115200#32).toNat ∧
      (115200#32).toNat ≤ State.reset.cfg.baudMax := by decide

/-- For SecondInitHasNoSideEffects, MaskOperationsWriteOneBit. -/
theorem witness_SecondInitHasNoSideEffects : up.idle = true ∧ up.initialized = true := by decide

/-- For OutOfRangeBaudHasNoSideEffects: one below the range, one above it. -/
theorem witness_OutOfRangeBaudHasNoSideEffects :
    State.reset.idle = true ∧ (1199#32).toNat < State.reset.cfg.baudMin ∧
      State.reset.cfg.baudMax < (115201#32).toNat := by decide

/-- For TpWriteStoresAndArms. -/
theorem witness_TpWriteStoresAndArms :
    up.idle = true ∧ up.initialized = true ∧ up.tx.valid = true ∧ up.tx.wr < up.tx.cap ∧ up.tx.full = false := by decide

/-- For TpWriteSpinsOnAFullRing. -/
theorem witness_TpWriteSpinsOnAFullRing :
    let s := { up with tx := ring4 0 3 0 [] }
    s.idle = true ∧ s.initialized = true ∧ s.tx.valid = true ∧ s.tx.full = true := by decide

/-- For SpinningWriteReturnsAfterOneDrain. -/
theorem witness_SpinningWriteReturnsAfterOneDrain :
    spinning.Inv ∧ spinning.mainOp = some (.tpWrite 0x0A#8 (.w1 .e1)) ∧ spinning.isrOp = none ∧
      spinning.tx.full = true ∧ spinning.txArmed = true ∧ spinning.uart.tdr = none ∧ spinning.irqMasked = false :=
  ⟨witness_spinning_inv, rfl, rfl, by decide, rfl, rfl, rfl⟩

/-- For TpReadTakesTheOldestByte: both clauses. -/
theorem witness_TpReadTakesTheOldestByte :
    (let s := { up with rx := ring4 3 0 0 [(3, 0x0A#8)] }
     s.idle = true ∧ s.initialized = true ∧ s.rx.valid = true ∧ s.rx.rd < s.rx.cap ∧ s.rx.empty = false ∧
       memGet s.rx.buf s.rx.rd = some 0x0A#8) ∧
    (up.idle = true ∧ up.initialized = true ∧ up.rx.valid = true ∧ up.rx.empty = true) := by decide

/-- For TransportNeedsInitialisation. -/
theorem witness_TransportNeedsInitialisation : State.reset.initialized = false := by decide

/-- For HandlerBeginsOnlyWherePermitted: each ground of refusal, and each source. -/
theorem witness_HandlerBeginsOnlyWherePermitted :
    (masked.irqMasked = true ∧ handling.isrOp ≠ none ∧ State.reset.initialized = false ∧
      up.uart.rxHw = [] ∧ up.uart.overrun = false ∧ up.txArmed = false) ∧
    (arrived.irqMasked = false ∧ arrived.isrOp = none ∧ arrived.initialized = true ∧
      arrived.uart.rxie = true ∧ arrived.uart.rxHw ≠ []) ∧
    ({ uart9600 with overrun := true } : Uart).rxie = true ∧
    (spinning.irqMasked = false ∧ spinning.isrOp = none ∧ spinning.initialized = true ∧ spinning.txArmed = true ∧
      spinning.uart.tdr = none) := by decide

/-- For OverrunIsClearedSilently: with a byte to receive beside the overrun, and with nothing else to do. -/
theorem witness_OverrunIsClearedSilently :
    (let s := { up with uart := { uart9600 with rxHw := [0x79#8], overrun := true } }
     s.uart.overrun = true ∧ (∃ t, exec .isr s = .next t) ∧
       ({ s with uart := { s.uart with overrun := false } } : State).handlerEnabled = true) ∧
    (let s := { up with uart := { uart9600 with overrun := true } }
     s.uart.overrun = true ∧ (∃ t, exec .isr s = .next t) ∧
       ({ s with uart := { s.uart with overrun := false } } : State).handlerEnabled = false) :=
  ⟨⟨rfl, exists_next (by decide), by decide⟩, ⟨rfl, exists_next (by decide), by decide⟩⟩

/-- For ArrivingByteIsHeldOrLost and TransmitRegisterGoesToTheWire: each clause, the depth reached and not. -/
theorem witness_ArrivingByteIsHeldOrLost :
    up.uart.en = true ∧ up.uart.rxHw.length < up.cfg.rxHwDepth ∧ arrived.uart.en = true ∧
      arrived.cfg.rxHwDepth ≤ arrived.uart.rxHw.length ∧ State.reset.uart.en = false ∧ up.uart.tdr = none ∧
      ({ uart9600 with tdr := some 0x64#8 } : Uart).en = true := by decide

/-- For SixtySecondsAreAMinute (the last turn of each clause, a stored minute of 60, the last month) and
LineNeverOverflowsTheBuffer (the longest line). -/
theorem witness_SixtySecondsAreAMinute :
    (⟨2024, 2, 29, 23, 60, 59⟩ : TimeOfDay).second < 60 ∧ (⟨3000, 12, 31, 23, 59, 0⟩ : TimeOfDay).second < 60 ∧
      advanceSeconds 60 ⟨2024, 2, 29, 23, 60, 59⟩ = some ⟨2024, 3, 1, 0, 0, 59⟩ ∧
      advanceSeconds 60 ⟨3000, 12, 31, 23, 59, 0⟩ = none ∧ 1 ≤ 1 ∧ 12 ≤ 12 ∧
      [0x61#8, 0x62#8, 0x63#8, 0x64#8, 0x65#8, 0x66#8, 0x67#8].length < soft.lineN := by decide

/-! Fairness (R185). -/

/-- A handler run at its return, and then an idle block. -/
def fairRun (n : Nat) : State := if n = 0 then up.isrAt .h4 else up

/-- The fairness assumptions are met by a run in which the handler returns. -/
theorem witness_Fair : Execution fairRun (fun _ => .micro) ∧ Fair fairRun (fun _ => .micro) := by
  have late : ∀ n > 0, fairRun n = up := fun n hn => if_neg (by omega)
  refine ⟨fun n => ?_, fun n h => ?_, fun n _ => ⟨n, Nat.le_refl _, .inl rfl⟩, fun n h => ?_, fun n h => ?_⟩
  · cases n with
    | zero => rfl
    | succ n => rw [late (n + 1) (by omega), late (n + 2) (by omega)]; rfl
  · exact absurd (h (n + 1) (by omega)) (by rw [late _ (by omega)]; decide)
  · cases n with
    | zero => exact absurd h (by decide)
    | succ n => exact absurd h (by rw [late _ (by omega)]; decide)
  · obtain ⟨k, hk, ht, -⟩ := h (n + 1) (by omega)
    rw [late k (by omega)] at ht
    exact absurd ht (by decide)

end Sys2Proof.Tests
end

/-! Proofs of the family of spec/10_state.md. -/

section
namespace Sys2Proof.Machine

/-! A property of every step, from its parts. -/

/-- What a property has to survive to hold after every step: each micro-step of MAIN and of the handler, the beginning
of an operation, and the reset event; the words and turns still to come must not matter to it. -/
structure KeptByParts (P : State → Prop) : Prop where
  schedule : ∀ s bytes turns, P s → P { s with trace := bytes, turns := turns }
  reset : ∀ s, P s → P (State.resetWith s.cfg)
  main : ∀ s t, P s → mainStep s = .next t → P t
  handler : ∀ s t, P s → isrStep s = .next t → P t
  start : ∀ i s t, P s → startInstr i s = .next t → P t

namespace KeptByParts
variable {P : State → Prop} (hP : KeptByParts P) {s t : State}
include hP

theorem advance (hs : P s) (h : advance s = .next t) : P t := by
  unfold Machine.advance at h
  split at h
  · exact hP.handler s t hs h
  · exact hP.main s t hs h

/-- A word run whole is its beginning and then the micro-steps of the context that began (R62). -/
theorem exec {i : Instr} (hs : P s) (h : exec i s = .next t) : P t := by
  by_cases hi : issuedByMain i = true
  · rw [exec_of_main hi] at h
    obtain ⟨a, ha, e⟩ := andThen_eq_next.1 h
    exact runMainFor_induct hP.main (hP.start i s a hs ha) e
  · cases i with
    | isr =>
      obtain ⟨a, ha, e⟩ := andThen_eq_next.1 h
      exact runHandlerFor_induct hP.handler (hP.start .isr s a hs ha) e
    | devRxArrive b => exact hP.start (.devRxArrive b) s t hs h
    | devTxShift => exact hP.start .devTxShift s t hs h
    | _ => exact absurd rfl hi

theorem runNext {run : Instr → State → Run State} {rest : List Turn}
    (hrun : ∀ i s t, P s → run i s = .next t → P t) (hs : P s) (h : runNext run rest s = .next t) : P t := by
  unfold Machine.runNext at h
  split at h
  · exact hP.advance (hP.schedule s _ _ hs) h
  · split at h
    · cases h
    · split at h
      · exact hP.advance hs h
      · exact hrun _ _ _ (hP.schedule s _ _ hs) h

/-- A property its parts keep is kept by every step, under every schedule. -/
theorem step (hs : P s) (h : step s = .next t) : P t := by
  have whole : ∀ i s t, P s → Machine.exec i s = .next t → P t := fun _ _ _ => hP.exec
  unfold Machine.step takeTurn at h
  split at h
  · exact hP.runNext whole hs h
  · exact hP.runNext whole hs h
  · exact hP.runNext hP.start hs h
  · exact hP.advance (hP.schedule s _ _ hs) h
  · cases h
    exact hP.schedule _ _ _ (hP.reset s hs)

end KeptByParts

/-! The indices of a ring (R13). They stay in range on their own: each write of an index is taken modulo the capacity,
and a capacity is written together with both indices. So the part of the invariant needed is small. -/

/-- The index part of `Ring.Inv`: legal capacity (R11) and both indices below it (R13). -/
def Ring.InRange (c : Config) (r : Ring) : Prop :=
  r.valid = true → (2 ≤ r.cap ∧ r.cap ≤ c.storageMax) ∧ r.rd < r.cap ∧ r.wr < r.cap

/-- The capacity an `RB.INIT` in progress is going to write is legal (R81). -/
def MainOp.InRange (c : Config) : MainOp → Prop
  | .rbInit _ cap => 2 ≤ cap ∧ cap ≤ c.storageMax
  | _ => True

/-- The index part of `State.Inv`. -/
structure State.InRange (s : State) : Prop where
  config : s.cfg.wf = true
  rx : s.rx.InRange s.cfg
  tx : s.tx.InRange s.cfg
  main : ∀ op, s.mainOp = some op → op.InRange s.cfg

theorem Ring.Inv.inRange {c : Config} {r : Ring} (h : r.Inv c) : r.InRange c :=
  fun hv => ⟨h.capacity hv, h.indices hv⟩

theorem State.Inv.inRange {s : State} (h : s.Inv) : s.InRange where
  config := h.config
  rx := h.rx.inRange
  tx := h.tx.inRange
  main op hop := by
    cases op with
    | rbInit sel cap =>
      obtain ⟨-, hcap⟩ := h.main _ hop
      exact hcap
    | _ => trivial

theorem Config.wf_bounds {c : Config} (h : c.wf = true) :
    (2 ≤ c.capRx ∧ c.capRx ≤ c.storageMax) ∧ (2 ≤ c.capTx ∧ c.capTx ≤ c.storageMax) ∧
      c.storageMax < 2 ^ c.idxW := by
  simp only [Config.wf, Bool.and_eq_true, decide_eq_true_eq] at h
  tauto

/-! The writes to a ring. -/

theorem Ring.InRange.setWr {c : Config} {r : Ring} (h : r.InRange c) (w : Nat) :
    Ring.InRange c { r with wr := incMod w r.cap } := fun hv => by
  obtain ⟨hcap, hrd, -⟩ := h hv
  exact ⟨hcap, hrd, Nat.mod_lt _ (by omega)⟩

theorem Ring.InRange.setRd {c : Config} {r : Ring} (h : r.InRange c) (d : Nat) :
    Ring.InRange c { r with rd := incMod d r.cap } := fun hv => by
  obtain ⟨hcap, -, hwr⟩ := h hv
  exact ⟨hcap, Nat.mod_lt _ (by omega), hwr⟩

theorem Ring.inRange_create {c : Config} {cap : Nat} (h : 2 ≤ cap ∧ cap ≤ c.storageMax) (stats : Bool) (r : Ring) :
    (r.create stats cap).InRange c := fun _ =>
  have hpos : 0 < cap := by omega
  ⟨h, hpos, hpos⟩

namespace State.InRange
variable {s t : State}

theorem ring (h : s.InRange) (sel : RingSel) : (s.ring sel).InRange s.cfg := by
  cases sel
  · exact h.rx
  · exact h.tx

/-- Nothing but the parameters, the rings and MAIN's operation matters. -/
theorem of_eq (h : s.InRange) (hc : t.cfg = s.cfg) (hrx : t.rx = s.rx) (htx : t.tx = s.tx)
    (hm : t.mainOp = s.mainOp) : t.InRange where
  config := hc ▸ h.config
  rx := by rw [hc, hrx]; exact h.rx
  tx := by rw [hc, htx]; exact h.tx
  main op hop := by rw [hc]; exact h.main op (hm ▸ hop)

theorem setRing (h : s.InRange) {sel : RingSel} {r : Ring} (hr : r.InRange s.cfg) : (s.setRing sel r).InRange := by
  cases sel
  · exact ⟨h.config, hr, h.tx, h.main⟩
  · exact ⟨h.config, h.rx, hr, h.main⟩

theorem setMinFree (h : s.InRange) (sel : RingSel) (n : Nat) : (s.setMinFree sel n).InRange :=
  h.setRing (h.ring sel)

theorem mainAt (h : s.InRange) {op : MainOp} (hop : op.InRange s.cfg) : (s.mainAt op).InRange :=
  ⟨h.config, h.rx, h.tx, by rintro _ ⟨⟩; exact hop⟩

theorem mainReturn (h : s.InRange) (v : Word) : (s.mainReturn v).InRange :=
  ⟨h.config, h.rx, h.tx, by rintro _ ⟨⟩⟩

theorem isrAt (h : s.InRange) (op : IsrOp) : (s.isrAt op).InRange := h.of_eq rfl rfl rfl rfl

end State.InRange

/-! The micro-steps. -/

theorem enqueueStep_inRange {sel : RingSel} {byte : Byte} {st : EnqStep} {s s' : State} {p : Progress EnqStep Bool}
    (hs : s.InRange) (h : enqueueStep sel byte st s = .next (s', p)) : s'.InRange := by
  have hr := hs.ring sel
  rcases enqueueStep_cases h with ⟨-, -, rfl, -⟩ | ⟨w, -, rfl, -⟩ | ⟨w, ds, -, -, rfl, -⟩ |
    ⟨w, ds, -, -, rfl, -⟩ | ⟨w, ds, -, -, -, rfl, -⟩ | ⟨w, ds, -, rfl, -⟩ | ⟨w, ds, -, rfl, -⟩ | ⟨-, rfl, -⟩
  · exact hs
  · exact hs
  · exact hs
  · exact hs
  · exact hs.setRing hr
  · exact hs.setRing (hr.setWr w)
  · obtain ⟨n, -, e⟩ := sampleMinFree_eq sel (incMod w (s.ring sel).cap) ds s
    rw [e]
    exact hs.setRing hr
  · exact hs

theorem dequeueStep_inRange {sel : RingSel} {st : DeqStep} {s s' : State} {p : Progress DeqStep (Option Byte)}
    (hs : s.InRange) (h : dequeueStep sel st s = .next (s', p)) : s'.InRange := by
  rcases dequeueStep_cases h with ⟨-, -, rfl, -⟩ | ⟨d, -, rfl, -⟩ | ⟨d, ws, -, -, rfl, -⟩ |
    ⟨d, ws, -, -, rfl, -⟩ | ⟨d, b, -, -, -, -, rfl, -⟩ | ⟨d, b, -, rfl, -⟩ | ⟨b, -, rfl, -⟩
  · exact hs
  · exact hs
  · exact hs
  · exact hs
  · exact hs
  · exact hs.setRing ((hs.ring sel).setRd d)
  · exact hs

theorem queryStep_inRange {sel : RingSel} {answer : Nat → Nat → Nat → Word} {st : QueryStep} {s s' : State}
    {p : Progress QueryStep Word} (hs : s.InRange) (h : queryStep sel answer st s = .next (s', p)) : s'.InRange := by
  obtain ⟨rfl, -⟩ := queryStep_cases h
  exact hs

theorem mainGoesOn_inRange {σ ρ : Type} {o : Run (State × Progress σ ρ)} {at' : σ → MainOp}
    {k : ρ → State → Run State} {t : State} (ho : ∀ {a p}, o = .next (a, p) → a.InRange)
    (hat : ∀ c st, (at' st).InRange c) (hk : ∀ v a, a.InRange → k v a = .next t → t.InRange)
    (h : mainGoesOn o at' k = .next t) : t.InRange := by
  obtain ⟨a, st, ha, rfl⟩ | ⟨a, v, ha, e⟩ := mainGoesOn_eq_next.1 h
  · exact (ho ha).mainAt (hat _ st)
  · exact hk v a (ho ha) e

theorem isrGoesOn_inRange {σ ρ : Type} {o : Run (State × Progress σ ρ)} {at' : σ → IsrOp}
    {k : ρ → State → Run State} {t : State} (ho : ∀ {a p}, o = .next (a, p) → a.InRange)
    (hk : ∀ v a, a.InRange → k v a = .next t → t.InRange) (h : isrGoesOn o at' k = .next t) : t.InRange := by
  obtain ⟨a, st, ha, rfl⟩ | ⟨a, v, ha, e⟩ := isrGoesOn_eq_next.1 h
  · exact (ho ha).isrAt _
  · exact hk v a (ho ha) e

theorem microRbResetStats_inRange {sel : RingSel} {st : StatsStep} {s t : State} (hs : s.InRange)
    (h : microRbResetStats sel st s = .next t) : t.InRange := by
  cases st with
  | t1 =>
    simp only [microRbResetStats] at h
    obtain ⟨-, e⟩ := withValid_eq_next.1 h
    cases e
    exact hs.mainAt trivial
  | t2 w => cases h; exact hs.mainAt trivial
  | t3 w d =>
    cases h
    exact (hs.setMinFree sel _).mainAt trivial
  | t4 => cases h; exact hs.mainReturn _

theorem microTpInit_inRange {baud : Nat} {st : InitStep} {s t : State} (hs : s.InRange)
    (h : microTpInit baud st s = .next t) : t.InRange := by
  cases st with
  | i1 =>
    simp only [microTpInit] at h
    split at h <;> cases h
    · exact hs.mainReturn _
    · exact hs.mainAt trivial
  | i2 =>
    simp only [microTpInit] at h
    split at h <;> cases h
    · exact hs.mainReturn _
    · exact hs.mainAt trivial
  | i3 =>
    cases h
    obtain ⟨hrx, htx, -⟩ := Config.wf_bounds hs.config
    refine State.InRange.mainAt ?_ trivial
    exact ⟨hs.config, Ring.inRange_create hrx _ _, Ring.inRange_create htx _ _, hs.main⟩
  | i4 =>
    cases h
    refine State.InRange.mainAt ?_ trivial
    exact hs.of_eq rfl rfl rfl rfl
  | i5 =>
    cases h
    refine State.InRange.mainAt ?_ trivial
    exact hs.of_eq rfl rfl rfl rfl
  | i6 => cases h; exact hs.mainReturn _

theorem microTpWrite_inRange {byte : Byte} {st : WriteStep} {s t : State} (hs : s.InRange)
    (h : microTpWrite byte st s = .next t) : t.InRange := by
  cases st with
  | w1 e =>
    refine mainGoesOn_inRange (enqueueStep_inRange hs) (fun _ _ => by trivial) (fun _ a ha e => ?_) h
    cases e
    exact ha.mainAt trivial
  | w2 ok => cases h; exact hs.mainAt trivial
  | w3 => cases h; exact hs.mainAt trivial
  | w4 armed =>
    cases h
    cases armed
    · refine State.InRange.mainAt ?_ trivial
      exact hs.of_eq rfl rfl rfl rfl
    · exact hs.mainAt trivial
  | w5 => cases h; exact hs.mainReturn _

theorem microTpRead_inRange {st : ReadStep} {s t : State} (hs : s.InRange) (h : microTpRead st s = .next t) :
    t.InRange := by
  cases st with
  | d1 q =>
    refine mainGoesOn_inRange (dequeueStep_inRange hs) (fun _ _ => by trivial) (fun _ a ha e => ?_) h
    cases e
    exact ha.mainAt trivial
  | d2 v => cases h; exact hs.mainReturn _

theorem mainMicro_inRange {op : MainOp} {s t : State} (hs : s.InRange) (hop : op.InRange s.cfg)
    (h : mainMicro op s = .next t) : t.InRange := by
  have returns : ∀ {v : Word} {a : State}, a.InRange → (.next (a.mainReturn v) : Run State) = .next t → t.InRange :=
    fun ha e => by cases e; exact ha.mainReturn _
  cases op with
  | rbInit sel cap => exact returns (hs.setRing (Ring.inRange_create hop _ _)) h
  | rbIsFull sel st =>
    exact mainGoesOn_inRange (queryStep_inRange hs) (fun _ _ => by trivial) (fun _ _ => returns) h
  | rbIsEmpty sel st =>
    exact mainGoesOn_inRange (queryStep_inRange hs) (fun _ _ => by trivial) (fun _ _ => returns) h
  | rbEnqueue sel byte st =>
    exact mainGoesOn_inRange (enqueueStep_inRange hs) (fun _ _ => by trivial) (fun _ _ => returns) h
  | rbDequeue sel st =>
    exact mainGoesOn_inRange (dequeueStep_inRange hs) (fun _ _ => by trivial) (fun _ _ => returns) h
  | rbFreeSlots sel st =>
    exact mainGoesOn_inRange (queryStep_inRange hs) (fun _ _ => by trivial) (fun _ _ => returns) h
  | rbResetStats sel st => exact microRbResetStats_inRange hs h
  | rbMinFree sel =>
    simp only [mainMicro, microRbMinFree] at h
    exact returns hs (withValid_eq_next.1 h).2
  | tpInit baud st => exact microTpInit_inRange hs h
  | tpWrite byte st => exact microTpWrite_inRange hs h
  | tpRead st => exact microTpRead_inRange hs h
  | irqMask => exact returns (a := { s with irqMasked := true }) (hs.of_eq rfl rfl rfl rfl) h
  | irqUnmask => exact returns (a := { s with irqMasked := false }) (hs.of_eq rfl rfl rfl rfl) h

theorem mainStep_inRange (s t : State) (hs : s.InRange) (h : mainStep s = .next t) : t.InRange := by
  unfold mainStep at h
  split at h
  · cases h; exact hs
  · next op hop => exact mainMicro_inRange hs (hs.main op hop) h

theorem isrMicro_inRange {op : IsrOp} {s t : State} (hs : s.InRange) (h : isrMicro op s = .next t) : t.InRange := by
  cases op with
  | h1Test => cases h; exact hs.isrAt _
  | h1Read =>
    obtain ⟨⟨a, b⟩, ha, e⟩ := andThen_eq_next.1 h
    obtain ⟨rest, -, rfl⟩ := uartReadRx_eq_next.1 ha
    cases e
    exact hs.of_eq rfl rfl rfl rfl
  | h1Enqueue b st =>
    refine isrGoesOn_inRange (enqueueStep_inRange hs) (fun ok a ha e => ?_) h
    cases e
    cases ok <;> exact ha.of_eq rfl rfl rfl rfl
  | h2Test => cases h; exact hs.isrAt _
  | h2Clear => cases h; exact hs.of_eq rfl rfl rfl rfl
  | h3Test => cases h; exact hs.isrAt _
  | h3Dequeue st =>
    refine isrGoesOn_inRange (dequeueStep_inRange hs) (fun v a ha e => ?_) h
    cases e
    exact ha.isrAt _
  | h3Result v =>
    cases v with
    | none => cases h; exact hs.of_eq rfl rfl rfl rfl
    | some b =>
      obtain ⟨a, ha, e⟩ := andThen_eq_next.1 h
      obtain ⟨-, rfl⟩ := uartWriteTx_eq_next.1 ha
      cases e
      exact hs.of_eq rfl rfl rfl rfl
  | h4 => cases h; exact hs.of_eq rfl rfl rfl rfl

theorem isrStep_inRange (s t : State) (hs : s.InRange) (h : isrStep s = .next t) : t.InRange := by
  unfold isrStep at h
  split at h
  · cases h; exact hs
  · exact isrMicro_inRange hs h

/-! The beginning of an operation. -/

theorem issueMain_inRange {op : MainOp} {s t : State} (hs : s.InRange) (hop : op.InRange s.cfg)
    (h : issueMain op s = .next t) : t.InRange := by
  obtain ⟨-, -, rfl⟩ := issueMain_eq_next.1 h
  exact hs.mainAt hop

theorem issueRing_inRange {sel : RingSel} {op : MainOp} {s t : State} (hs : s.InRange) (hop : op.InRange s.cfg)
    (h : issueRing sel op s = .next t) : t.InRange :=
  issueMain_inRange hs hop (withValid_eq_next.1 h).2

theorem startInstr_inRange (i : Instr) (s t : State) (hs : s.InRange) (h : startInstr i s = .next t) : t.InRange := by
  cases i with
  | rbInit sel cap =>
    obtain ⟨-, e⟩ := whileUnowned_eq_next.1 h
    split at e
    · next hcap => exact issueMain_inRange hs (by simpa [MainOp.InRange] using hcap) e
    · cases e
  | rbIsFull sel => exact issueRing_inRange hs (by trivial) h
  | rbIsEmpty sel => exact issueRing_inRange hs (by trivial) h
  | rbEnqueue sel b => exact issueRing_inRange hs (by trivial) (whileUnowned_eq_next.1 h).2
  | rbDequeue sel => exact issueRing_inRange hs (by trivial) (whileUnowned_eq_next.1 h).2
  | rbFreeSlots sel => exact issueRing_inRange hs (by trivial) (withStats_eq_next.1 h).2
  | rbResetStats sel =>
    obtain ⟨-, e⟩ := withStats_eq_next.1 h
    exact issueRing_inRange hs (by trivial) (asStatsProducer_eq_next.1 e).2
  | rbMinFree sel => exact issueRing_inRange hs (by trivial) (withStats_eq_next.1 h).2
  | tpInit baud => exact issueMain_inRange hs (by trivial) h
  | tpWrite b => exact issueMain_inRange hs (by trivial) (whenInitialized_eq_next.1 h).2
  | tpRead => exact issueMain_inRange hs (by trivial) (whenInitialized_eq_next.1 h).2
  | irqMask => exact issueMain_inRange hs (by trivial) h
  | irqUnmask => exact issueMain_inRange hs (by trivial) h
  | isr =>
    obtain ⟨-, rfl⟩ := enterHandler_eq_next.1 h
    exact hs.isrAt _
  | devRxArrive b => obtain ⟨-, ⟨-, rfl⟩ | ⟨-, rfl⟩⟩ := uartReceive_eq_next.1 h <;> exact hs.of_eq rfl rfl rfl rfl
  | devTxShift =>
    obtain ⟨-, b, -, rfl⟩ := uartShift_eq_next.1 h
    exact hs.of_eq rfl rfl rfl rfl

theorem resetWith_inRange {c : Config} (h : c.wf = true) : (State.resetWith c).InRange where
  config := h
  rx := by rintro ⟨⟩
  tx := by rintro ⟨⟩
  main := by rintro _ ⟨⟩

theorem inRange_keptByParts : KeptByParts State.InRange where
  schedule _ _ _ hs := hs.of_eq rfl rfl rfl rfl
  reset _ hs := resetWith_inRange hs.config
  main := mainStep_inRange
  handler := isrStep_inRange
  start := startInstr_inRange

/-- Settles O17: the index part of the invariant is kept by every step, and `STORAGE_MAX` fits the index word (R5). -/
theorem indicesStayInRange : Obligations.IndicesStayInRange := by
  intro s t sel hs h hv
  have ht : t.InRange := inRange_keptByParts.step hs.inRange h
  obtain ⟨⟨-, hcap⟩, hrd, hwr⟩ := ht.ring sel hv
  obtain ⟨-, -, hword⟩ := Config.wf_bounds ht.config
  exact ⟨hrd, hwr, Nat.lt_of_le_of_lt hcap hword⟩

end Sys2Proof.Machine
end

/-! Proofs of the family of spec/40_ring_buffer.md. -/

section
namespace Sys2Proof.Machine

/-! Two writes of one ring, and a write of a ring while MAIN stands inside an operation. -/

@[simp] theorem setRing_setRing (s : State) (sel : RingSel) (r r' : Ring) :
    (s.setRing sel r).setRing sel r' = s.setRing sel r' := by
  cases sel <;> rfl

@[simp] theorem setRing_mainAt (s : State) (op : MainOp) (sel : RingSel) (r : Ring) :
    (s.mainAt op).setRing sel r = (s.setRing sel r).mainAt op := by
  cases sel <;> rfl

/-- `E6`'s sample as one write of the ring (R84). -/
theorem sampleMinFree_eq_setRing (sel : RingSel) (w1 ds : Nat) (s : State) :
    sampleMinFree sel w1 ds s = s.setRing sel { s.ring sel with
      minFree :=
        if s.cfg.hasStats && decide (freeOf (s.ring sel).cap w1 ds < (s.ring sel).minFree) then
          freeOf (s.ring sel).cap w1 ds
        else (s.ring sel).minFree } := by
  unfold sampleMinFree
  split
  · rfl
  · exact (setRing_self s sel).symm

/-! A whole run of MAIN, one micro-step of an enqueue or a dequeue at a time (R62). -/

section
variable {n : Nat} {s t : State} {sel : RingSel} {b : Byte}

theorem runMainFor_enqueue_more {st st' : EnqStep}
    (h : enqueueStep sel b st (s.mainAt (.rbEnqueue sel b st)) = .next (t.mainAt (.rbEnqueue sel b st), .more st')) :
    runMainFor (n + 1) (s.mainAt (.rbEnqueue sel b st)) = runMainFor n (t.mainAt (.rbEnqueue sel b st')) :=
  runMainFor_more (mainGoesOn_eq_next.2 (.inl ⟨_, _, h, rfl⟩)) rfl

theorem runMainFor_dequeue_more {st st' : DeqStep}
    (h : dequeueStep sel st (s.mainAt (.rbDequeue sel st)) = .next (t.mainAt (.rbDequeue sel st), .more st')) :
    runMainFor (n + 1) (s.mainAt (.rbDequeue sel st)) = runMainFor n (t.mainAt (.rbDequeue sel st')) :=
  runMainFor_more (mainGoesOn_eq_next.2 (.inl ⟨_, _, h, rfl⟩)) rfl

end

section
variable {s : State} {sel : RingSel} {r : Ring}

/-- The micro-steps `E1` to `E7` of an enqueue that finds room (R84). -/
theorem runMain_rbEnqueue_of_room (b : Byte) (hring : s.ring sel = r) (hv : r.valid = true) (hw : r.wr < r.cap)
    (hf : r.full = false) :
    runMain (s.mainAt (.rbEnqueue sel b .e1)) =
      .next ((s.setRing sel (r.enqueued s.cfg.hasStats b)).mainReturn (boolResult true)) := by
  have hfull : isFullOf r.cap r.wr r.rd = false := hf
  calc runMain (s.mainAt (.rbEnqueue sel b .e1))
    _ = runMainFor 15 (s.mainAt (.rbEnqueue sel b (.e2 r.wr))) :=
      runMainFor_enqueue_more (by simp [enqueueStep, withValid, hring, hv])
    _ = runMainFor 14 (s.mainAt (.rbEnqueue sel b (.e3 r.wr r.rd))) :=
      runMainFor_enqueue_more (by simp [enqueueStep, hring])
    _ = runMainFor 13 (s.mainAt (.rbEnqueue sel b (.e4 r.wr r.rd))) :=
      runMainFor_enqueue_more (by simp [enqueueStep, hring, hfull])
    _ = runMainFor 12 ((s.setRing sel { r with buf := memPut r.buf r.wr b }).mainAt
          (.rbEnqueue sel b (.e5 r.wr r.rd))) :=
      runMainFor_enqueue_more (by simp [enqueueStep, memWrite, hring, hv, hw])
    _ = runMainFor 11 ((s.setRing sel { r with buf := memPut r.buf r.wr b, wr := incMod r.wr r.cap }).mainAt
          (.rbEnqueue sel b (.e6 r.wr r.rd))) :=
      runMainFor_enqueue_more (by simp [enqueueStep, setWr_eq])
    _ = runMainFor 10 ((s.setRing sel (r.enqueued s.cfg.hasStats b)).mainAt (.rbEnqueue sel b .e7)) :=
      runMainFor_enqueue_more (by simp [enqueueStep, sampleMinFree_eq_setRing, Ring.enqueued])
    _ = .next ((s.setRing sel (r.enqueued s.cfg.hasStats b)).mainReturn (boolResult true)) := rfl

/-- The micro-steps `Q1` to `Q6` of a dequeue that finds a byte (R85). -/
theorem runMain_rbDequeue_of_byte {b : Byte} (hring : s.ring sel = r) (hv : r.valid = true) (hr : r.rd < r.cap)
    (he : r.empty = false) (hb : memGet r.buf r.rd = some b) :
    runMain (s.mainAt (.rbDequeue sel .q1)) =
      .next ((s.setRing sel r.dequeued).mainReturn (optionResult (some b))) := by
  have hempty : isEmptyOf r.wr r.rd = false := he
  calc runMain (s.mainAt (.rbDequeue sel .q1))
    _ = runMainFor 15 (s.mainAt (.rbDequeue sel (.q2 r.rd))) :=
      runMainFor_dequeue_more (by simp [dequeueStep, withValid, hring, hv])
    _ = runMainFor 14 (s.mainAt (.rbDequeue sel (.q3 r.rd r.wr))) :=
      runMainFor_dequeue_more (by simp [dequeueStep, hring])
    _ = runMainFor 13 (s.mainAt (.rbDequeue sel (.q4 r.rd))) :=
      runMainFor_dequeue_more (by simp [dequeueStep, hempty])
    _ = runMainFor 12 (s.mainAt (.rbDequeue sel (.q5 r.rd b))) :=
      runMainFor_dequeue_more (by simp [dequeueStep, memRead, hring, hv, hr, hb])
    _ = runMainFor 11 ((s.setRing sel r.dequeued).mainAt (.rbDequeue sel (.q6 b))) :=
      runMainFor_dequeue_more (by simp [dequeueStep, setRd_eq, Ring.dequeued, hring])
    _ = .next ((s.setRing sel r.dequeued).mainReturn (optionResult (some b))) := rfl

/-! The two operations as whole words. -/

/-- A ring operation MAIN may begin (R12, R80). -/
theorem issueRing_of_idle {op : MainOp} (hi : s.idle = true) (hv : (s.ring sel).valid = true) :
    issueRing sel op s = .next (s.mainAt op) := by
  obtain ⟨hmain, hisr⟩ := idle_iff.1 hi
  exact withValid_eq_next.2 ⟨hv, issueMain_eq_next.2 ⟨hmain, hisr, rfl⟩⟩

theorem exec_rbEnqueue_of_room (b : Byte) (hi : s.idle = true) (hini : s.initialized = false) (hring : s.ring sel = r)
    (hv : r.valid = true) (hw : r.wr < r.cap) (hf : r.full = false) :
    exec (.rbEnqueue sel b) s =
      .next ((s.setRing sel (r.enqueued s.cfg.hasStats b)).mainReturn (boolResult true)) := by
  have hstart : startInstr (.rbEnqueue sel b) s = .next (s.mainAt (.rbEnqueue sel b .e1)) :=
    whileUnowned_eq_next.2 ⟨hini, issueRing_of_idle hi (hring ▸ hv)⟩
  rw [exec_of_main rfl, hstart, andThen_next, runMain_rbEnqueue_of_room b hring hv hw hf]

theorem exec_rbDequeue_of_byte {b : Byte} (hi : s.idle = true) (hini : s.initialized = false)
    (hring : s.ring sel = r) (hv : r.valid = true) (hr : r.rd < r.cap) (he : r.empty = false)
    (hb : memGet r.buf r.rd = some b) :
    exec (.rbDequeue sel) s = .next ((s.setRing sel r.dequeued).mainReturn (optionResult (some b))) := by
  have hstart : startInstr (.rbDequeue sel) s = .next (s.mainAt (.rbDequeue sel .q1)) :=
    whileUnowned_eq_next.2 ⟨hini, issueRing_of_idle hi (hring ▸ hv)⟩
  rw [exec_of_main rfl, hstart, andThen_next, runMain_rbDequeue_of_byte hring hv hr he hb]

end

/-! What an enqueue makes of an empty ring. -/

section
variable {r : Ring}

/-- A ring of at least two slots is never empty and full at once (R14). -/
theorem Ring.full_eq_false_of_empty (hcap : 2 ≤ r.cap) (hr : r.rd < r.cap) (hw : r.wr < r.cap) (he : r.empty = true) :
    r.full = false := by
  have hcount : r.count = 0 := (Ring.empty_iff hr hw).1 he
  exact (Ring.full_false_iff hr hw).2 (by omega)

/-- Where there was room, the advanced write index stays off the read index. -/
theorem Ring.enqueued_empty_eq_false (stats : Bool) (b : Byte) (hf : r.full = false) :
    (r.enqueued stats b).empty = false := hf

/-- The byte stored in an empty ring is in the slot the next dequeue reads. -/
theorem Ring.memGet_enqueued_rd_of_empty (stats : Bool) (b : Byte) (he : r.empty = true) :
    memGet (r.enqueued stats b).buf (r.enqueued stats b).rd = some b := by
  have hwr : r.wr = r.rd := (isEmptyOf_iff _ _).1 he
  simp [Ring.enqueued, hwr, memGet_memPut_same]

/-- Both indices of an empty ring advance by one. -/
theorem Ring.dequeued_enqueued_of_empty (stats : Bool) (b : Byte) (he : r.empty = true) :
    (r.enqueued stats b).dequeued.empty = true := by
  have hwr : r.wr = r.rd := (isEmptyOf_iff _ _).1 he
  simp [Ring.empty, Ring.enqueued, Ring.dequeued, isEmptyOf_iff, hwr]

end

/-- A returned operation leaves the block idle for the next word (R62). -/
theorem idle_mainReturn_setRing {s : State} (hi : s.idle = true) (sel : RingSel) (r : Ring) (v : Word) :
    ((s.setRing sel r).mainReturn v).idle = true := by
  obtain ⟨-, hisr⟩ := idle_iff.1 hi
  simp [State.idle, hisr]

/-- Two words run whole, one after the other, deliver their two result words. -/
theorem runWords_pair {i j : Instr} {s t u : State} (hi : exec i s = .next t) (hj : exec j t = .next u) :
    runWords [i, j] s = .next ([t.res, u.res], u) := by
  simp [runWords, hi, hj]

/-- Settles O42: the enqueue has room because an empty ring is not full, and the dequeue finds the byte it stored. -/
theorem enqueueThenDequeueReturnsTheByte : Obligations.EnqueueThenDequeueReturnsTheByte := by
  intro s sel b hi hini hv hinv he
  obtain ⟨hcap, -⟩ := hinv.capacity hv
  obtain ⟨hr, hw⟩ := hinv.indices hv
  have hf : (s.ring sel).full = false := Ring.full_eq_false_of_empty hcap hr hw he
  have hput := exec_rbEnqueue_of_room b hi hini rfl hv hw hf
  have hidle := idle_mainReturn_setRing hi sel ((s.ring sel).enqueued s.cfg.hasStats b) (boolResult true)
  have htake := exec_rbDequeue_of_byte (sel := sel) (r := (s.ring sel).enqueued s.cfg.hasStats b) hidle
    (by simpa using hini) (by simp) hv hr (Ring.enqueued_empty_eq_false _ b hf)
    (Ring.memGet_enqueued_rd_of_empty _ b he)
  exact ⟨_, runWords_pair hput htake, by simpa using Ring.dequeued_enqueued_of_empty _ b he⟩

end Sys2Proof.Machine
end

/-! Proofs of the family of spec/60_exceptions.md. -/

section
namespace Sys2Proof.Machine

/-! What the handler does to the UART (R144, R146 to R148): three of its micro-steps touch it, each one register. -/

theorem enqueueStep_uart {sel : RingSel} {byte : Byte} {st : EnqStep} {s s' : State} {p : Progress EnqStep Bool}
    (h : enqueueStep sel byte st s = .next (s', p)) : s'.uart = s.uart := by
  rcases enqueueStep_cases h with ⟨-, -, rfl, -⟩ | ⟨w, -, rfl, -⟩ | ⟨w, ds, -, -, rfl, -⟩ |
    ⟨w, ds, -, -, rfl, -⟩ | ⟨w, ds, -, -, -, rfl, -⟩ | ⟨w, ds, -, rfl, -⟩ | ⟨w, ds, -, rfl, -⟩ | ⟨-, rfl, -⟩ <;>
    simp [sampleMinFree_eq_setRing]

theorem dequeueStep_uart {sel : RingSel} {st : DeqStep} {s s' : State} {p : Progress DeqStep (Option Byte)}
    (h : dequeueStep sel st s = .next (s', p)) : s'.uart = s.uart := by
  rcases dequeueStep_cases h with ⟨-, -, rfl, -⟩ | ⟨d, -, rfl, -⟩ | ⟨d, ws, -, -, rfl, -⟩ |
    ⟨d, ws, -, -, rfl, -⟩ | ⟨d, b, -, -, -, -, rfl, -⟩ | ⟨d, b, -, rfl, -⟩ | ⟨b, -, rfl, -⟩ <;> simp

@[simp] theorem receiveDone_uart (ok : Bool) (s : State) : (receiveDone ok s).uart = s.uart := by
  cases ok <;> rfl

/-- Everything a micro-step of the handler can do to the UART. -/
theorem isrMicro_uart_cases {op : IsrOp} {s t : State} (h : isrMicro op s = .next t) :
    (op = .h1Read ∧ t.uart = { s.uart with rxHw := s.uart.rxHw.tail }) ∨
    (op = .h2Clear ∧ t.uart = { s.uart with overrun := false }) ∨
    (∃ b, op = .h3Result (some b) ∧ t.uart = { s.uart with tdr := some b }) ∨
    (op ≠ .h1Read ∧ op ≠ .h2Clear ∧ t.uart = s.uart) := by
  cases op with
  | h1Read =>
    obtain ⟨⟨a, b⟩, ha, e⟩ := andThen_eq_next.1 h
    obtain ⟨rest, hrest, rfl⟩ := uartReadRx_eq_next.1 ha
    cases e
    exact .inl ⟨rfl, by simp [hrest]⟩
  | h2Clear => cases h; exact .inr (.inl ⟨rfl, rfl⟩)
  | h3Result v =>
    cases v with
    | none => cases h; exact .inr (.inr (.inr ⟨nofun, nofun, rfl⟩))
    | some b =>
      obtain ⟨a, ha, e⟩ := andThen_eq_next.1 h
      obtain ⟨-, rfl⟩ := uartWriteTx_eq_next.1 ha
      cases e
      exact .inr (.inr (.inl ⟨b, rfl, rfl⟩))
  | h1Enqueue b st =>
    refine .inr (.inr (.inr ⟨nofun, nofun, ?_⟩))
    obtain ⟨a, st', ha, rfl⟩ | ⟨a, ok, ha, e⟩ := isrGoesOn_eq_next.1 h
    · exact (isrAt_uart a _).trans (enqueueStep_uart ha)
    · cases e
      exact (receiveDone_uart ok a).trans (enqueueStep_uart ha)
  | h3Dequeue st =>
    refine .inr (.inr (.inr ⟨nofun, nofun, ?_⟩))
    obtain ⟨a, st', ha, rfl⟩ | ⟨a, v, ha, e⟩ := isrGoesOn_eq_next.1 h
    · exact (isrAt_uart a _).trans (dequeueStep_uart ha)
    · cases e
      exact (isrAt_uart a _).trans (dequeueStep_uart ha)
  | h1Test | h2Test | h3Test | h4 => cases h; exact .inr (.inr (.inr ⟨nofun, nofun, rfl⟩))

/-- The handler never sets the overrun flag. -/
theorem isrStep_overrun_eq_false (s t : State) (hs : s.uart.overrun = false) (h : isrStep s = .next t) :
    t.uart.overrun = false := by
  unfold isrStep at h
  split at h
  · cases h; exact hs
  · rcases isrMicro_uart_cases h with ⟨-, e⟩ | ⟨-, e⟩ | ⟨b, -, e⟩ | ⟨-, -, e⟩ <;> simp [e, hs]

/-! The length of a handler run (R144): a micro-step of a run brings it nearer its end by at least one, so a run given
as many micro-steps as it needs does not depend on how many more it is given. -/

theorem isrStep_of_isrOp {op : IsrOp} {s : State} (h : s.isrOp = some op) : isrStep s = isrMicro op s := by
  simp [isrStep, h]

/-- The bytes the receive loop has to come back for after the micro-step `op`: the read of `H1` takes one of those the
UART still holds. -/
def State.bytesAfter (s : State) : IsrOp → List Byte
  | .h1Read => s.uart.rxHw.tail
  | _ => s.uart.rxHw

/-- A bound on the micro-steps a handler run has left: nine for each byte of the receive loop, and the rest. -/
def State.handlerLeft (s : State) (op : IsrOp) : Nat := 9 * (s.bytesAfter op).length + op.left

theorem State.handlerLeft_pos (s : State) (op : IsrOp) : 0 < s.handlerLeft op := by
  have : 0 < op.left := by cases op <;> simp [IsrOp.left]
  unfold State.handlerLeft
  omega

theorem State.bytesAfter_length_le (s : State) (op : IsrOp) : (s.bytesAfter op).length ≤ s.uart.rxHw.length := by
  cases op <;> simp [State.bytesAfter]

/-- Only the read of `H1` removes a byte, and nothing the handler does adds one. -/
theorem isrMicro_rxHw_length_le {op : IsrOp} {s t : State} (h : isrMicro op s = .next t) :
    t.uart.rxHw.length ≤ (s.bytesAfter op).length := by
  rcases isrMicro_uart_cases h with ⟨rfl, e⟩ | ⟨rfl, e⟩ | ⟨b, rfl, e⟩ | ⟨hread, -, e⟩
  case inr.inr.inr =>
    cases op with
    | h1Read => exact absurd rfl hread
    | _ => simp [e, State.bytesAfter]
  all_goals simp [e, State.bytesAfter]

theorem isrMicro_handlerLeft {op : IsrOp} {s t : State} (h : isrMicro op s = .next t) :
    t.isrOp = none ∨ ∃ op', t.isrOp = some op' ∧ t.handlerLeft op' < s.handlerLeft op := by
  by_cases hfinds : op = .h1Test ∧ s.rxReady = true
  · obtain ⟨rfl, hrx⟩ := hfinds
    cases h
    refine .inr ⟨.h1Read, by simp [hrx], ?_⟩
    have hne : s.uart.rxHw.length ≠ 0 := by simpa [State.rxReady] using hrx
    simp only [State.handlerLeft, State.bytesAfter, isrAt_uart, List.length_tail, IsrOp.left]
    omega
  · rcases isrMicro_left h (by simpa using hfinds) with hnone | ⟨op', hop', hlt⟩
    · exact .inl hnone
    · refine .inr ⟨op', hop', ?_⟩
      have hheld := (t.bytesAfter_length_le op').trans (isrMicro_rxHw_length_le h)
      unfold State.handlerLeft
      omega

/-- Micro-steps beyond those a handler run needs change nothing. -/
theorem runHandlerFor_of_enough {n m : Nat} {op : IsrOp} {s : State} (hop : s.isrOp = some op)
    (hn : s.handlerLeft op ≤ n) (hm : s.handlerLeft op ≤ m) : runHandlerFor n s = runHandlerFor m s := by
  have hpos := s.handlerLeft_pos op
  induction n generalizing m op s with
  | zero => omega
  | succ n ih =>
    obtain ⟨m, rfl⟩ : ∃ k, m = k + 1 := ⟨m - 1, by omega⟩
    cases hstep : isrStep s with
    | next t =>
      rcases isrMicro_handlerLeft (isrStep_of_isrOp hop ▸ hstep) with hnone | ⟨op', hop', hlt⟩
      · rw [runHandlerFor_last hstep hnone, runHandlerFor_last hstep hnone]
      · rw [runHandlerFor_more hstep hop', runHandlerFor_more hstep hop']
        exact ih hop' (by omega) (by omega) (t.handlerLeft_pos op')
    | fault f => simp [runHandlerFor, hstep]
    | refused r => simp [runHandlerFor, hstep]

/-! The receive service does not look at the overrun flag (R146): it does the same after the flag is cleared. -/

/-- The micro-steps of the receive service, `H1`. -/
def IsrOp.receives : IsrOp → Bool
  | .h1Test => true
  | .h1Read => true
  | .h1Enqueue _ _ => true
  | .h2Test => false
  | .h2Clear => false
  | .h3Test => false
  | .h3Dequeue _ => false
  | .h3Result _ => false
  | .h4 => false

/-- The receive service goes on, or to the overrun service. -/
theorem isrMicro_of_receives {op : IsrOp} {s t : State} (hr : op.receives = true) (h : isrMicro op s = .next t) :
    ∃ op', t.isrOp = some op' ∧ (op'.receives = true ∨ op' = .h2Test) := by
  cases op with
  | h1Test =>
    cases h
    cases hrx : s.rxReady
    · exact ⟨.h2Test, by simp, .inr rfl⟩
    · exact ⟨.h1Read, by simp, .inl rfl⟩
  | h1Read =>
    obtain ⟨⟨a, b⟩, -, e⟩ := andThen_eq_next.1 h
    cases e
    exact ⟨_, rfl, .inl rfl⟩
  | h1Enqueue b st =>
    obtain ⟨a, st', -, rfl⟩ | ⟨a, ok, -, e⟩ := isrGoesOn_eq_next.1 h
    · exact ⟨_, rfl, .inl rfl⟩
    · cases e
      exact ⟨.h1Test, rfl, .inl rfl⟩
  | h2Test | h2Clear | h3Test | h3Dequeue | h3Result | h4 => cases hr

theorem isrMicro_overrun_of_receives {op : IsrOp} {s t : State} (hr : op.receives = true)
    (h : isrMicro op s = .next t) : t.uart.overrun = s.uart.overrun := by
  rcases isrMicro_uart_cases h with ⟨-, e⟩ | ⟨rfl, -⟩ | ⟨b, rfl, -⟩ | ⟨-, -, e⟩
  · rw [e]
  · cases hr
  · cases hr
  · rw [e]

@[simp] theorem uartClearOverrun_cfg (s : State) : (uartClearOverrun s).cfg = s.cfg := rfl
@[simp] theorem uartClearOverrun_isrAt (s : State) (op : IsrOp) :
    uartClearOverrun (s.isrAt op) = (uartClearOverrun s).isrAt op := rfl
@[simp] theorem uartClearOverrun_ring (s : State) (sel : RingSel) : (uartClearOverrun s).ring sel = s.ring sel := by
  cases sel <;> rfl

@[simp] theorem uartClearOverrun_setRing (s : State) (sel : RingSel) (r : Ring) :
    uartClearOverrun (s.setRing sel r) = (uartClearOverrun s).setRing sel r := by
  cases sel <;> rfl

theorem enqueueStep_uartClearOverrun {sel : RingSel} {byte : Byte} {st : EnqStep} {s t : State}
    {p : Progress EnqStep Bool} (h : enqueueStep sel byte st s = .next (t, p)) :
    enqueueStep sel byte st (uartClearOverrun s) = .next (uartClearOverrun t, p) := by
  rcases enqueueStep_cases h with ⟨rfl, hv, rfl, rfl⟩ | ⟨w, rfl, rfl, rfl⟩ | ⟨w, ds, rfl, hf, rfl, rfl⟩ |
    ⟨w, ds, rfl, hf, rfl, rfl⟩ | ⟨w, ds, rfl, hv, hw, rfl, rfl⟩ | ⟨w, ds, rfl, rfl, rfl⟩ |
    ⟨w, ds, rfl, rfl, rfl⟩ | ⟨rfl, rfl, rfl⟩
  · simp [enqueueStep, withValid, hv]
  · simp [enqueueStep]
  · simp [enqueueStep, hf]
  · simp [enqueueStep, hf]
  · simp [enqueueStep, memWrite, hv, hw]
  · simp [enqueueStep, setWr_eq]
  · simp [enqueueStep, sampleMinFree_eq_setRing]
  · simp [enqueueStep]

theorem isrMicro_uartClearOverrun {op : IsrOp} {s t : State} (hr : op.receives = true)
    (h : isrMicro op s = .next t) : isrMicro op (uartClearOverrun s) = .next (uartClearOverrun t) := by
  cases op with
  | h1Test => cases h; rfl
  | h1Read =>
    obtain ⟨⟨a, b⟩, ha, e⟩ := andThen_eq_next.1 h
    obtain ⟨rest, hrest, rfl⟩ := uartReadRx_eq_next.1 ha
    cases e
    exact andThen_eq_next.2 ⟨_, uartReadRx_eq_next.2 ⟨rest, hrest, rfl⟩, rfl⟩
  | h1Enqueue b st =>
    obtain ⟨a, st', ha, rfl⟩ | ⟨a, ok, ha, e⟩ := isrGoesOn_eq_next.1 h
    · exact isrGoesOn_eq_next.2 (.inl ⟨_, st', enqueueStep_uartClearOverrun ha, rfl⟩)
    · cases e
      exact isrGoesOn_eq_next.2 (.inr ⟨_, ok, enqueueStep_uartClearOverrun ha, by cases ok <;> rfl⟩)
  | h2Test | h2Clear | h3Test | h3Dequeue | h3Result | h4 => cases hr

/-! The overrun service (R147). -/

theorem isrAt_self {op : IsrOp} {s : State} (h : s.isrOp = some op) : s.isrAt op = s := by
  simp [State.isrAt, ← h]

/-- A micro-step of a run that leads the handler to another. -/
theorem runHandlerFor_isrAt {n : Nat} {op op' : IsrOp} {s t : State}
    (h : isrMicro op (s.isrAt op) = .next (t.isrAt op')) :
    runHandlerFor (n + 1) (s.isrAt op) = runHandlerFor n (t.isrAt op') :=
  runHandlerFor_more h rfl

/-- From the overrun service on: with the flag set the handler takes one micro-step more, to clear it, and then stands
where it stands without. -/
theorem runHandlerFor_h2Test_uartClearOverrun {n : Nat} {s : State} (ho : s.uart.overrun = true)
    (hn : s.handlerLeft .h2Test ≤ n) :
    runHandlerFor n (s.isrAt .h2Test) = runHandlerFor n ((uartClearOverrun s).isrAt .h2Test) := by
  simp only [State.handlerLeft, State.bytesAfter, IsrOp.left] at hn
  obtain ⟨k, rfl⟩ : ∃ k, n = k + 2 := ⟨n - 2, by omega⟩
  have henough : ((uartClearOverrun s).isrAt .h3Test).handlerLeft .h3Test ≤ k := by
    simp only [State.handlerLeft, State.bytesAfter, IsrOp.left, isrAt_uart, uartClearOverrun_rxHw]
    omega
  calc runHandlerFor (k + 2) (s.isrAt .h2Test)
    _ = runHandlerFor (k + 1) (s.isrAt .h2Clear) := runHandlerFor_isrAt (by simp [isrMicro, ho])
    _ = runHandlerFor k ((uartClearOverrun s).isrAt .h3Test) := runHandlerFor_isrAt rfl
    _ = runHandlerFor (k + 1) ((uartClearOverrun s).isrAt .h3Test) :=
      runHandlerFor_of_enough rfl henough (by omega)
    _ = runHandlerFor (k + 2) ((uartClearOverrun s).isrAt .h2Test) := (runHandlerFor_isrAt rfl).symm

/-- A handler run that has not passed the overrun service comes out as it does with the flag cleared before. -/
theorem runHandlerFor_uartClearOverrun {n : Nat} {op : IsrOp} {s t : State} (hop : s.isrOp = some op)
    (hph : op.receives = true ∨ op = .h2Test) (ho : s.uart.overrun = true) (hn : s.handlerLeft op ≤ n)
    (h : runHandlerFor n s = .next t) : runHandlerFor n (uartClearOverrun s) = .next t := by
  induction n generalizing op s with
  | zero => have := s.handlerLeft_pos op; omega
  | succ n ih =>
    rcases hph with hr | rfl
    · obtain ⟨u, hu, -⟩ := andThen_eq_next.1 h
      have hmicro : isrMicro op s = .next u := isrStep_of_isrOp hop ▸ hu
      obtain ⟨op', hop', hph'⟩ := isrMicro_of_receives hr hmicro
      have hclear : isrStep (uartClearOverrun s) = .next (uartClearOverrun u) :=
        (isrStep_of_isrOp (s := uartClearOverrun s) hop).trans (isrMicro_uartClearOverrun hr hmicro)
      have hlt : u.handlerLeft op' < s.handlerLeft op := by
        rcases isrMicro_handlerLeft hmicro with hnone | ⟨op'', hop'', hlt⟩
        · simp [hop'] at hnone
        · cases hop'.symm.trans hop''
          exact hlt
      rw [runHandlerFor_more hu hop'] at h
      rw [runHandlerFor_more hclear hop']
      exact ih hop' hph' ((isrMicro_overrun_of_receives hr hmicro).trans ho) (by omega) h
    · have hrun := runHandlerFor_h2Test_uartClearOverrun ho hn
      rw [← uartClearOverrun_isrAt, isrAt_self hop, h] at hrun
      exact hrun.symm

/-! A whole handler run (R143, R144). -/

theorem exec_isr_eq_next {s t : State} :
    exec .isr s = .next t ↔ s.handlerEnabled = true ∧ runHandler (s.isrAt .h1Test) = .next t := by
  constructor
  · intro h
    obtain ⟨a, ha, e⟩ := andThen_eq_next.1 h
    obtain ⟨hen, rfl⟩ := enterHandler_eq_next.1 ha
    exact ⟨hen, e⟩
  · rintro ⟨hen, h⟩
    exact andThen_eq_next.2 ⟨_, enterHandler_eq_next.2 ⟨hen, rfl⟩, h⟩

/-- The overrun does not change what a handler run comes to. -/
theorem runHandler_uartClearOverrun {s t : State} (ho : s.uart.overrun = true)
    (h : runHandler (s.isrAt .h1Test) = .next t) : runHandler ((uartClearOverrun s).isrAt .h1Test) = .next t := by
  have henough : (s.isrAt .h1Test).handlerLeft .h1Test ≤ 9 * s.uart.rxHw.length + 16 := by
    simp [State.handlerLeft, State.bytesAfter, IsrOp.left]
  exact runHandlerFor_uartClearOverrun (s := s.isrAt .h1Test) rfl (.inl rfl) ho henough h

/-- A handler run with no service to give changes nothing. -/
theorem runHandler_of_nothing_to_do {s : State} (hrx : s.rxReady = false) (ho : s.uart.overrun = false)
    (htx : s.irqTx = false) : runHandler (s.isrAt .h1Test) = .next (leaveHandler s) := by
  have hrx' : (s.isrAt .h1Test).rxReady = false := hrx
  have htx' : ((s.isrAt .h3Test).txArmed && (s.isrAt .h3Test).txEmpty) = false := htx
  have hh1 : isrMicro .h1Test (s.isrAt .h1Test) = .next (s.isrAt .h2Test) := by simp [isrMicro, hrx']
  have hh2 : isrMicro .h2Test (s.isrAt .h2Test) = .next (s.isrAt .h3Test) := by simp [isrMicro, ho]
  have hh3 : isrMicro .h3Test (s.isrAt .h3Test) = .next (s.isrAt .h4) := by simp only [isrMicro, htx']; rfl
  rw [runHandler, runHandlerFor_isrAt hh1, runHandlerFor_isrAt hh2, runHandlerFor_isrAt hh3]
  exact runHandlerFor_last rfl rfl

theorem handlerEnabled_iff {s : State} :
    s.handlerEnabled = true ↔ s.initialized = true ∧ (s.irqRx = true ∨ s.irqOvr = true ∨ s.irqTx = true) ∧
      s.irqMasked = false ∧ s.isrOp = none := by
  simp [State.handlerEnabled, State.irqPending, and_assoc, or_assoc]

/-- Where an enabled handler is no longer enabled once the overrun flag is cleared, the overrun alone requested it
(R21, R142). -/
theorem only_overrun_requests {s : State} (hen : s.handlerEnabled = true)
    (hclear : (uartClearOverrun s).handlerEnabled = false) :
    s.rxReady = false ∧ s.irqTx = false ∧ s.isrOp = none := by
  obtain ⟨hini, hreq, hmask, hisr⟩ := handlerEnabled_iff.1 hen
  have hother : ¬(s.irqRx = true ∨ s.irqTx = true) := fun hor =>
    Bool.eq_false_iff.1 hclear (handlerEnabled_iff.2 ⟨hini, hor.imp_right .inr, hmask, hisr⟩)
  obtain ⟨hrx, htx⟩ := not_or.1 hother
  obtain ⟨hrxie, -⟩ : s.uart.rxie = true ∧ s.uart.overrun = true := by simpa [State.irqOvr, hrx, htx] using hreq
  exact ⟨by simpa [State.irqRx, hrxie] using hrx, by simpa using htx, hisr⟩

/-- Settles O55: the run is the one that begins with the flag cleared, and where nothing else requested it, that run has
no service to give. -/
theorem overrunIsClearedSilently : Obligations.OverrunIsClearedSilently := by
  intro s t ho h
  obtain ⟨hen, hrun⟩ := exec_isr_eq_next.1 h
  have hclear := runHandler_uartClearOverrun ho hrun
  refine ⟨runHandlerFor_induct isrStep_overrun_eq_false rfl hclear, fun hen' => exec_isr_eq_next.2 ⟨hen', hclear⟩,
    fun hoff => ?_⟩
  obtain ⟨hrx, htx, hisr⟩ := only_overrun_requests hen hoff
  rw [runHandler_of_nothing_to_do (s := uartClearOverrun s) hrx rfl htx] at hclear
  cases hclear
  simp [leaveHandler, uartClearOverrun, hisr]

end Sys2Proof.Machine
end

/-! Proofs of the family of spec/70_reset_and_hazards.md. -/

section
namespace Sys2Proof.Machine

section
variable {s : State} {baud : Word}

/-- A `TP.INIT` of an idle block begins at `I1`, whatever the rate: it has no precondition (R101). -/
theorem startInstr_tpInit_of_idle (hi : s.idle = true) :
    startInstr (.tpInit baud) s = .next (s.mainAt (.tpInit (baudOperand baud) .i1)) := by
  obtain ⟨hmain, hisr⟩ := idle_iff.1 hi
  exact issueMain_eq_next.2 ⟨hmain, hisr, rfl⟩

/-- `I1` on an initialised block answers false, and the operation is over before the rate is looked at (R101). -/
theorem mainStep_tpInit_i1_of_initialized {n : Nat} (hini : s.initialized = true) :
    mainStep (s.mainAt (.tpInit n .i1)) = .next ((s.mainAt (.tpInit n .i1)).mainReturn (boolResult false)) :=
  if_pos hini

/-- An operation of an idle block that begins and returns with nothing in between has written its result only. -/
theorem mainReturn_mainAt_of_idle (hi : s.idle = true) (op : MainOp) (v : Word) :
    (s.mainAt op).mainReturn v = { s with res := v } := by
  obtain ⟨hmain, -⟩ := idle_iff.1 hi
  simp [State.mainAt, State.mainReturn, hmain]

/-- `TP.INIT` on an initialised block is its one micro-step `I1` (R102, R188). -/
theorem exec_tpInit_of_initialized (hi : s.idle = true) (hini : s.initialized = true) :
    exec (.tpInit baud) s = .next { s with res := boolResult false } := by
  calc exec (.tpInit baud) s
    _ = runMain (s.mainAt (.tpInit (baudOperand baud) .i1)) := by
      rw [exec_of_main rfl, startInstr_tpInit_of_idle hi, andThen_next]
    _ = .next ((s.mainAt (.tpInit (baudOperand baud) .i1)).mainReturn (boolResult false)) :=
      runMainFor_last (mainStep_tpInit_i1_of_initialized hini) rfl
    _ = .next { s with res := boolResult false } := by rw [mainReturn_mainAt_of_idle hi]

end

/-- `RB.INIT` goes on only on a block that is not initialised (R80, item 2). -/
theorem initialized_eq_false_of_exec_rbInit {sel : RingSel} {cap : Word} {s t : State}
    (h : exec (.rbInit sel cap) s = .next t) : s.initialized = false := by
  rw [exec_of_main rfl] at h
  obtain ⟨_, hstart, -⟩ := andThen_eq_next.1 h
  exact (whileUnowned_eq_next.1 hstart).1

/-- Settles O45: `TP.INIT` returns false at `I1`, and `RB.INIT` is not issued while the transport owns the rings. -/
theorem secondInitHasNoSideEffects : Obligations.SecondInitHasNoSideEffects := by
  intro s baud cap sel hi hini
  refine ⟨exec_tpInit_of_initialized hi hini, fun t h => ?_⟩
  have hnot : s.initialized = false := initialized_eq_false_of_exec_rbInit h
  exact absurd hini (Bool.eq_false_iff.1 hnot)

end Sys2Proof.Machine
end

/-! What a step of the machine can be, and the principle behind every statement about all steps. -/

section
namespace Sys2Proof.Machine

/-! A step is one of four things (R50, R56): the reset event, a micro-step, a word, or a refusal of the trace's
bytes. -/

@[simp] theorem nextInstr_of_micro {s : State} {ts : List Turn} (h : s.turns = .micro :: ts) : s.nextInstr = none := by
  simp [State.nextInstr, h]

/-- The turns that take a word: they all read the trace alike. -/
def State.takesWord (s : State) (ts : List Turn) : Prop :=
  (s.turns = [] ∧ ts = []) ∨ s.turns = .whole :: ts ∨ s.turns = .start :: ts

theorem nextInstr_of_takesWord {s : State} {ts : List Turn} (h : s.takesWord ts) :
    s.nextInstr =
      match decode s.cfg.hasStats s.trace with
      | .ok (i, _) => if mustWait i s then none else some i
      | .error _ => none := by
  obtain ⟨h, -⟩ | h | h := h <;> simp only [State.nextInstr, h] <;> rfl

theorem resets_of_takesWord {s : State} {ts : List Turn} (h : s.takesWord ts) : s.resets = false := by
  obtain ⟨h, -⟩ | h | h := h <;> simp [State.resets, h]

theorem runNext_cases {s : State} {ts : List Turn} (run : Instr → State → Run State) (hturns : s.takesWord ts) :
    (∃ turns, s.nextInstr = none ∧ runNext run ts s = advance { s with turns := turns }) ∨
    (∃ why, runNext run ts s = .refused why) ∨
    (∃ i bytes, s.nextInstr = some i ∧ mustWait i s = false ∧
      runNext run ts s = run i { s with trace := bytes, turns := ts }) := by
  rw [nextInstr_of_takesWord hturns]
  cases hempty : s.trace.isEmpty with
  | true =>
    have hdec : decode s.cfg.hasStats s.trace = .error .truncated := by rw [List.isEmpty_iff.1 hempty]; rfl
    exact .inl ⟨ts, by rw [hdec], by simp [runNext, hempty]⟩
  | false =>
    cases hdec : decode s.cfg.hasStats s.trace with
    | error why => exact .inr (.inl ⟨.reservedWord why, by simp [runNext, hempty, hdec]⟩)
    | ok word =>
      obtain ⟨i, bytes⟩ := word
      cases hwait : mustWait i s with
      | true => exact .inl ⟨s.turns, by simp [hwait], by simp [runNext, hempty, hdec, hwait]⟩
      | false => exact .inr (.inr ⟨i, bytes, by simp [hwait], hwait, by simp [runNext, hempty, hdec, hwait]⟩)

/-- The step of a turn that takes a word, `run` being what is done with it: no reset event. -/
theorem step_cases_of_takesWord {s : State} {ts : List Turn} {run : Instr → State → Run State}
    (hrun : run = exec ∨ run = startInstr) (hturns : s.takesWord ts) (hstep : step s = runNext run ts s) :
    (∃ turns, s.nextInstr = none ∧ step s = advance { s with turns := turns }) ∨
    (∃ why, step s = .refused why) ∨
    (∃ i bytes turns, s.nextInstr = some i ∧ mustWait i s = false ∧
      (step s = exec i { s with trace := bytes, turns := turns } ∨
        step s = startInstr i { s with trace := bytes, turns := turns })) := by
  rw [hstep]
  rcases runNext_cases run hturns with h | h | ⟨i, bytes, hn, hw, e⟩
  · exact .inl h
  · exact .inr (.inl h)
  · refine .inr (.inr ⟨i, bytes, ts, hn, hw, ?_⟩)
    rcases hrun with rfl | rfl
    · exact .inl e
    · exact .inr e

/-- Everything a step can be. -/
theorem step_cases (s : State) :
    (∃ turns, s.resets = true ∧ step s = .next (resetEvent turns s)) ∨
    s.resets = false ∧
      ((∃ turns, s.nextInstr = none ∧ step s = advance { s with turns := turns }) ∨
      (∃ why, step s = .refused why) ∨
      (∃ i bytes turns, s.nextInstr = some i ∧ mustWait i s = false ∧
        (step s = exec i { s with trace := bytes, turns := turns } ∨
          step s = startInstr i { s with trace := bytes, turns := turns }))) := by
  cases hturns : s.turns with
  | nil =>
    have hw : s.takesWord [] := .inl ⟨hturns, rfl⟩
    exact .inr ⟨resets_of_takesWord hw,
      step_cases_of_takesWord (.inl rfl) hw (by simp [step, takeTurn, hturns])⟩
  | cons turn ts =>
    cases turn with
    | whole =>
      have hw : s.takesWord ts := .inr (.inl hturns)
      exact .inr ⟨resets_of_takesWord hw,
        step_cases_of_takesWord (.inl rfl) hw (by simp [step, takeTurn, hturns])⟩
    | start =>
      have hw : s.takesWord ts := .inr (.inr hturns)
      exact .inr ⟨resets_of_takesWord hw,
        step_cases_of_takesWord (.inr rfl) hw (by simp [step, takeTurn, hturns])⟩
    | micro =>
      exact .inr ⟨by simp [State.resets, hturns],
        .inl ⟨ts, nextInstr_of_micro hturns, by simp [step, takeTurn, hturns]⟩⟩
    | reset => exact .inl ⟨ts, by simp [State.resets, hturns], by simp [step, takeTurn, hturns]⟩

/-! What a micro-step of MAIN does to the state beside moving MAIN, said once. -/

/-- MAIN's operation at its first micro-step: what stays the same of it until it returns. -/
def MainOp.first : MainOp → MainOp
  | .rbInit sel cap => .rbInit sel cap
  | .rbIsFull sel _ => .rbIsFull sel .readWr
  | .rbIsEmpty sel _ => .rbIsEmpty sel .readWr
  | .rbEnqueue sel b _ => .rbEnqueue sel b .e1
  | .rbDequeue sel _ => .rbDequeue sel .q1
  | .rbFreeSlots sel _ => .rbFreeSlots sel .readWr
  | .rbResetStats sel _ => .rbResetStats sel .t1
  | .rbMinFree sel => .rbMinFree sel
  | .tpInit baud _ => .tpInit baud .i1
  | .tpWrite b _ => .tpWrite b (.w1 .e1)
  | .tpRead _ => .tpRead (.d1 .q1)
  | .irqMask => .irqMask
  | .irqUnmask => .irqUnmask

/-- The operation of MAIN a word begins, if it is one of MAIN's (R62). -/
def firstOp : Instr → Option MainOp
  | .rbInit sel cap => some (.rbInit sel (capacityOperand cap))
  | .rbIsFull sel => some (.rbIsFull sel .readWr)
  | .rbIsEmpty sel => some (.rbIsEmpty sel .readWr)
  | .rbEnqueue sel b => some (.rbEnqueue sel b .e1)
  | .rbDequeue sel => some (.rbDequeue sel .q1)
  | .rbFreeSlots sel => some (.rbFreeSlots sel .readWr)
  | .rbResetStats sel => some (.rbResetStats sel .t1)
  | .rbMinFree sel => some (.rbMinFree sel)
  | .tpInit baud => some (.tpInit (baudOperand baud) .i1)
  | .tpWrite b => some (.tpWrite b (.w1 .e1))
  | .tpRead => some (.tpRead (.d1 .q1))
  | .irqMask => some .irqMask
  | .irqUnmask => some .irqUnmask
  | .isr => none
  | .devRxArrive _ => none
  | .devTxShift => none

theorem issuedByMain_of_firstOp {i : Instr} {op : MainOp} (h : firstOp i = some op) : issuedByMain i = true := by
  cases i with
  | isr | devRxArrive | devTxShift => cases h
  | _ => rfl

theorem first_of_firstOp {i : Instr} {op : MainOp} (h : firstOp i = some op) : op.first = op := by
  cases i <;> cases h <;> rfl

/-- What a micro-step of MAIN in the operation `op` makes of the rest of the state (R81 to R109). -/
inductive MainEffect (s : State) : MainOp → State → Prop where
  | nothing (op : MainOp) (h : ∀ b st, op ≠ .tpWrite b (.w1 st)) : MainEffect s op s
  | created (sel : RingSel) (cap : Nat) :
    MainEffect s (.rbInit sel cap) (s.setRing sel ((s.ring sel).create s.cfg.hasStats cap))
  | enqueued {sel : RingSel} {b : Byte} {st : EnqStep} {s' : State} {p : Progress EnqStep Bool}
    (h : enqueueStep sel b st s = .next (s', p)) : MainEffect s (.rbEnqueue sel b st) s'
  | dequeued {sel : RingSel} {st : DeqStep} {s' : State} {p : Progress DeqStep (Option Byte)}
    (h : dequeueStep sel st s = .next (s', p)) : MainEffect s (.rbDequeue sel st) s'
  | restarted (sel : RingSel) (w d n : Nat) : MainEffect s (.rbResetStats sel (.t3 w d)) (s.setMinFree sel n)
  | broughtUp (baud : Nat) :
    MainEffect s (.tpInit baud .i3)
      { s with
        rx := s.rx.create s.cfg.hasStats s.cfg.capRx
        tx := s.tx.create s.cfg.hasStats s.cfg.capTx
        txArmed := false }
  | divided (baud : Nat) :
    MainEffect s (.tpInit baud .i4) { s with uart := { s.uart with brr := Config.baudDivisor baud } }
  | enabled (baud : Nat) :
    MainEffect s (.tpInit baud .i5)
      { s with uart := { s.uart with en := true, rxie := true }, initialized := true }
  | written {b : Byte} {st : EnqStep} {s' : State} {p : Progress EnqStep Bool}
    (h : enqueueStep .tx b st s = .next (s', p)) : MainEffect s (.tpWrite b (.w1 st)) s'
  | armed (b : Byte) : MainEffect s (.tpWrite b (.w4 false)) { s with txArmed := true }
  | read {st : DeqStep} {s' : State} {p : Progress DeqStep (Option Byte)}
    (h : dequeueStep .rx st s = .next (s', p)) : MainEffect s (.tpRead (.d1 st)) s'
  | masked : MainEffect s .irqMask { s with irqMasked := true }
  | unmasked : MainEffect s .irqUnmask { s with irqMasked := false }

/-- MAIN has moved on from `s'`: it stands at a micro-step of the same operation, or the operation has returned. -/
inductive MainMoved (op : MainOp) (s' : State) : State → Prop where
  | goesOn (op' : MainOp) (h : op'.first = op.first) : MainMoved op s' (s'.mainAt op')
  | returns (v : Word) : MainMoved op s' (s'.mainReturn v)

theorem mainGoesOn_moved {σ ρ : Type} {op : MainOp} {o : Run (State × Progress σ ρ)} {at' : σ → MainOp}
    {k : ρ → State → Run State} {t : State} (h : mainGoesOn o at' k = .next t)
    (hat : ∀ st, (at' st).first = op.first) (hk : ∀ v a, k v a = .next t → MainMoved op a t) :
    ∃ s' p, o = .next (s', p) ∧ MainMoved op s' t := by
  obtain ⟨a, st, ha, rfl⟩ | ⟨a, v, ha, e⟩ := mainGoesOn_eq_next.1 h
  · exact ⟨a, _, ha, .goesOn _ (hat st)⟩
  · exact ⟨a, _, ha, hk v a e⟩

theorem query_moved {sel : RingSel} {answer : Nat → Nat → Nat → Word} {st : QueryStep} {s t : State} {op : MainOp}
    {at' : QueryStep → MainOp}
    (h : mainGoesOn (queryStep sel answer st s) at' (fun v s' => .next (s'.mainReturn v)) = .next t)
    (hat : ∀ st, (at' st).first = op.first) (hop : ∀ b st, op ≠ .tpWrite b (.w1 st)) :
    ∃ s', MainEffect s op s' ∧ MainMoved op s' t := by
  obtain ⟨s', p, ho, hm⟩ := mainGoesOn_moved h hat fun v a e => by cases e; exact .returns v
  obtain ⟨rfl, -⟩ := queryStep_cases ho
  exact ⟨_, .nothing op hop, hm⟩

/-- Everything a micro-step of MAIN can do. -/
theorem mainMicro_cases {op : MainOp} {s t : State} (h : mainMicro op s = .next t) :
    ∃ s', MainEffect s op s' ∧ MainMoved op s' t := by
  cases op with
  | rbInit sel cap => cases h; exact ⟨_, .created sel cap, .returns _⟩
  | rbIsFull sel st => exact query_moved h (fun _ => rfl) nofun
  | rbIsEmpty sel st => exact query_moved h (fun _ => rfl) nofun
  | rbFreeSlots sel st => exact query_moved h (fun _ => rfl) nofun
  | rbEnqueue sel b st =>
    obtain ⟨s', p, ho, hm⟩ := mainGoesOn_moved (op := .rbEnqueue sel b st) h (fun _ => rfl)
      fun v a e => by cases e; exact .returns _
    exact ⟨s', .enqueued ho, hm⟩
  | rbDequeue sel st =>
    obtain ⟨s', p, ho, hm⟩ := mainGoesOn_moved (op := .rbDequeue sel st) h (fun _ => rfl)
      fun v a e => by cases e; exact .returns _
    exact ⟨s', .dequeued ho, hm⟩
  | rbResetStats sel st =>
    cases st with
    | t1 =>
      simp only [mainMicro, microRbResetStats] at h
      obtain ⟨-, e⟩ := withValid_eq_next.1 h
      cases e
      exact ⟨s, .nothing _ nofun, .goesOn _ rfl⟩
    | t2 w => cases h; exact ⟨s, .nothing _ nofun, .goesOn _ rfl⟩
    | t3 w d => cases h; exact ⟨_, .restarted sel w d _, .goesOn _ rfl⟩
    | t4 => cases h; exact ⟨s, .nothing _ nofun, .returns _⟩
  | rbMinFree sel =>
    simp only [mainMicro, microRbMinFree] at h
    obtain ⟨-, e⟩ := withValid_eq_next.1 h
    cases e
    exact ⟨s, .nothing _ nofun, .returns _⟩
  | tpInit baud st =>
    cases st with
    | i1 =>
      simp only [mainMicro, microTpInit] at h
      split at h <;> cases h
      · exact ⟨s, .nothing _ nofun, .returns _⟩
      · exact ⟨s, .nothing _ nofun, .goesOn _ rfl⟩
    | i2 =>
      simp only [mainMicro, microTpInit] at h
      split at h <;> cases h
      · exact ⟨s, .nothing _ nofun, .returns _⟩
      · exact ⟨s, .nothing _ nofun, .goesOn _ rfl⟩
    | i3 => cases h; exact ⟨_, .broughtUp baud, .goesOn _ rfl⟩
    | i4 => cases h; exact ⟨_, .divided baud, .goesOn _ rfl⟩
    | i5 => cases h; exact ⟨_, .enabled baud, .goesOn _ rfl⟩
    | i6 => cases h; exact ⟨s, .nothing _ nofun, .returns _⟩
  | tpWrite b st =>
    cases st with
    | w1 e =>
      obtain ⟨s', p, ho, hm⟩ := mainGoesOn_moved (op := .tpWrite b (.w1 e)) h (fun _ => rfl)
        fun v a e => by cases e; exact .goesOn _ rfl
      exact ⟨s', .written ho, hm⟩
    | w2 ok => cases h; exact ⟨s, .nothing _ nofun, .goesOn _ rfl⟩
    | w3 => cases h; exact ⟨s, .nothing _ nofun, .goesOn _ rfl⟩
    | w4 armed =>
      cases h
      cases armed
      · exact ⟨_, .armed b, .goesOn _ rfl⟩
      · exact ⟨s, .nothing _ nofun, .goesOn _ rfl⟩
    | w5 => cases h; exact ⟨s, .nothing _ nofun, .returns _⟩
  | tpRead st =>
    cases st with
    | d1 q =>
      obtain ⟨s', p, ho, hm⟩ := mainGoesOn_moved (op := .tpRead (.d1 q)) h (fun _ => rfl)
        fun v a e => by cases e; exact .goesOn _ rfl
      exact ⟨s', .read ho, hm⟩
    | d2 v => cases h; exact ⟨s, .nothing _ nofun, .returns _⟩
  | irqMask => cases h; exact ⟨_, .masked, .returns _⟩
  | irqUnmask => cases h; exact ⟨_, .unmasked, .returns _⟩

end Sys2Proof.Machine
end

/-! What each context leaves unchanged (spec/10_state.md R12, spec/20_memory.md R48), and the statements that rest on
nothing more. -/

section
namespace Sys2Proof.Machine

/-! The parts. -/

/-- What an enqueue leaves of the ring it works on, whatever the ring: its flag, its size, the consumer's index, and
every slot ever written stays written. -/
structure Ring.EnqueueFrame (r r' : Ring) : Prop where
  valid : r'.valid = r.valid
  cap : r'.cap = r.cap
  rd : r'.rd = r.rd
  minFree : r'.minFree ≤ r.minFree
  written : ∀ slot, (memGet r.buf slot).isSome = true → (memGet r'.buf slot).isSome = true

theorem Ring.EnqueueFrame.refl (r : Ring) : r.EnqueueFrame r := ⟨rfl, rfl, rfl, Nat.le_refl _, fun _ h => h⟩

theorem isSome_memGet_memPut {m : Memory} {slot : Nat} (i : Nat) (b : Byte) (h : (memGet m slot).isSome = true) :
    (memGet (memPut m i b) slot).isSome = true := by
  rw [memGet_memPut]
  split
  · rfl
  · exact h

theorem enqueueStep_frame {sel : RingSel} {byte : Byte} {st : EnqStep} {s s' : State} {p : Progress EnqStep Bool}
    (h : enqueueStep sel byte st s = .next (s', p)) :
    ∃ r', s' = s.setRing sel r' ∧ (s.ring sel).EnqueueFrame r' := by
  have same : s = s.setRing sel (s.ring sel) := (setRing_self s sel).symm
  rcases enqueueStep_cases h with ⟨-, -, rfl, -⟩ | ⟨w, -, rfl, -⟩ | ⟨w, ds, -, -, rfl, -⟩ |
    ⟨w, ds, -, -, rfl, -⟩ | ⟨w, ds, -, -, -, rfl, -⟩ | ⟨w, ds, -, rfl, -⟩ | ⟨w, ds, -, rfl, -⟩ | ⟨-, rfl, -⟩
  · exact ⟨_, same, .refl _⟩
  · exact ⟨_, same, .refl _⟩
  · exact ⟨_, same, .refl _⟩
  · exact ⟨_, same, .refl _⟩
  · exact ⟨_, rfl, rfl, rfl, rfl, Nat.le_refl _, fun _ => isSome_memGet_memPut w byte⟩
  · exact ⟨_, rfl, rfl, rfl, rfl, Nat.le_refl _, fun _ h => h⟩
  · obtain ⟨n, hn, e⟩ := sampleMinFree_eq sel (incMod w (s.ring sel).cap) ds s
    exact ⟨_, e, rfl, rfl, rfl, hn, fun _ h => h⟩
  · exact ⟨_, same, .refl _⟩

/-- A dequeue writes the read index and nothing else (R85). -/
theorem dequeueStep_frame {sel : RingSel} {st : DeqStep} {s s' : State} {p : Progress DeqStep (Option Byte)}
    (h : dequeueStep sel st s = .next (s', p)) : ∃ d, s' = s.setRing sel { s.ring sel with rd := d } := by
  have same : s = s.setRing sel { s.ring sel with rd := (s.ring sel).rd } := (setRing_self s sel).symm
  rcases dequeueStep_cases h with ⟨-, -, rfl, -⟩ | ⟨d, -, rfl, -⟩ | ⟨d, ws, -, -, rfl, -⟩ |
    ⟨d, ws, -, -, rfl, -⟩ | ⟨d, b, -, -, -, -, rfl, -⟩ | ⟨d, b, -, rfl, -⟩ | ⟨b, -, rfl, -⟩
  · exact ⟨_, same⟩
  · exact ⟨_, same⟩
  · exact ⟨_, same⟩
  · exact ⟨_, same⟩
  · exact ⟨_, same⟩
  · exact ⟨_, rfl⟩
  · exact ⟨_, same⟩

/-! MAIN. -/

/-- What MAIN never touches. -/
structure State.MainFrame (s t : State) : Prop where
  cfg : t.cfg = s.cfg
  isrOp : t.isrOp = s.isrOp
  rxHw : t.uart.rxHw = s.uart.rxHw
  overrun : t.uart.overrun = s.uart.overrun
  tdr : t.uart.tdr = s.uart.tdr
  wireOut : t.wireOut = s.wireOut
  wireInLost : t.wireInLost = s.wireInLost

theorem MainEffect.frame {s s' : State} {op : MainOp} (h : MainEffect s op s') : s.MainFrame s' := by
  have ring : ∀ (sel : RingSel) (r : Ring), s.MainFrame (s.setRing sel r) := fun sel r =>
    ⟨by simp, by simp, by simp, by simp, by simp, by simp, by simp⟩
  cases h with
  | enqueued h => obtain ⟨r', rfl, -⟩ := enqueueStep_frame h; exact ring _ r'
  | written h => obtain ⟨r', rfl, -⟩ := enqueueStep_frame h; exact ring _ r'
  | dequeued h => obtain ⟨d, rfl⟩ := dequeueStep_frame h; exact ring _ _
  | read h => obtain ⟨d, rfl⟩ := dequeueStep_frame h; exact ring _ _
  | created sel cap => exact ring _ _
  | restarted sel w d n => exact ring _ _
  | nothing | broughtUp | divided | enabled | armed | masked | unmasked => exact ⟨rfl, rfl, rfl, rfl, rfl, rfl, rfl⟩

theorem MainMoved.frame {s s' t : State} {op : MainOp} (h : MainMoved op s' t) (hf : s.MainFrame s') :
    s.MainFrame t := by
  obtain ⟨cfg, isrOp, rxHw, overrun, tdr, wireOut, wireInLost⟩ := hf
  cases h <;> exact ⟨cfg, isrOp, rxHw, overrun, tdr, wireOut, wireInLost⟩

/-- A step of MAIN leaves its idle state as it is, or is a micro-step of its operation. -/
theorem mainStep_cases {s t : State} (h : mainStep s = .next t) :
    (s.mainOp = none ∧ t = s) ∨ ∃ op, s.mainOp = some op ∧ mainMicro op s = .next t := by
  unfold mainStep at h
  split at h
  · next hop => cases h; exact .inl ⟨hop, rfl⟩
  · next op hop => exact .inr ⟨op, hop, h⟩

theorem mainStep_frame {s t : State} (h : mainStep s = .next t) : s.MainFrame t := by
  obtain ⟨-, rfl⟩ | ⟨op, -, h⟩ := mainStep_cases h
  · exact ⟨rfl, rfl, rfl, rfl, rfl, rfl, rfl⟩
  · obtain ⟨s', he, hm⟩ := mainMicro_cases h
    exact hm.frame he.frame

/-! The handler. -/

/-- What a micro-step of the handler at `op` makes of the state beside moving the handler (R144, R146 to R148). -/
inductive HandlerEffect (s : State) : IsrOp → State → Prop where
  | nothing (op : IsrOp) : HandlerEffect s op s
  | taken {b : Byte} {rest : List Byte} (h : s.uart.rxHw = b :: rest) :
    HandlerEffect s .h1Read { s with uart := { s.uart with rxHw := rest } }
  | enqueued {b : Byte} {st : EnqStep} {s' : State} {p : Progress EnqStep Bool}
    (h : enqueueStep .rx b st s = .next (s', p)) : HandlerEffect s (.h1Enqueue b st) s'
  | lost (b : Byte) (w ds : Nat) :
    HandlerEffect s (.h1Enqueue b (.e3 w ds)) { s with wireInLost := s.wireInLost + 1 }
  | cleared : HandlerEffect s .h2Clear (uartClearOverrun s)
  | dequeued {st : DeqStep} {s' : State} {p : Progress DeqStep (Option Byte)}
    (h : dequeueStep .tx st s = .next (s', p)) : HandlerEffect s (.h3Dequeue st) s'
  | handedOver (b : Byte) (h : s.uart.tdr = none) :
    HandlerEffect s (.h3Result (some b)) { s with uart := { s.uart with tdr := some b } }
  | disarmed : HandlerEffect s (.h3Result none) { s with txArmed := false }

/-- The handler has moved on from `s'`, or has returned. -/
inductive HandlerMoved (s' : State) : State → Prop where
  | goesOn (op' : IsrOp) : HandlerMoved s' (s'.isrAt op')
  | returns : HandlerMoved s' (leaveHandler s')

/-- Everything a micro-step of the handler can do. -/
theorem isrMicro_cases {op : IsrOp} {s t : State} (h : isrMicro op s = .next t) :
    ∃ s', HandlerEffect s op s' ∧ HandlerMoved s' t := by
  cases op with
  | h1Test => cases h; exact ⟨s, .nothing _, .goesOn _⟩
  | h1Read =>
    obtain ⟨⟨a, b⟩, ha, e⟩ := andThen_eq_next.1 h
    obtain ⟨rest, hrest, rfl⟩ := uartReadRx_eq_next.1 ha
    cases e
    exact ⟨_, .taken hrest, .goesOn _⟩
  | h1Enqueue b st =>
    obtain ⟨a, st', ha, rfl⟩ | ⟨a, ok, ha, e⟩ := isrGoesOn_eq_next.1 h
    · exact ⟨a, .enqueued ha, .goesOn _⟩
    · cases e
      cases ok with
      | true => exact ⟨a, .enqueued ha, .goesOn _⟩
      | false =>
        rcases enqueueStep_cases ha with ⟨-, -, -, e⟩ | ⟨w, -, -, e⟩ | ⟨w, ds, rfl, -, rfl, -⟩ | ⟨w, ds, -, -, -, e⟩ |
          ⟨w, ds, -, -, -, -, e⟩ | ⟨w, ds, -, -, e⟩ | ⟨w, ds, -, -, e⟩ | ⟨-, -, e⟩
        case inr.inr.inl => exact ⟨_, .lost b w ds, .goesOn _⟩
        all_goals cases e
  | h2Test => cases h; exact ⟨s, .nothing _, .goesOn _⟩
  | h2Clear => cases h; exact ⟨_, .cleared, .goesOn _⟩
  | h3Test => cases h; exact ⟨s, .nothing _, .goesOn _⟩
  | h3Dequeue st =>
    obtain ⟨a, st', ha, rfl⟩ | ⟨a, v, ha, e⟩ := isrGoesOn_eq_next.1 h
    · exact ⟨a, .dequeued ha, .goesOn _⟩
    · cases e
      exact ⟨a, .dequeued ha, .goesOn _⟩
  | h3Result v =>
    cases v with
    | none => cases h; exact ⟨_, .disarmed, .goesOn _⟩
    | some b =>
      obtain ⟨a, ha, e⟩ := andThen_eq_next.1 h
      obtain ⟨hfree, rfl⟩ := uartWriteTx_eq_next.1 ha
      cases e
      exact ⟨_, .handedOver b hfree, .goesOn _⟩
  | h4 => cases h; exact ⟨s, .nothing _, .returns⟩

/-- What the handler never touches, the array and the indices of the rings apart. -/
structure State.HandlerFrame (s t : State) : Prop where
  cfg : t.cfg = s.cfg
  mainOp : t.mainOp = s.mainOp
  res : t.res = s.res
  irqMasked : t.irqMasked = s.irqMasked
  initialized : t.initialized = s.initialized
  en : t.uart.en = s.uart.en
  rxie : t.uart.rxie = s.uart.rxie
  brr : t.uart.brr = s.uart.brr
  wireOut : t.wireOut = s.wireOut
  trace : t.trace = s.trace
  turns : t.turns = s.turns
  /-- of `RX` it works as the producer -/
  rx : s.rx.EnqueueFrame t.rx
  /-- of `TX` it moves the read index -/
  tx : ∃ d, t.tx = { s.tx with rd := d }

theorem HandlerEffect.frame {s s' : State} {op : IsrOp} (h : HandlerEffect s op s') : s.HandlerFrame s' := by
  cases h with
  | enqueued h =>
    obtain ⟨r', rfl, hr⟩ := enqueueStep_frame h
    exact ⟨rfl, rfl, rfl, rfl, rfl, rfl, rfl, rfl, rfl, rfl, rfl, hr, _, rfl⟩
  | dequeued h =>
    obtain ⟨d, rfl⟩ := dequeueStep_frame h
    exact ⟨rfl, rfl, rfl, rfl, rfl, rfl, rfl, rfl, rfl, rfl, rfl, .refl _, d, rfl⟩
  | nothing | taken | lost | cleared | handedOver | disarmed =>
    exact ⟨rfl, rfl, rfl, rfl, rfl, rfl, rfl, rfl, rfl, rfl, rfl, .refl _, _, rfl⟩

theorem HandlerMoved.frame {s s' t : State} (h : HandlerMoved s' t) (hf : s.HandlerFrame s') : s.HandlerFrame t := by
  obtain ⟨cfg, mainOp, res, irqMasked, initialized, en, rxie, brr, wireOut, trace, turns, rx, tx⟩ := hf
  cases h <;> exact ⟨cfg, mainOp, res, irqMasked, initialized, en, rxie, brr, wireOut, trace, turns, rx, tx⟩

theorem isrMicro_frame {op : IsrOp} {s t : State} (h : isrMicro op s = .next t) : s.HandlerFrame t := by
  obtain ⟨s', he, hm⟩ := isrMicro_cases h
  exact hm.frame he.frame

theorem isrStep_cases {s t : State} (h : isrStep s = .next t) :
    (s.isrOp = none ∧ t = s) ∨ ∃ op, s.isrOp = some op ∧ isrMicro op s = .next t := by
  unfold isrStep at h
  split at h
  · next hop => cases h; exact .inl ⟨hop, rfl⟩
  · next op hop => exact .inr ⟨op, hop, h⟩

theorem isrStep_frame {s t : State} (h : isrStep s = .next t) : s.HandlerFrame t := by
  obtain ⟨-, rfl⟩ | ⟨op, -, h⟩ := isrStep_cases h
  · exact HandlerEffect.frame (.nothing .h4)
  · exact isrMicro_frame h

/-- The handler moves first, for MAIN is frozen while it runs (R12). -/
theorem advance_of_handler {s : State} (h : s.isrOp.isSome = true) : advance s = isrStep s := by
  simp [advance, h]

theorem advance_of_main {s : State} (h : s.isrOp = none) : advance s = mainStep s := by simp [advance, h]

theorem advance_cases {s t : State} (h : advance s = .next t) :
    (s.isrOp = none ∧ mainStep s = .next t) ∨ isrStep s = .next t := by
  unfold advance at h
  split at h
  · exact .inr h
  · next hi => exact .inl ⟨by simpa using hi, h⟩

/-- Settles O10: the handler's frame, field by field. -/
theorem handlerLeavesMainFrozen : Obligations.HandlerLeavesMainFrozen := by
  intro s t hi h
  rw [advance_of_handler hi] at h
  obtain ⟨cfg, mainOp, res, irqMasked, initialized, en, rxie, brr, wireOut, trace, turns, rx, d, tx⟩ := isrStep_frame h
  exact ⟨mainOp, res, irqMasked, initialized, rx.rd, by rw [tx], by rw [tx], by rw [tx], rx.valid, by rw [tx], rx.cap,
    by rw [tx], en, rxie, brr, cfg, wireOut, trace, turns⟩

/-! The beginning of an operation. -/

/-- Everything the beginning of an operation can do: MAIN stands at its first micro-step, the handler at its first test,
or DEV has taken its step. -/
theorem startInstr_cases {i : Instr} {s t : State} (h : startInstr i s = .next t) :
    (∃ op, firstOp i = some op ∧ s.mainOp = none ∧ s.isrOp = none ∧ t = s.mainAt op) ∨
    (i = .isr ∧ s.handlerEnabled = true ∧ t = s.isrAt .h1Test) ∨
    (∃ b, i = .devRxArrive b ∧ uartReceive b s = .next t) ∨
    (i = .devTxShift ∧ uartShift s = .next t) := by
  have issued : ∀ {op : MainOp}, firstOp i = some op → issueMain op s = .next t →
      ∃ op, firstOp i = some op ∧ s.mainOp = none ∧ s.isrOp = none ∧ t = s.mainAt op := by
    intro op hop h
    obtain ⟨hmain, hisr, e⟩ := issueMain_eq_next.1 h
    exact ⟨op, hop, hmain, hisr, e⟩
  have ring : ∀ {sel : RingSel} {op : MainOp}, firstOp i = some op → issueRing sel op s = .next t →
      ∃ op, firstOp i = some op ∧ s.mainOp = none ∧ s.isrOp = none ∧ t = s.mainAt op :=
    fun hop h => issued hop (withValid_eq_next.1 h).2
  cases i with
  | rbInit sel cap =>
    obtain ⟨-, e⟩ := whileUnowned_eq_next.1 h
    split at e
    · exact .inl (issued rfl e)
    · cases e
  | rbIsFull sel => exact .inl (ring rfl h)
  | rbIsEmpty sel => exact .inl (ring rfl h)
  | rbEnqueue sel b => exact .inl (ring rfl (whileUnowned_eq_next.1 h).2)
  | rbDequeue sel => exact .inl (ring rfl (whileUnowned_eq_next.1 h).2)
  | rbFreeSlots sel => exact .inl (ring rfl (withStats_eq_next.1 h).2)
  | rbResetStats sel =>
    obtain ⟨-, e⟩ := withStats_eq_next.1 h
    exact .inl (ring rfl (asStatsProducer_eq_next.1 e).2)
  | rbMinFree sel => exact .inl (ring rfl (withStats_eq_next.1 h).2)
  | tpInit baud => exact .inl (issued rfl h)
  | tpWrite b => exact .inl (issued rfl (whenInitialized_eq_next.1 h).2)
  | tpRead => exact .inl (issued rfl (whenInitialized_eq_next.1 h).2)
  | irqMask => exact .inl (issued rfl h)
  | irqUnmask => exact .inl (issued rfl h)
  | isr =>
    obtain ⟨hen, rfl⟩ := enterHandler_eq_next.1 h
    exact .inr (.inl ⟨rfl, hen, rfl⟩)
  | devRxArrive b => exact .inr (.inr (.inl ⟨b, rfl, h⟩))
  | devTxShift => exact .inr (.inr (.inr ⟨rfl, h⟩))

/-- A word of MAIN run whole that comes to a state began its operation on an idle block and took micro-steps of it. -/
theorem exec_of_firstOp {i : Instr} {op : MainOp} {s t : State} (hop : firstOp i = some op)
    (h : exec i s = .next t) :
    s.mainOp = none ∧ s.isrOp = none ∧ startInstr i s = .next (s.mainAt op) ∧ runMain (s.mainAt op) = .next t := by
  rw [exec_of_main (issuedByMain_of_firstOp hop)] at h
  obtain ⟨a, ha, e⟩ := andThen_eq_next.1 h
  rcases startInstr_cases ha with ⟨op', hop', hmain, hisr, rfl⟩ | ⟨rfl, -⟩ | ⟨b, rfl, -⟩ | ⟨rfl, -⟩
  · cases hop.symm.trans hop'
    exact ⟨hmain, hisr, ha, e⟩
  all_goals cases hop

theorem mainMoved_first {s' t : State} {op op' : MainOp} (h : MainMoved op s' t) (hop : t.mainOp = some op') :
    op'.first = op.first := by
  cases h with
  | goesOn op'' h => cases hop; exact h
  | returns v => cases hop

/-- What every micro-step of an operation keeps holds at the end of the word run whole. -/
theorem exec_main_induct {P : State → Prop} {i : Instr} {op : MainOp} {s t : State} (hop : firstOp i = some op)
    (h : exec i s = .next t) (h0 : P (s.mainAt op))
    (hP : ∀ u v op', P u → u.isrOp = none → u.mainOp = some op' → op'.first = op → mainMicro op' u = .next v → P v) :
    P t := by
  obtain ⟨-, hisr, -, hrun⟩ := exec_of_firstOp hop h
  refine (runMainFor_induct
    (P := fun u => P u ∧ u.isrOp = none ∧ ∀ op', u.mainOp = some op' → op'.first = op) ?_ ⟨h0, hisr, ?_⟩ hrun).1
  · rintro u v ⟨hu, hi, hfirst⟩ huv
    obtain ⟨-, rfl⟩ | ⟨op', hop', hm⟩ := mainStep_cases huv
    · exact ⟨hu, hi, hfirst⟩
    · refine ⟨hP u v op' hu hi hop' (hfirst op' hop') hm, (mainStep_frame huv).isrOp.trans hi, fun op'' hop'' => ?_⟩
      obtain ⟨u', -, hmoved⟩ := mainMicro_cases hm
      exact (mainMoved_first hmoved hop'').trans (hfirst op' hop')
  · rintro _ ⟨⟩
    exact first_of_firstOp hop

theorem startInstr_cfg {i : Instr} {s t : State} (h : startInstr i s = .next t) : t.cfg = s.cfg := by
  rcases startInstr_cases h with ⟨op, -, -, -, rfl⟩ | ⟨-, -, rfl⟩ | ⟨b, -, h⟩ | ⟨-, h⟩
  · rfl
  · rfl
  · obtain ⟨-, ⟨-, rfl⟩ | ⟨-, rfl⟩⟩ := uartReceive_eq_next.1 h <;> rfl
  · obtain ⟨-, b, -, rfl⟩ := uartShift_eq_next.1 h
    rfl

/-- Settles O21: no part of a step writes the parameters. -/
theorem parametersAreConstant : Obligations.ParametersAreConstant := by
  intro s t h
  have kept : KeptByParts fun u => u.cfg = s.cfg :=
    { schedule := fun _ _ _ hu => hu
      reset := fun _ hu => hu
      main := fun _ _ hu h => (mainStep_frame h).cfg.trans hu
      handler := fun _ _ hu h => (isrStep_frame h).cfg.trans hu
      start := fun _ _ _ hu h => (startInstr_cfg h).trans hu }
  exact kept.step rfl h

/-! A micro-step of MAIN brings its operation nearer its end (R93, R104). -/

theorem EnqStep.left_pos (st : EnqStep) : 0 < st.left := by cases st <;> simp [EnqStep.left]
theorem DeqStep.left_pos (st : DeqStep) : 0 < st.left := by cases st <;> simp [DeqStep.left]

theorem enqueueStep_left {sel : RingSel} {byte : Byte} {st st' : EnqStep} {s s' : State}
    (h : enqueueStep sel byte st s = .next (s', .more st')) : st'.left < st.left := by
  rcases enqueueStep_cases h with ⟨rfl, -, -, e⟩ | ⟨w, rfl, -, e⟩ | ⟨w, ds, rfl, -, -, e⟩ | ⟨w, ds, rfl, -, -, e⟩ |
    ⟨w, ds, rfl, -, -, -, e⟩ | ⟨w, ds, rfl, -, e⟩ | ⟨w, ds, rfl, -, e⟩ | ⟨rfl, -, e⟩ <;> cases e <;>
    simp [EnqStep.left]

theorem dequeueStep_left {sel : RingSel} {st st' : DeqStep} {s s' : State}
    (h : dequeueStep sel st s = .next (s', .more st')) : st'.left < st.left := by
  rcases dequeueStep_cases h with ⟨rfl, -, -, e⟩ | ⟨d, rfl, -, e⟩ | ⟨d, ws, rfl, -, -, e⟩ | ⟨d, ws, rfl, -, -, e⟩ |
    ⟨d, b, rfl, -, -, -, -, e⟩ | ⟨d, b, rfl, -, e⟩ | ⟨b, rfl, -, e⟩ <;> cases e <;> simp [DeqStep.left]

theorem queryStep_left {sel : RingSel} {answer : Nat → Nat → Nat → Word} {st st' : QueryStep} {s s' : State}
    (h : queryStep sel answer st s = .next (s', .more st')) : st'.left < st.left := by
  obtain ⟨-, ⟨rfl, -, e⟩ | ⟨w, rfl, e⟩ | ⟨w, d, rfl, e⟩⟩ := queryStep_cases h <;> cases e <;>
    simp [QueryStep.left]

/-- MAIN has returned, or stands nearer the end of the operation than at `op`. -/
def State.NearerEnd (t : State) (op : MainOp) : Prop :=
  t.mainOp = none ∨ ∃ op', t.mainOp = some op' ∧ op'.left < op.left

theorem nearerEnd_mainAt {s : State} {op op' : MainOp} (h : op'.left < op.left) : (s.mainAt op').NearerEnd op :=
  .inr ⟨op', rfl, h⟩

theorem nearerEnd_mainReturn (s : State) (v : Word) (op : MainOp) : (s.mainReturn v).NearerEnd op := .inl rfl

theorem mainGoesOn_nearerEnd {σ ρ : Type} {op : MainOp} {o : Run (State × Progress σ ρ)} {at' : σ → MainOp}
    {k : ρ → State → Run State} {t : State} (h : mainGoesOn o at' k = .next t)
    (hmore : ∀ a st', o = .next (a, .more st') → (at' st').left < op.left)
    (hdone : ∀ v a, k v a = .next t → t.NearerEnd op) : t.NearerEnd op := by
  obtain ⟨a, st', ha, rfl⟩ | ⟨a, v, -, e⟩ := mainGoesOn_eq_next.1 h
  · exact nearerEnd_mainAt (hmore a st' ha)
  · exact hdone v a e

theorem microTpInit_nearerEnd {baud : Nat} {st : InitStep} {s t : State} (h : microTpInit baud st s = .next t) :
    t.NearerEnd (.tpInit baud st) := by
  cases st with
  | i1 =>
    simp only [microTpInit] at h
    split at h <;> cases h
    · exact nearerEnd_mainReturn ..
    · exact nearerEnd_mainAt (by decide : 5 < 6)
  | i2 =>
    simp only [microTpInit] at h
    split at h <;> cases h
    · exact nearerEnd_mainReturn ..
    · exact nearerEnd_mainAt (by decide : 4 < 5)
  | i3 => cases h; exact nearerEnd_mainAt (by decide : 3 < 4)
  | i4 => cases h; exact nearerEnd_mainAt (by decide : 2 < 3)
  | i5 => cases h; exact nearerEnd_mainAt (by decide : 1 < 2)
  | i6 => cases h; exact nearerEnd_mainReturn ..

theorem microRbResetStats_nearerEnd {sel : RingSel} {st : StatsStep} {s t : State}
    (h : microRbResetStats sel st s = .next t) : t.NearerEnd (.rbResetStats sel st) := by
  cases st with
  | t1 =>
    simp only [microRbResetStats] at h
    obtain ⟨-, e⟩ := withValid_eq_next.1 h
    cases e
    exact nearerEnd_mainAt (by decide : 3 < 4)
  | t2 w => cases h; exact nearerEnd_mainAt (by decide : 2 < 3)
  | t3 w d => cases h; exact nearerEnd_mainAt (by decide : 1 < 2)
  | t4 => cases h; exact nearerEnd_mainReturn ..

theorem microTpWrite_nearerEnd {b : Byte} {st : WriteStep} {s t : State} (hw : st ≠ .w2 false)
    (h : microTpWrite b st s = .next t) : t.NearerEnd (.tpWrite b st) := by
  cases st with
  | w1 e =>
    refine mainGoesOn_nearerEnd h (fun a e' ha => ?_) fun v a e' => ?_
    · exact Nat.add_lt_add_right (enqueueStep_left ha) 4
    · cases e'
      exact nearerEnd_mainAt (Nat.lt_add_of_pos_left e.left_pos)
  | w2 ok =>
    cases ok with
    | true => cases h; exact nearerEnd_mainAt (by decide : 3 < 4)
    | false => exact absurd rfl hw
  | w3 => cases h; exact nearerEnd_mainAt (by decide : 2 < 3)
  | w4 armed => cases h; exact nearerEnd_mainAt (by decide : 1 < 2)
  | w5 => cases h; exact nearerEnd_mainReturn ..

theorem microTpRead_nearerEnd {st : ReadStep} {s t : State} (h : microTpRead st s = .next t) :
    t.NearerEnd (.tpRead st) := by
  cases st with
  | d1 q =>
    refine mainGoesOn_nearerEnd h (fun a q' ha => ?_) fun v a e' => ?_
    · exact Nat.add_lt_add_right (dequeueStep_left ha) 1
    · cases e'
      exact nearerEnd_mainAt (Nat.lt_add_of_pos_left q.left_pos)
  | d2 v => cases h; exact nearerEnd_mainReturn ..

theorem mainMicro_nearerEnd {op : MainOp} {s t : State} (hop : ∀ b, op ≠ .tpWrite b (.w2 false))
    (h : mainMicro op s = .next t) : t.NearerEnd op := by
  have returns : ∀ {v : Word} {a : State}, (.next (a.mainReturn v) : Run State) = .next t → t.NearerEnd op :=
    fun e => by cases e; exact nearerEnd_mainReturn ..
  cases op with
  | rbInit sel cap => exact returns h
  | rbIsFull sel st => exact mainGoesOn_nearerEnd h (fun _ _ => queryStep_left) fun _ _ => returns
  | rbIsEmpty sel st => exact mainGoesOn_nearerEnd h (fun _ _ => queryStep_left) fun _ _ => returns
  | rbFreeSlots sel st => exact mainGoesOn_nearerEnd h (fun _ _ => queryStep_left) fun _ _ => returns
  | rbEnqueue sel b st => exact mainGoesOn_nearerEnd h (fun _ _ => enqueueStep_left) fun _ _ => returns
  | rbDequeue sel st => exact mainGoesOn_nearerEnd h (fun _ _ => dequeueStep_left) fun _ _ => returns
  | rbResetStats sel st => exact microRbResetStats_nearerEnd h
  | rbMinFree sel =>
    simp only [mainMicro, microRbMinFree] at h
    exact returns (withValid_eq_next.1 h).2
  | tpInit baud st => exact microTpInit_nearerEnd h
  | tpWrite b st => exact microTpWrite_nearerEnd (fun e => hop b (by rw [e])) h
  | tpRead st => exact microTpRead_nearerEnd h
  | irqMask => exact returns h
  | irqUnmask => exact returns h

/-- Settles O11: every micro-step of MAIN but `W2` of a failed enqueue leads to a step nearer the end. -/
theorem onlyTpWriteWaits : Obligations.OnlyTpWriteWaits := by
  intro s t op hop hwait h
  rw [mainStep, hop] at h
  exact mainMicro_nearerEnd hwait h

end Sys2Proof.Machine
end

/-! The invariant, kept by every step (R13, R15, R16, R18, R27, R51, R52, R187), and that no step faults (R41, R42). -/

section
namespace Sys2Proof.Machine

/-! A property of every step but the reset event, from its parts. -/

/-- What a property has to survive to hold after every step but the reset event. MAIN moves only while the handler does
not run (R12). -/
structure KeptByMoves (P : State → Prop) : Prop where
  schedule : ∀ s bytes turns, P s → P { s with trace := bytes, turns := turns }
  main : ∀ s t, P s → s.isrOp = none → mainStep s = .next t → P t
  handler : ∀ s t, P s → isrStep s = .next t → P t
  start : ∀ i s t, P s → startInstr i s = .next t → P t

theorem runMainFor_keeps {P : State → Prop}
    (hP : ∀ s t, P s → s.isrOp = none → mainStep s = .next t → P t) {n : Nat} {s t : State} (hs : P s)
    (hi : s.isrOp = none) (h : runMainFor n s = .next t) : P t := by
  refine (runMainFor_induct (P := fun u => P u ∧ u.isrOp = none) ?_ ⟨hs, hi⟩ h).1
  rintro a b ⟨ha, hi⟩ hab
  exact ⟨hP a b ha hi hab, (mainStep_frame hab).isrOp.trans hi⟩

/-- MAIN's operation has just begun, so the handler does not run. -/
theorem isrOp_of_startInstr_main {i : Instr} {s t : State} (hi : issuedByMain i = true)
    (h : startInstr i s = .next t) : t.isrOp = none := by
  rcases startInstr_cases h with ⟨op, -, -, hisr, rfl⟩ | ⟨rfl, -⟩ | ⟨b, rfl, -⟩ | ⟨rfl, -⟩
  · exact hisr
  all_goals cases hi

namespace KeptByMoves
variable {P : State → Prop} (hP : KeptByMoves P) {s t : State}
include hP

theorem advance (hs : P s) (h : advance s = .next t) : P t := by
  obtain ⟨hi, h⟩ | h := advance_cases h
  · exact hP.main s t hs hi h
  · exact hP.handler s t hs h

/-- A word run whole is its beginning and then the micro-steps of the context that began (R62). -/
theorem exec {i : Instr} (hs : P s) (h : exec i s = .next t) : P t := by
  cases hi : issuedByMain i with
  | true =>
    rw [exec_of_main hi] at h
    obtain ⟨a, ha, e⟩ := andThen_eq_next.1 h
    exact runMainFor_keeps hP.main (hP.start i s a hs ha) (isrOp_of_startInstr_main hi ha) e
  | false =>
    cases i with
    | isr =>
      obtain ⟨a, ha, e⟩ := andThen_eq_next.1 h
      exact runHandlerFor_induct hP.handler (hP.start .isr s a hs ha) e
    | devRxArrive b => exact hP.start (.devRxArrive b) s t hs h
    | devTxShift => exact hP.start .devTxShift s t hs h
    | _ => cases hi

theorem step (hs : P s) (hr : s.resets = false) (h : step s = .next t) : P t := by
  rcases step_cases s with ⟨turns, hr', -⟩ | ⟨-, ⟨turns, -, e⟩ | ⟨why, e⟩ | ⟨i, bytes, turns, -, -, e | e⟩⟩
  · rw [hr] at hr'
    cases hr'
  · exact hP.advance (hP.schedule s s.trace turns hs) (e ▸ h)
  · rw [e] at h
    cases h
  · exact hP.exec (hP.schedule s bytes turns hs) (e ▸ h)
  · exact hP.start i _ t (hP.schedule s bytes turns hs) (e ▸ h)

end KeptByMoves

/-! The part of the invariant that does not speak of operations in progress, and what keeps it. -/

/-- The invariant without its clauses on operations in progress and on arming. -/
structure State.BlockInv (s : State) : Prop where
  config : s.cfg.wf = true
  ring : ∀ sel, (s.ring sel).Inv s.cfg
  rings : s.initialized = true →
    s.rx.valid = true ∧ s.tx.valid = true ∧ s.rx.cap = s.cfg.capRx ∧ s.tx.cap = s.cfg.capTx
  device : s.initialized = true →
    s.uart.en = true ∧ s.uart.rxie = true ∧
      ∃ baud, Config.accepts s.cfg baud ∧ s.uart.brr = Config.baudDivisor baud
  held : s.uart.rxHw.length ≤ s.cfg.rxHwDepth

/-- The transmit-armed invariant (R18) where MAIN is not inside its window. -/
def State.ArmedInv (s : State) : Prop := s.initialized = true → s.tx.empty = false → s.txArmed = true

theorem State.Inv.block {s : State} (h : s.Inv) : s.BlockInv where
  config := h.config
  ring sel := by
    cases sel
    · exact h.rx
    · exact h.tx
  rings := h.rings
  device := h.device
  held := h.held

namespace State.BlockInv
variable {s t : State}

theorem valid (h : s.BlockInv) (hi : s.initialized = true) (sel : RingSel) : (s.ring sel).valid = true := by
  obtain ⟨hrx, htx, -⟩ := h.rings hi
  cases sel
  · exact hrx
  · exact htx

/-- Nothing but the parameters, the rings, the flag and the UART matters. -/
theorem of_eq (h : s.BlockInv) (hc : t.cfg = s.cfg) (hrx : t.rx = s.rx) (htx : t.tx = s.tx)
    (hi : t.initialized = s.initialized) (hu : t.uart = s.uart) : t.BlockInv := by
  obtain ⟨config, ring, rings, device, held⟩ := h
  refine ⟨hc ▸ config, fun sel => ?_, ?_, ?_, ?_⟩
  · cases sel
    · simpa [hrx, hc] using ring .rx
    · simpa [htx, hc] using ring .tx
  · rw [hi, hrx, htx, hc]; exact rings
  · rw [hi, hu, hc]; exact device
  · rw [hu, hc]; exact held

theorem mainAt (h : s.BlockInv) (op : MainOp) : (s.mainAt op).BlockInv := h.of_eq rfl rfl rfl rfl rfl
theorem mainReturn (h : s.BlockInv) (v : Word) : (s.mainReturn v).BlockInv := h.of_eq rfl rfl rfl rfl rfl
theorem isrAt (h : s.BlockInv) (op : IsrOp) : (s.isrAt op).BlockInv := h.of_eq rfl rfl rfl rfl rfl

/-- A ring is written: what an initialised block owns keeps its flag and its size. -/
theorem setRing (h : s.BlockInv) {sel : RingSel} {r : Ring} (hr : r.Inv s.cfg)
    (hown : s.initialized = true → r.valid = (s.ring sel).valid ∧ r.cap = (s.ring sel).cap) :
    (s.setRing sel r).BlockInv := by
  obtain ⟨config, ring, rings, device, held⟩ := h
  refine ⟨by simpa using config, fun sel' => ?_, fun hi => ?_, by simpa using device, by simpa using held⟩
  · by_cases hsel : sel' = sel
    · subst hsel; simpa using hr
    · rw [ring_setRing_other s r hsel, setRing_cfg]; exact ring sel'
  · rw [setRing_initialized] at hi
    obtain ⟨hrx, htx, hcrx, hctx⟩ := rings hi
    obtain ⟨hv, hc⟩ := hown hi
    cases sel
    · exact ⟨hv.trans hrx, htx, hc.trans hcrx, hctx⟩
    · exact ⟨hrx, hv.trans htx, hcrx, hc.trans hctx⟩

end State.BlockInv

/-! Rings. -/

theorem Ring.contents_eq_nil_of_indices {r : Ring} (h : r.wr = r.rd) : r.contents = [] := by
  simp [Ring.contents, Ring.count, h]

/-- A ring as `init` leaves it meets the invariant (R81). -/
theorem Ring.inv_create {c : Config} {r : Ring} {cap : Nat} (hr : Memory.wf r.buf)
    (hcap : 2 ≤ cap ∧ cap ≤ c.storageMax) : (r.create c.hasStats cap).Inv c where
  memory := hr
  capacity _ := hcap
  indices _ := by simp; omega
  written _ := by rw [Ring.contents_eq_nil_of_indices (by simp)]; simp
  counter _ hs := by simp [Ring.create, hs]

theorem Ring.Inv.setMinFree {c : Config} {r : Ring} {n : Nat} (hr : r.Inv c) (hn : n ≤ r.cap - 1) :
    Ring.Inv c { r with minFree := n } := by
  obtain ⟨memory, capacity, indices, written, -⟩ := hr
  exact ⟨memory, capacity, indices, written, fun _ _ => hn⟩

/-- Whether a ring is empty is a matter of its two indices. -/
theorem Ring.empty_congr {r r' : Ring} (hr : r'.rd = r.rd) (hw : r'.wr = r.wr) : r'.empty = r.empty := by
  rw [Ring.empty, Ring.empty, hr, hw]

theorem Ring.empty_eq_false_iff {r : Ring} (hr : r.rd < r.cap) (hw : r.wr < r.cap) : r.empty = false ↔ 0 < r.count := by
  rw [← Bool.not_eq_true, Ring.empty_iff hr hw]
  omega

/-- Under the invariant the slot of the read index of a ring that is not empty has been written (R15). -/
theorem Ring.Inv.oldest {c : Config} {r : Ring} (h : r.Inv c) (hv : r.valid = true) (he : r.empty = false) :
    ∃ b, memGet r.buf r.rd = some b := by
  obtain ⟨hr, hw⟩ := h.indices hv
  have hhead := h.written hv (memGet r.buf r.rd) (by rw [Ring.contents_advance hr hw he]; exact List.mem_cons_self)
  exact Option.isSome_iff_exists.1 hhead

/-- The consumer's locals survive a micro-step of the producer (R51, R52). -/
theorem DeqStep.Inv.of_enqueueStep {sel : RingSel} {byte : Byte} {st : EnqStep} {s s' : State}
    {p : Progress EnqStep Bool} {q : DeqStep} (h : enqueueStep sel byte st s = .next (s', p))
    (hr : (s.ring sel).Inv s.cfg) (hv : (s.ring sel).valid = true) (hl : EnqStep.Inv (s.ring sel) byte st)
    (hq : DeqStep.Inv (s.ring sel) q) : DeqStep.Inv (s'.ring sel) q := by
  obtain ⟨r', rfl, hr', hv', hcap, hrd, -, hquiet, hput, hslots⟩ := enqueueStep_keeps h hr hv hl
  rw [ring_setRing_same]
  obtain ⟨hrd₀, hwr₀⟩ := hr.indices hv
  obtain ⟨hrd₁, hwr₁⟩ := hr'.indices hv'
  have hgrow : (s.ring sel).count ≤ r'.count := by
    rw [← Ring.contents_length, ← Ring.contents_length r']
    by_cases hst : ∃ w ds, st = .e5 w ds
    · obtain ⟨w, ds, rfl⟩ := hst
      rw [(hput w ds rfl).1]
      simp
    · rw [(hquiet fun w ds e => hst ⟨w, ds, e⟩).2]
  refine DeqStep.Inv_of_produced hq (hv'.trans hv.symm) hrd (fun he => ?_) hcap hgrow fun he => ?_
  · refine hslots _ fun e => ?_
    rw [Ring.empty, (isEmptyOf_iff _ _).2 e.symm] at he
    cases he
  · rw [Ring.empty_eq_false_iff hrd₀ hwr₀] at he
    exact (Ring.empty_eq_false_iff hrd₁ hwr₁).2 (by omega)

/-- The producer's locals survive a micro-step of the consumer (R51, R52). -/
theorem EnqStep.Inv.of_dequeueStep {sel : RingSel} {byte : Byte} {q : DeqStep} {s s' : State}
    {p : Progress DeqStep (Option Byte)} {st : EnqStep} (h : dequeueStep sel q s = .next (s', p))
    (hr : (s.ring sel).Inv s.cfg) (hv : (s.ring sel).valid = true) (hl : DeqStep.Inv (s.ring sel) q)
    (hst : EnqStep.Inv (s.ring sel) byte st) : EnqStep.Inv (s'.ring sel) byte st := by
  obtain ⟨r', rfl, -, hv', hcap, hwr, hbuf, -, hquiet, htake⟩ := dequeueStep_keeps h hr hv hl
  rw [ring_setRing_same]
  refine EnqStep.Inv_of_consumed hst (hv'.trans hv.symm) hwr hbuf hcap ?_
  by_cases hq : ∃ d b, q = .q5 d b
  · obtain ⟨d, b, rfl⟩ := hq
    have := (htake d b rfl).2.2
    omega
  · rw [hquiet fun d b e => hq ⟨d, b, e⟩]

/-! The invariant of a state in which one context has just moved. -/

theorem State.Fresh.of_eq {s t : State} (h : s.Fresh) (hc : t.cfg = s.cfg) (hrx : t.rx = s.rx) (htx : t.tx = s.tx)
    (ha : t.txArmed = s.txArmed) : t.Fresh := by
  obtain ⟨rx, tx, disarmed⟩ := h
  exact ⟨by rw [hrx, hc]; exact rx, by rw [htx, hc]; exact tx, ha.trans disarmed⟩

theorem MainOp.Inv.of_eq {s t : State} {op : MainOp} (h : op.Inv s) (hc : t.cfg = s.cfg) (hrx : t.rx = s.rx)
    (htx : t.tx = s.tx) (hi : t.initialized = s.initialized) (ha : t.txArmed = s.txArmed)
    (hb : t.uart.brr = s.uart.brr) : op.Inv t := by
  have hring : ∀ sel, t.ring sel = s.ring sel := by rintro (_ | _) <;> assumption
  cases op with
  | tpInit baud st =>
    cases st with
    | i4 =>
      obtain ⟨h1, h2, h3⟩ := h
      exact ⟨hi.trans h1, hc ▸ h2, h3.of_eq hc hrx htx ha⟩
    | i5 =>
      obtain ⟨h1, h2, h3, h4⟩ := h
      exact ⟨hi.trans h1, hc ▸ h2, h3.of_eq hc hrx htx ha, hb.trans h4⟩
    | i1 => trivial
    | i2 | i3 | i6 => simpa only [MainOp.Inv, InitStep.Inv, hc, hi] using h
  | irqMask | irqUnmask => trivial
  | _ => simpa only [MainOp.Inv, hring, hc, hi, htx, hrx] using h

/-- MAIN goes on from a good state. -/
theorem State.BlockInv.inv_mainAt {s : State} {op : MainOp} (hb : s.BlockInv) (hi : s.isrOp = none) (hop : op.Inv s)
    (ha : (s.mainAt op).inArmingWindow = false → s.ArmedInv) : (s.mainAt op).Inv where
  config := hb.config
  rx := hb.ring .rx
  tx := hb.ring .tx
  rings := hb.rings
  device := hb.device
  held := hb.held
  armed hini hw he := ha hw hini he
  main := by
    rintro _ ⟨⟩
    exact hop.of_eq rfl rfl rfl rfl rfl rfl
  handler op hop := by
    rw [mainAt_isrOp, hi] at hop
    cases hop

/-- MAIN returns from a good state. -/
theorem State.BlockInv.inv_mainReturn {s : State} (hb : s.BlockInv) (hi : s.isrOp = none) (ha : s.ArmedInv) (v : Word) :
    (s.mainReturn v).Inv where
  config := hb.config
  rx := hb.ring .rx
  tx := hb.ring .tx
  rings := hb.rings
  device := hb.device
  held := hb.held
  armed hini _ he := ha hini he
  main := by rintro _ ⟨⟩
  handler op hop := by
    rw [mainReturn_isrOp, hi] at hop
    cases hop

/-! MAIN's micro-steps keep the invariant. -/

theorem armedInv_of_uninitialized {s : State} (h : s.initialized = false) : s.ArmedInv := fun hi => by
  rw [h] at hi
  cases hi

/-- Outside the window of R18 the invariant has the transmit interrupt armed. -/
theorem State.Inv.armedInv {s : State} {op : MainOp} (hs : s.Inv) (hop : s.mainOp = some op)
    (hw : (s.mainAt op).inArmingWindow = false) : s.ArmedInv := fun hi he => by
  refine hs.armed hi ?_ he
  rw [← hw]
  simp only [State.inArmingWindow, hop, mainAt_mainOp]

section
variable {s t : State} {op : MainOp}

/-- MAIN reads and goes on or returns: the window is not left. -/
theorem mainGoesOn_query_inv {sel : RingSel} {answer : Nat → Nat → Nat → Word} {st : QueryStep}
    {at' : QueryStep → MainOp} (hs : s.Inv) (hi : s.isrOp = none) (hop : s.mainOp = some (at' st))
    (hat : ∀ st', (at' st').Inv s) (hw : ∀ st', (s.mainAt (at' st')).inArmingWindow = false)
    (h : mainGoesOn (queryStep sel answer st s) at' (fun v s' => .next (s'.mainReturn v)) = .next t) : t.Inv := by
  have ha : s.ArmedInv := hs.armedInv hop (hw st)
  obtain ⟨a, st', ho, rfl⟩ | ⟨a, v, ho, e⟩ := mainGoesOn_eq_next.1 h
  · obtain ⟨rfl, -⟩ := queryStep_cases ho
    exact hs.block.inv_mainAt hi (hat st') fun _ => ha
  · obtain ⟨rfl, -⟩ := queryStep_cases ho
    cases e
    exact hs.block.inv_mainReturn hi ha v

theorem microRbEnqueue_inv {sel : RingSel} {b : Byte} {st : EnqStep} (hs : s.Inv) (hi : s.isrOp = none)
    (hop : (MainOp.rbEnqueue sel b st).Inv s) (h : microRbEnqueue sel b st s = .next t) : t.Inv := by
  obtain ⟨hini, hv, hl⟩ := hop
  have good : ∀ {a p}, enqueueStep sel b st s = .next (a, p) → a.BlockInv ∧ a.isrOp = none ∧ a.initialized = false ∧
      (a.ring sel).valid = true ∧ ∀ st', p = .more st' → EnqStep.Inv (a.ring sel) b st' := by
    intro a p ho
    obtain ⟨r', rfl, hr', hv', -, -, hmore, -⟩ := enqueueStep_keeps ho (hs.block.ring sel) hv hl
    have hini' : (s.setRing sel r').initialized = false := by simpa using hini
    exact ⟨hs.block.setRing hr' fun e => absurd e (by simp [hini]), by simpa using hi, hini', by simpa using hv',
      by simpa using hmore⟩
  obtain ⟨a, st', ho, rfl⟩ | ⟨a, ok, ho, e⟩ := mainGoesOn_eq_next.1 h
  · obtain ⟨hb, hi', hini', hv', hmore⟩ := good ho
    exact hb.inv_mainAt hi' ⟨hini', hv', hmore st' rfl⟩ fun _ => armedInv_of_uninitialized hini'
  · obtain ⟨hb, hi', hini', -⟩ := good ho
    cases e
    exact hb.inv_mainReturn hi' (armedInv_of_uninitialized hini') _

theorem microRbDequeue_inv {sel : RingSel} {st : DeqStep} (hs : s.Inv) (hi : s.isrOp = none)
    (hop : (MainOp.rbDequeue sel st).Inv s) (h : microRbDequeue sel st s = .next t) : t.Inv := by
  obtain ⟨hini, hv, hl⟩ := hop
  have good : ∀ {a p}, dequeueStep sel st s = .next (a, p) → a.BlockInv ∧ a.isrOp = none ∧ a.initialized = false ∧
      (a.ring sel).valid = true ∧ ∀ st', p = .more st' → DeqStep.Inv (a.ring sel) st' := by
    intro a p ho
    obtain ⟨r', rfl, hr', hv', -, -, -, hmore, -⟩ := dequeueStep_keeps ho (hs.block.ring sel) hv hl
    have hini' : (s.setRing sel r').initialized = false := by simpa using hini
    exact ⟨hs.block.setRing hr' fun e => absurd e (by simp [hini]), by simpa using hi, hini', by simpa using hv',
      by simpa using hmore⟩
  obtain ⟨a, st', ho, rfl⟩ | ⟨a, v, ho, e⟩ := mainGoesOn_eq_next.1 h
  · obtain ⟨hb, hi', hini', hv', hmore⟩ := good ho
    exact hb.inv_mainAt hi' ⟨hini', hv', hmore st' rfl⟩ fun _ => armedInv_of_uninitialized hini'
  · obtain ⟨hb, hi', hini', -⟩ := good ho
    cases e
    exact hb.inv_mainReturn hi' (armedInv_of_uninitialized hini') _

theorem microRbResetStats_inv {sel : RingSel} {st : StatsStep} (hs : s.Inv) (hi : s.isrOp = none)
    (hmain : s.mainOp = some (.rbResetStats sel st)) (h : microRbResetStats sel st s = .next t) : t.Inv := by
  have hv : (s.ring sel).valid = true := hs.main _ hmain
  have ha : s.ArmedInv := hs.armedInv hmain rfl
  cases st with
  | t1 =>
    simp only [microRbResetStats] at h
    obtain ⟨-, e⟩ := withValid_eq_next.1 h
    cases e
    exact hs.block.inv_mainAt hi hv fun _ => ha
  | t2 w => cases h; exact hs.block.inv_mainAt hi hv fun _ => ha
  | t3 w d =>
    cases h
    have hb : (s.setMinFree sel (freeOf (s.ring sel).cap w d)).BlockInv :=
      hs.block.setRing ((hs.block.ring sel).setMinFree (Nat.sub_le _ _)) fun _ => ⟨rfl, rfl⟩
    refine hb.inv_mainAt (by simpa [setMinFree_eq] using hi) ?_ fun _ => ?_
    · simpa [MainOp.Inv, setMinFree_eq] using hv
    · cases sel <;> exact ha
  | t4 => cases h; exact hs.block.inv_mainReturn hi ha _

theorem microTpInit_inv {baud : Nat} {st : InitStep} (hs : s.Inv) (hi : s.isrOp = none)
    (hmain : s.mainOp = some (.tpInit baud st)) (h : microTpInit baud st s = .next t) : t.Inv := by
  have hop : InitStep.Inv s baud st := hs.main _ hmain
  have ha : s.ArmedInv := hs.armedInv hmain rfl
  cases st with
  | i1 =>
    simp only [microTpInit] at h
    split at h <;> cases h
    · exact hs.block.inv_mainReturn hi ha _
    · next hini => exact hs.block.inv_mainAt hi (by simpa [MainOp.Inv, InitStep.Inv] using hini) fun _ => ha
  | i2 =>
    simp only [microTpInit] at h
    split at h <;> cases h
    · exact hs.block.inv_mainReturn hi ha _
    · next hbaud =>
      simp only [Bool.or_eq_true, decide_eq_true_eq, not_or, Nat.not_lt] at hbaud
      exact hs.block.inv_mainAt hi ⟨hop, hbaud⟩ fun _ => ha
  | i3 =>
    cases h
    obtain ⟨hini, hbaud⟩ := hop
    obtain ⟨hrx, htx, -⟩ := Config.wf_bounds hs.config
    have hb : State.BlockInv { s with
        rx := s.rx.create s.cfg.hasStats s.cfg.capRx
        tx := s.tx.create s.cfg.hasStats s.cfg.capTx
        txArmed := false } := by
      refine ⟨hs.config, ?_, fun e => ?_, hs.device, hs.held⟩
      · rintro (_ | _)
        · exact Ring.inv_create hs.rx.memory hrx
        · exact Ring.inv_create hs.tx.memory htx
      · rw [hini] at e
        cases e
    refine hb.inv_mainAt hi ⟨hini, hbaud, ?_⟩ fun _ => armedInv_of_uninitialized hini
    exact ⟨⟨rfl, rfl, rfl, rfl⟩, ⟨rfl, rfl, rfl, rfl⟩, rfl⟩
  | i4 =>
    cases h
    obtain ⟨hini, hbaud, hfresh⟩ := hop
    have hb : State.BlockInv { s with uart := { s.uart with brr := Config.baudDivisor baud } } := by
      refine ⟨hs.config, hs.block.ring, hs.rings, fun e => ?_, hs.held⟩
      rw [hini] at e
      cases e
    exact hb.inv_mainAt hi ⟨hini, hbaud, hfresh.of_eq rfl rfl rfl rfl, rfl⟩ fun _ => armedInv_of_uninitialized hini
  | i5 =>
    cases h
    obtain ⟨hini, hbaud, hfresh, hbrr⟩ := hop
    obtain ⟨hvrx, hcrx, -⟩ := hfresh.rx
    obtain ⟨hvtx, hctx, hrd, hwr⟩ := hfresh.tx
    have hempty : s.tx.empty = true := (isEmptyOf_iff _ _).2 (hwr.trans hrd.symm)
    have hb : State.BlockInv { s with uart := { s.uart with en := true, rxie := true }, initialized := true } :=
      ⟨hs.config, hs.block.ring, fun _ => ⟨hvrx, hvtx, hcrx, hctx⟩, fun _ => ⟨rfl, rfl, baud, hbaud, hbrr⟩, hs.held⟩
    refine hb.inv_mainAt hi rfl fun _ _ he => ?_
    exact absurd he (by simp [hempty])
  | i6 => cases h; exact hs.block.inv_mainReturn hi ha _

/-- A micro-step of `W1`'s enqueue that leaves MAIN outside the window of R18 did not put the byte on the ring, and was
outside the window before. -/
theorem window_of_enqueueStep {b : Byte} {st st' : EnqStep} {a u : State}
    (ho : enqueueStep .tx b st s = .next (a, .more st')) 
    (hw : (u.mainAt (.tpWrite b (.w1 st'))).inArmingWindow = false) :
    (u.mainAt (.tpWrite b (.w1 st))).inArmingWindow = false ∧ ∀ w ds, st ≠ .e5 w ds := by
  rcases enqueueStep_cases ho with ⟨rfl, -, -, e⟩ | ⟨w, rfl, -, e⟩ | ⟨w, ds, rfl, -, -, e⟩ | ⟨w, ds, rfl, -, -, e⟩ |
    ⟨w, ds, rfl, -, -, -, e⟩ | ⟨w, ds, rfl, -, e⟩ | ⟨w, ds, rfl, -, e⟩ | ⟨rfl, -, e⟩ <;> cases e
  case inr.inr.inr.inr.inr.inl => cases hw
  case inr.inr.inr.inr.inr.inr.inl => cases hw
  all_goals exact ⟨rfl, nofun⟩

/-- The same where the enqueue has ended. -/
theorem window_of_enqueueStep_done {b : Byte} {st : EnqStep} {a u : State} {ok : Bool}
    (ho : enqueueStep .tx b st s = .next (a, .done ok)) 
    (hw : (u.mainAt (.tpWrite b (.w2 ok))).inArmingWindow = false) :
    (u.mainAt (.tpWrite b (.w1 st))).inArmingWindow = false ∧ ∀ w ds, st ≠ .e5 w ds := by
  rcases enqueueStep_cases ho with ⟨rfl, -, -, e⟩ | ⟨w, rfl, -, e⟩ | ⟨w, ds, rfl, -, -, e⟩ | ⟨w, ds, rfl, -, -, e⟩ |
    ⟨w, ds, rfl, -, -, -, e⟩ | ⟨w, ds, rfl, -, e⟩ | ⟨w, ds, rfl, -, e⟩ | ⟨rfl, -, e⟩ <;> cases e
  case inr.inr.inl => exact ⟨rfl, nofun⟩
  case inr.inr.inr.inr.inr.inr.inr => cases hw

theorem microTpWrite_inv {b : Byte} {st : WriteStep} (hs : s.Inv) (hi : s.isrOp = none)
    (hmain : s.mainOp = some (.tpWrite b st)) (h : microTpWrite b st s = .next t) : t.Inv := by
  obtain ⟨hini, hl⟩ := hs.main _ hmain
  have armed := hs.armedInv hmain
  cases st with
  | w1 e =>
    have hv : s.tx.valid = true := hs.block.valid hini .tx
    have good : ∀ {a p}, enqueueStep .tx b e s = .next (a, p) → a.BlockInv ∧ a.isrOp = none ∧ a.initialized = true ∧
        (∀ e', p = .more e' → EnqStep.Inv a.tx b e') ∧ ((∀ w ds, e ≠ .e5 w ds) → s.ArmedInv → a.ArmedInv) := by
      intro a p ho
      obtain ⟨r', rfl, hr', hv', hcap, hrd, hmore, hquiet, -⟩ := enqueueStep_keeps ho hs.tx hv hl
      refine ⟨hs.block.setRing hr' fun _ => ⟨hv'.trans hv.symm, hcap⟩, hi, hini, hmore, fun he ha hini' hne => ?_⟩
      exact ha hini' ((Ring.empty_congr hrd (hquiet he).1).symm.trans hne)
    obtain ⟨a, e', ho, rfl⟩ | ⟨a, ok, ho, eq⟩ := mainGoesOn_eq_next.1 h
    · obtain ⟨hb, hi', hini', hmore, hkept⟩ := good ho
      refine hb.inv_mainAt hi' ⟨hini', hmore e' rfl⟩ fun hw => ?_
      obtain ⟨hw', he⟩ := window_of_enqueueStep (u := s) ho hw
      exact hkept he (armed hw')
    · obtain ⟨hb, hi', hini', -, hkept⟩ := good ho
      cases eq
      refine hb.inv_mainAt hi' ⟨hini', trivial⟩ fun hw => ?_
      obtain ⟨hw', he⟩ := window_of_enqueueStep_done (u := s) ho hw
      exact hkept he (armed hw')
  | w2 ok =>
    cases h
    cases ok
    · exact hs.block.inv_mainAt hi ⟨hini, trivial⟩ fun _ => armed rfl
    · exact hs.block.inv_mainAt hi ⟨hini, trivial⟩ nofun
  | w3 =>
    cases h
    refine hs.block.inv_mainAt hi ⟨hini, trivial⟩ fun hw _ _ => ?_
    cases ha : s.txArmed
    · rw [ha] at hw
      cases hw
    · rfl
  | w4 armed' =>
    cases h
    cases armed'
    · have hb : State.BlockInv { s with txArmed := true } := hs.block.of_eq rfl rfl rfl rfl rfl
      exact hb.inv_mainAt hi ⟨hini, trivial⟩ fun _ _ _ => rfl
    · exact hs.block.inv_mainAt hi ⟨hini, trivial⟩ fun _ => armed rfl
  | w5 => cases h; exact hs.block.inv_mainReturn hi (armed rfl) _

theorem microTpRead_inv {st : ReadStep} (hs : s.Inv) (hi : s.isrOp = none)
    (hmain : s.mainOp = some (.tpRead st)) (h : microTpRead st s = .next t) : t.Inv := by
  obtain ⟨hini, hl⟩ := hs.main _ hmain
  have ha : s.ArmedInv := hs.armedInv hmain rfl
  cases st with
  | d1 q =>
    have hv : s.rx.valid = true := hs.block.valid hini .rx
    have good : ∀ {a p}, dequeueStep .rx q s = .next (a, p) → a.BlockInv ∧ a.isrOp = none ∧ a.initialized = true ∧
        a.ArmedInv ∧ ∀ q', p = .more q' → DeqStep.Inv a.rx q' := by
      intro a p ho
      obtain ⟨r', rfl, hr', hv', hcap, -, -, hmore, -⟩ := dequeueStep_keeps ho hs.rx hv hl
      exact ⟨hs.block.setRing hr' fun _ => ⟨hv'.trans hv.symm, hcap⟩, hi, hini, ha, hmore⟩
    obtain ⟨a, q', ho, rfl⟩ | ⟨a, v, ho, e⟩ := mainGoesOn_eq_next.1 h
    · obtain ⟨hb, hi', hini', ha', hmore⟩ := good ho
      exact hb.inv_mainAt hi' ⟨hini', hmore q' rfl⟩ fun _ => ha'
    · obtain ⟨hb, hi', hini', ha', -⟩ := good ho
      cases e
      exact hb.inv_mainAt hi' ⟨hini', trivial⟩ fun _ => ha'
  | d2 v => cases h; exact hs.block.inv_mainReturn hi ha _

theorem mainMicro_inv (hs : s.Inv) (hi : s.isrOp = none) (hmain : s.mainOp = some op)
    (h : mainMicro op s = .next t) : t.Inv := by
  have hop := hs.main op hmain
  cases op with
  | rbInit sel cap =>
    cases h
    obtain ⟨hini, hcap⟩ := hop
    have hb := hs.block.setRing (sel := sel) (Ring.inv_create (hs.block.ring sel).memory hcap) fun e =>
      absurd e (by simp [hini])
    exact hb.inv_mainReturn (by simpa using hi) (armedInv_of_uninitialized (by simpa using hini)) _
  | rbIsFull sel st => exact mainGoesOn_query_inv hs hi hmain (fun _ => hop) (fun _ => rfl) h
  | rbIsEmpty sel st => exact mainGoesOn_query_inv hs hi hmain (fun _ => hop) (fun _ => rfl) h
  | rbFreeSlots sel st => exact mainGoesOn_query_inv hs hi hmain (fun _ => hop) (fun _ => rfl) h
  | rbEnqueue sel b st => exact microRbEnqueue_inv hs hi hop h
  | rbDequeue sel st => exact microRbDequeue_inv hs hi hop h
  | rbResetStats sel st => exact microRbResetStats_inv hs hi hmain h
  | rbMinFree sel =>
    simp only [mainMicro, microRbMinFree] at h
    obtain ⟨-, e⟩ := withValid_eq_next.1 h
    cases e
    exact hs.block.inv_mainReturn hi (hs.armedInv hmain rfl) _
  | tpInit baud st => exact microTpInit_inv hs hi hmain h
  | tpWrite b st => exact microTpWrite_inv hs hi hmain h
  | tpRead st => exact microTpRead_inv hs hi hmain h
  | irqMask =>
    cases h
    have hb : State.BlockInv { s with irqMasked := true } := hs.block.of_eq rfl rfl rfl rfl rfl
    exact hb.inv_mainReturn hi (hs.armedInv hmain rfl) _
  | irqUnmask =>
    cases h
    have hb : State.BlockInv { s with irqMasked := false } := hs.block.of_eq rfl rfl rfl rfl rfl
    exact hb.inv_mainReturn hi (hs.armedInv hmain rfl) _

end

theorem mainStep_inv (s t : State) (hs : s.Inv) (hi : s.isrOp = none) (h : mainStep s = .next t) : t.Inv := by
  obtain ⟨-, rfl⟩ | ⟨op, hop, h⟩ := mainStep_cases h
  · exact hs
  · exact mainMicro_inv hs hi hop h

end Sys2Proof.Machine
end

section
namespace Sys2Proof.Machine

/-! The handler's micro-steps keep the invariant. -/

/-- The invariant without its clause on the handler. -/
structure State.RestInv (s : State) : Prop where
  block : s.BlockInv
  armed : s.initialized = true → s.inArmingWindow = false → s.tx.empty = false → s.txArmed = true
  main : ∀ op, s.mainOp = some op → op.Inv s

theorem State.Inv.rest {s : State} (h : s.Inv) : s.RestInv := ⟨h.block, h.armed, h.main⟩

/-- The handler stands at a good micro-step of a good state. -/
theorem State.RestInv.inv_isrAt {s : State} {op : IsrOp} (h : s.RestInv) (hini : s.initialized = true)
    (hmask : s.irqMasked = false) (hop : op.Inv s) : (s.isrAt op).Inv where
  config := h.block.config
  rx := h.block.ring .rx
  tx := h.block.ring .tx
  rings := h.block.rings
  device := h.block.device
  held := h.block.held
  armed := h.armed
  main op' hop' := (h.main op' hop').of_eq rfl rfl rfl rfl rfl rfl
  handler := by
    rintro _ ⟨⟩
    refine ⟨hini, hmask, ?_⟩
    cases op <;> exact hop

theorem State.RestInv.inv_leaveHandler {s : State} (h : s.RestInv) : (leaveHandler s).Inv where
  config := h.block.config
  rx := h.block.ring .rx
  tx := h.block.ring .tx
  rings := h.block.rings
  device := h.block.device
  held := h.block.held
  armed := h.armed
  main op' hop' := (h.main op' hop').of_eq rfl rfl rfl rfl rfl rfl
  handler := by rintro _ ⟨⟩

/-- On an initialised block MAIN's operation in progress depends on no more than that its rings exist and on the locals
of its enqueue on `TX` and its dequeue on `RX`. -/
theorem MainOp.Inv.of_owned {s t : State} {op : MainOp} (h : op.Inv s) (hi : s.initialized = true)
    (hi' : t.initialized = true) (hv : ∀ sel, (s.ring sel).valid = true → (t.ring sel).valid = true)
    (htx : ∀ b st, EnqStep.Inv s.tx b st → EnqStep.Inv t.tx b st)
    (hrx : ∀ q, DeqStep.Inv s.rx q → DeqStep.Inv t.rx q) : op.Inv t := by
  have unowned : ¬ s.initialized = false := by simp [hi]
  cases op with
  | rbInit sel cap => exact absurd h.1 unowned
  | rbEnqueue sel b st => exact absurd h.1 unowned
  | rbDequeue sel st => exact absurd h.1 unowned
  | rbIsFull sel st | rbIsEmpty sel st | rbFreeSlots sel st | rbResetStats sel st | rbMinFree sel => exact hv sel h
  | tpInit baud st =>
    cases st with
    | i1 => trivial
    | i2 => exact absurd h unowned
    | i3 => exact absurd h.1 unowned
    | i4 => exact absurd h.1 unowned
    | i5 => exact absurd h.1 unowned
    | i6 => exact hi'
  | tpWrite b st =>
    refine ⟨hi', ?_⟩
    cases st with
    | w1 e => exact htx b e h.2
    | w2 | w3 | w4 | w5 => trivial
  | tpRead st =>
    refine ⟨hi', ?_⟩
    cases st with
    | d1 q => exact hrx q h.2
    | d2 => trivial
  | irqMask | irqUnmask => trivial

/-- Of an initialised block the UART's registers may change, but for its settings, and so may the count of lost
bytes. -/
theorem State.RestInv.of_uart {s t : State} (h : s.RestInv) (hi : s.initialized = true) (hc : t.cfg = s.cfg)
    (hrx : t.rx = s.rx) (htx : t.tx = s.tx) (hini : t.initialized = s.initialized) (hm : t.mainOp = s.mainOp)
    (ha : t.txArmed = s.txArmed) (hen : t.uart.en = s.uart.en) (hrxie : t.uart.rxie = s.uart.rxie)
    (hbrr : t.uart.brr = s.uart.brr) (hheld : t.uart.rxHw.length ≤ s.uart.rxHw.length) : t.RestInv := by
  obtain ⟨⟨config, ring, rings, device, held⟩, armed, main⟩ := h
  have hring : ∀ sel, t.ring sel = s.ring sel := by rintro (_ | _) <;> assumption
  refine ⟨⟨hc ▸ config, fun sel => by rw [hring, hc]; exact ring sel, by rw [hini, hrx, htx, hc]; exact rings,
    by rw [hini, hen, hrxie, hbrr, hc]; exact device, by rw [hc]; omega⟩, ?_, fun op hop => ?_⟩
  · simp only [hini, htx, ha, State.inArmingWindow, hm]
    exact armed
  · exact (main op (hm ▸ hop)).of_owned hi (hini.trans hi) (fun sel => by simp [hring])
      (fun _ _ => by simp [htx]) (fun _ => by simp [hrx])

section
variable {s t : State}

theorem microH1Enqueue_inv {b : Byte} {st : EnqStep} (hs : s.Inv) (hop : s.isrOp = some (.h1Enqueue b st))
    (h : isrMicro (.h1Enqueue b st) s = .next t) : t.Inv := by
  obtain ⟨hini, hmask, hl⟩ := hs.handler _ hop
  have hv : s.rx.valid = true := hs.block.valid hini .rx
  have good : ∀ {a p}, enqueueStep .rx b st s = .next (a, p) →
      a.RestInv ∧ a.initialized = true ∧ a.irqMasked = false ∧ ∀ st', p = .more st' → EnqStep.Inv a.rx b st' := by
    intro a p ho
    have hdeq : ∀ q, DeqStep.Inv s.rx q → DeqStep.Inv a.rx q := fun q => DeqStep.Inv.of_enqueueStep ho hs.rx hv hl
    obtain ⟨r', rfl, hr', hv', hcap, -, hmore, -⟩ := enqueueStep_keeps ho hs.rx hv hl
    refine ⟨⟨hs.block.setRing hr' fun _ => ⟨hv'.trans hv.symm, hcap⟩, hs.armed, fun op hop => ?_⟩, hini, hmask, hmore⟩
    refine (hs.main op hop).of_owned hini hini ?_ (fun _ _ h => h) hdeq
    rintro (_ | _) h
    · exact hv'
    · exact h
  obtain ⟨a, st', ho, rfl⟩ | ⟨a, ok, ho, e⟩ := isrGoesOn_eq_next.1 h
  · obtain ⟨hr, hini', hmask', hmore⟩ := good ho
    exact hr.inv_isrAt hini' hmask' (hmore st' rfl)
  · obtain ⟨hr, hini', hmask', -⟩ := good ho
    cases e
    cases ok
    · have hr' : State.RestInv { a with wireInLost := a.wireInLost + 1 } :=
        hr.of_uart hini' rfl rfl rfl rfl rfl rfl rfl rfl rfl (Nat.le_refl _)
      exact hr'.inv_isrAt hini' hmask' trivial
    · exact hr.inv_isrAt hini' hmask' trivial

/-- What a micro-step of the handler's dequeue leads to keeps its snapshot up to date (R52). -/
theorem current_of_dequeueStep {st st' : DeqStep} {a : State} (h : dequeueStep .tx st s = .next (a, .more st')) :
    DeqStep.Current a.tx st' := by
  rcases dequeueStep_cases h with ⟨rfl, -, rfl, e⟩ | ⟨d, rfl, rfl, e⟩ | ⟨d, ws, rfl, -, rfl, e⟩ |
    ⟨d, ws, rfl, -, rfl, e⟩ | ⟨d, b, rfl, -, -, -, rfl, e⟩ | ⟨d, b, rfl, -, e⟩ | ⟨b, rfl, -, e⟩ <;> cases e
  case inr.inl => rfl
  all_goals trivial

theorem microH3Dequeue_inv {st : DeqStep} (hs : s.Inv) (hop : s.isrOp = some (.h3Dequeue st))
    (h : isrMicro (.h3Dequeue st) s = .next t) : t.Inv := by
  obtain ⟨hini, hmask, hl, hcur, harm, hfree⟩ := hs.handler _ hop
  have hv : s.tx.valid = true := hs.block.valid hini .tx
  have good : ∀ {a p}, dequeueStep .tx st s = .next (a, p) →
      a.RestInv ∧ a.initialized = true ∧ a.irqMasked = false ∧ a.txArmed = true ∧ a.txEmpty = true ∧
        ∀ st', p = .more st' → DeqStep.Inv a.tx st' := by
    intro a p ho
    have henq : ∀ b st, EnqStep.Inv s.tx b st → EnqStep.Inv a.tx b st :=
      fun b st => EnqStep.Inv.of_dequeueStep ho hs.tx hv hl
    obtain ⟨r', rfl, hr', hv', hcap, -, -, hmore, -⟩ := dequeueStep_keeps ho hs.tx hv hl
    refine ⟨⟨hs.block.setRing hr' fun _ => ⟨hv'.trans hv.symm, hcap⟩, fun _ _ _ => harm, fun op hop => ?_⟩, hini, hmask,
      harm, hfree, hmore⟩
    refine (hs.main op hop).of_owned hini hini ?_ henq (fun _ h => h)
    rintro (_ | _) h
    · exact h
    · exact hv'
  obtain ⟨a, st', ho, rfl⟩ | ⟨a, v, ho, e⟩ := isrGoesOn_eq_next.1 h
  · obtain ⟨hr, hini', hmask', harm', hfree', hmore⟩ := good ho
    exact hr.inv_isrAt hini' hmask' ⟨hmore st' rfl, current_of_dequeueStep ho, harm', hfree'⟩
  · obtain ⟨hr, hini', hmask', harm', hfree', -⟩ := good ho
    cases e
    refine hr.inv_isrAt hini' hmask' ?_
    cases v with
    | some b => exact ⟨harm', hfree'⟩
    | none =>
      rcases dequeueStep_cases ho with ⟨-, -, -, e⟩ | ⟨d, -, -, e⟩ | ⟨d, ws, rfl, hws, rfl, -⟩ | ⟨d, ws, -, -, -, e⟩ |
        ⟨d, b, -, -, -, -, -, e⟩ | ⟨d, b, -, -, e⟩ | ⟨b, -, -, e⟩
      case inr.inr.inl =>
        obtain ⟨-, hd, -⟩ := hl
        exact (isEmptyOf_iff _ _).2 (hcur.symm.trans (hws.trans hd))
      all_goals cases e

theorem isrMicro_inv {op : IsrOp} (hs : s.Inv) (hop : s.isrOp = some op) (h : isrMicro op s = .next t) : t.Inv := by
  obtain ⟨hini, hmask, hl⟩ := hs.handler op hop
  cases op with
  | h1Test =>
    cases h
    refine hs.rest.inv_isrAt hini hmask ?_
    cases hrx : s.rxReady
    · trivial
    · exact hrx
  | h1Read =>
    obtain ⟨⟨a, b⟩, ha, e⟩ := andThen_eq_next.1 h
    obtain ⟨rest, hrest, rfl⟩ := uartReadRx_eq_next.1 ha
    cases e
    have hr : State.RestInv { s with uart := { s.uart with rxHw := rest } } :=
      hs.rest.of_uart hini rfl rfl rfl rfl rfl rfl rfl rfl rfl (by simp [hrest])
    exact hr.inv_isrAt hini hmask trivial
  | h1Enqueue b st => exact microH1Enqueue_inv hs hop h
  | h2Test =>
    cases h
    refine hs.rest.inv_isrAt hini hmask ?_
    split <;> trivial
  | h2Clear =>
    cases h
    have hr : (uartClearOverrun s).RestInv :=
      hs.rest.of_uart hini rfl rfl rfl rfl rfl rfl rfl rfl rfl (Nat.le_refl _)
    exact hr.inv_isrAt hini hmask trivial
  | h3Test =>
    cases h
    refine hs.rest.inv_isrAt hini hmask ?_
    split
    · next hreq =>
      obtain ⟨harm, hfree⟩ := Bool.and_eq_true_iff.1 hreq
      exact ⟨trivial, trivial, harm, hfree⟩
    · trivial
  | h3Dequeue st => exact microH3Dequeue_inv hs hop h
  | h3Result v =>
    cases v with
    | none =>
      cases h
      have hr : State.RestInv { s with txArmed := false } :=
        ⟨hs.block.of_eq rfl rfl rfl rfl rfl, fun _ _ he => absurd (Eq.trans he.symm hl) nofun, fun op' hop' =>
          (hs.main op' hop').of_owned hini hini (fun sel => by cases sel <;> exact id) (fun _ _ h => h) (fun _ h => h)⟩
      exact hr.inv_isrAt hini hmask trivial
    | some b =>
      obtain ⟨a, ha, e⟩ := andThen_eq_next.1 h
      obtain ⟨-, rfl⟩ := uartWriteTx_eq_next.1 ha
      cases e
      have hr : State.RestInv { s with uart := { s.uart with tdr := some b } } :=
        hs.rest.of_uart hini rfl rfl rfl rfl rfl rfl rfl rfl rfl (Nat.le_refl _)
      exact hr.inv_isrAt hini hmask trivial
  | h4 => cases h; exact hs.rest.inv_leaveHandler

end

theorem isrStep_inv (s t : State) (hs : s.Inv) (h : isrStep s = .next t) : t.Inv := by
  obtain ⟨-, rfl⟩ | ⟨op, hop, h⟩ := isrStep_cases h
  · exact hs
  · exact isrMicro_inv hs hop h

/-! DEV's steps and the beginning of an operation keep the invariant. -/

/-- DEV adds to the receive register and empties the transmit register: the handler's tests stay true. -/
theorem IsrOp.Inv.of_device {s t : State} {op : IsrOp} (h : op.Inv s) (hrx : t.rx = s.rx) (htx : t.tx = s.tx)
    (ha : t.txArmed = s.txArmed) (hready : s.rxReady = true → t.rxReady = true)
    (hfree : s.txEmpty = true → t.txEmpty = true) : op.Inv t := by
  cases op with
  | h1Read => exact hready h
  | h1Enqueue b st => simpa only [IsrOp.Inv, hrx] using h
  | h3Dequeue st =>
    obtain ⟨hl, hcur, harm, he⟩ := h
    exact ⟨htx ▸ hl, htx ▸ hcur, ha.trans harm, hfree he⟩
  | h3Result v =>
    cases v with
    | some b =>
      obtain ⟨harm, he⟩ := h
      exact ⟨ha.trans harm, hfree he⟩
    | none => simpa only [IsrOp.Inv, htx] using h
  | h1Test | h2Test | h2Clear | h3Test | h4 => trivial

/-- A step of DEV changes the receive and the transmit register only, and what it counts. -/
theorem State.Inv.of_device {s t : State} (h : s.Inv) (hc : t.cfg = s.cfg) (hrx : t.rx = s.rx) (htx : t.tx = s.tx)
    (hini : t.initialized = s.initialized) (hmask : t.irqMasked = s.irqMasked) (hm : t.mainOp = s.mainOp)
    (hi : t.isrOp = s.isrOp) (ha : t.txArmed = s.txArmed) (hen : t.uart.en = s.uart.en)
    (hrxie : t.uart.rxie = s.uart.rxie) (hbrr : t.uart.brr = s.uart.brr)
    (hheld : t.uart.rxHw.length ≤ s.cfg.rxHwDepth) (hready : s.rxReady = true → t.rxReady = true)
    (hfree : s.txEmpty = true → t.txEmpty = true) : t.Inv := by
  obtain ⟨config, rx, tx, rings, device, -, armed, main, handler⟩ := h
  refine ⟨hc ▸ config, by rw [hrx, hc]; exact rx, by rw [htx, hc]; exact tx, by rw [hini, hrx, htx, hc]; exact rings,
    by rw [hini, hen, hrxie, hbrr, hc]; exact device, by rw [hc]; exact hheld, ?_, fun op hop => ?_, fun op hop => ?_⟩
  · simp only [hini, htx, ha, State.inArmingWindow, hm]
    exact armed
  · exact (main op (hm ▸ hop)).of_eq hc hrx htx hini ha hbrr
  · obtain ⟨h1, h2, h3⟩ := handler op (hi ▸ hop)
    exact ⟨hini.trans h1, hmask.trans h2, h3.of_device hrx htx ha hready hfree⟩

theorem uartReceive_inv {b : Byte} {s t : State} (hs : s.Inv) (h : uartReceive b s = .next t) : t.Inv := by
  obtain ⟨-, ⟨hroom, rfl⟩ | ⟨-, rfl⟩⟩ := uartReceive_eq_next.1 h
  · exact hs.of_device rfl rfl rfl rfl rfl rfl rfl rfl rfl rfl rfl (by simpa using hroom)
      (fun _ => by simp [State.rxReady]) id
  · exact hs.of_device rfl rfl rfl rfl rfl rfl rfl rfl rfl rfl rfl hs.held id id

theorem uartShift_inv {s t : State} (hs : s.Inv) (h : uartShift s = .next t) : t.Inv := by
  obtain ⟨-, b, -, rfl⟩ := uartShift_eq_next.1 h
  exact hs.of_device rfl rfl rfl rfl rfl rfl rfl rfl rfl rfl rfl hs.held id fun _ => rfl

section
variable {s t : State} {op : MainOp}

theorem issueMain_inv (hs : s.Inv) (h : issueMain op s = .next t) (hop : op.Inv s) : t.Inv := by
  obtain ⟨hmain, hisr, rfl⟩ := issueMain_eq_next.1 h
  exact hs.block.inv_mainAt hisr hop fun _ hini he => hs.armed hini (by simp [State.inArmingWindow, hmain]) he

theorem issueRing_inv {sel : RingSel} (hs : s.Inv) (h : issueRing sel op s = .next t)
    (hop : (s.ring sel).valid = true → op.Inv s) : t.Inv := by
  obtain ⟨hv, e⟩ := withValid_eq_next.1 h
  exact issueMain_inv hs e (hop hv)

end

theorem startInstr_inv (i : Instr) (s t : State) (hs : s.Inv) (h : startInstr i s = .next t) : t.Inv := by
  cases i with
  | rbInit sel cap =>
    obtain ⟨hini, e⟩ := whileUnowned_eq_next.1 h
    split at e
    · next hcap => exact issueMain_inv hs e ⟨hini, by simpa using hcap⟩
    · cases e
  | rbIsFull sel => exact issueRing_inv hs h id
  | rbIsEmpty sel => exact issueRing_inv hs h id
  | rbEnqueue sel b =>
    obtain ⟨hini, e⟩ := whileUnowned_eq_next.1 h
    exact issueRing_inv hs e fun hv => ⟨hini, hv, trivial⟩
  | rbDequeue sel =>
    obtain ⟨hini, e⟩ := whileUnowned_eq_next.1 h
    exact issueRing_inv hs e fun hv => ⟨hini, hv, trivial⟩
  | rbFreeSlots sel => exact issueRing_inv hs (withStats_eq_next.1 h).2 id
  | rbResetStats sel =>
    obtain ⟨-, e⟩ := withStats_eq_next.1 h
    exact issueRing_inv hs (asStatsProducer_eq_next.1 e).2 id
  | rbMinFree sel => exact issueRing_inv hs (withStats_eq_next.1 h).2 id
  | tpInit baud => exact issueMain_inv hs h trivial
  | tpWrite b =>
    obtain ⟨hini, e⟩ := whenInitialized_eq_next.1 h
    exact issueMain_inv hs e ⟨hini, trivial⟩
  | tpRead =>
    obtain ⟨hini, e⟩ := whenInitialized_eq_next.1 h
    exact issueMain_inv hs e ⟨hini, trivial⟩
  | irqMask => exact issueMain_inv hs h trivial
  | irqUnmask => exact issueMain_inv hs h trivial
  | isr =>
    obtain ⟨hen, rfl⟩ := enterHandler_eq_next.1 h
    obtain ⟨hini, -, hmask, -⟩ := handlerEnabled_iff.1 hen
    exact hs.rest.inv_isrAt hini hmask trivial
  | devRxArrive b => exact uartReceive_inv hs h
  | devTxShift => exact uartShift_inv hs h

/-! The invariant holds after reset and after every step. -/

theorem Ring.reset_inv (c : Config) : Ring.reset.Inv c where
  memory := List.Pairwise.nil
  capacity := by rintro ⟨⟩
  indices := by rintro ⟨⟩
  written := by rintro ⟨⟩
  counter := by rintro ⟨⟩

/-- Settles O15: after reset no ring is valid, no operation is in progress and the transport is not initialised. -/
theorem resetMeetsTheInvariant : Obligations.ResetMeetsTheInvariant := fun c hc =>
  { config := hc
    rx := Ring.reset_inv c
    tx := Ring.reset_inv c
    rings := by rintro ⟨⟩
    device := by rintro ⟨⟩
    held := Nat.zero_le _
    armed := by rintro ⟨⟩
    main := by rintro _ ⟨⟩
    handler := by rintro _ ⟨⟩ }

/-- The words and turns to come do not matter to the invariant. -/
theorem State.Inv.schedule {s : State} (hs : s.Inv) (bytes : List Byte) (turns : List Turn) :
    State.Inv { s with trace := bytes, turns := turns } :=
  hs.of_device rfl rfl rfl rfl rfl rfl rfl rfl rfl rfl rfl hs.held id id

theorem inv_keptByMoves : KeptByMoves State.Inv where
  schedule _ _ _ hs := hs.schedule _ _
  main := mainStep_inv
  handler := isrStep_inv
  start := startInstr_inv

/-- Settles O16: each micro-step of MAIN and of the handler, each step of DEV, each beginning of an operation and the
reset event keep the invariant. -/
theorem everyStepKeepsTheInvariant : Obligations.EveryStepKeepsTheInvariant := by
  intro s t hs h
  cases hr : s.resets with
  | false => exact inv_keptByMoves.step hs hr h
  | true =>
    rcases step_cases s with ⟨turns, -, e⟩ | ⟨hr', -⟩
    · rw [e] at h
      cases h
      exact (resetMeetsTheInvariant s.cfg hs.config).schedule _ _
    · rw [hr] at hr'
      cases hr'

end Sys2Proof.Machine
end

/-! An operation once begun goes on (R123, R149), so no step faults (R15, R41, R42). -/

section
namespace Sys2Proof.Machine

theorem enqueueStep_goes_on {sel : RingSel} {byte : Byte} {st : EnqStep} {s : State} (hr : (s.ring sel).Inv s.cfg)
    (hv : (s.ring sel).valid = true) (hl : EnqStep.Inv (s.ring sel) byte st) :
    ∃ a p, enqueueStep sel byte st s = .next (a, p) := by
  cases st with
  | e1 => exact ⟨_, _, by simp only [enqueueStep, withValid_of_valid _ hv]; rfl⟩
  | e3 w ds =>
    cases hf : isFullOf (s.ring sel).cap w ds
    · exact ⟨_, _, by simp only [enqueueStep, hf]; rfl⟩
    · exact ⟨_, _, by simp only [enqueueStep, hf]; rfl⟩
  | e4 w ds =>
    obtain ⟨-, rfl, -⟩ := hl
    obtain ⟨-, hwr⟩ := hr.indices hv
    have hput := memWrite_eq_next (b := byte).2 ⟨⟨hv, hwr⟩, rfl⟩
    exact ⟨_, _, andThen_eq_next.2 ⟨_, hput, rfl⟩⟩
  | e2 | e5 | e6 | e7 => exact ⟨_, _, rfl⟩

theorem dequeueStep_goes_on {sel : RingSel} {st : DeqStep} {s : State} (hr : (s.ring sel).Inv s.cfg)
    (hv : (s.ring sel).valid = true) (hl : DeqStep.Inv (s.ring sel) st) :
    ∃ a p, dequeueStep sel st s = .next (a, p) := by
  cases st with
  | q1 => exact ⟨_, _, by simp only [dequeueStep, withValid_of_valid _ hv]; rfl⟩
  | q3 d ws =>
    cases he : isEmptyOf ws d
    · exact ⟨_, _, by simp only [dequeueStep, he]; rfl⟩
    · exact ⟨_, _, by simp only [dequeueStep, he]; rfl⟩
  | q4 d =>
    obtain ⟨-, rfl, he⟩ := hl
    obtain ⟨hrd, -⟩ := hr.indices hv
    obtain ⟨b, hb⟩ := hr.oldest hv he
    exact ⟨_, _, andThen_eq_next.2 ⟨b, memRead_eq_next.2 ⟨⟨hv, hrd⟩, hb⟩, rfl⟩⟩
  | q2 | q5 | q6 => exact ⟨_, _, rfl⟩

theorem queryStep_goes_on {sel : RingSel} {answer : Nat → Nat → Nat → Word} {st : QueryStep} {s : State}
    (hv : (s.ring sel).valid = true) : ∃ a p, queryStep sel answer st s = .next (a, p) := by
  cases st with
  | readWr => exact ⟨_, _, by simp only [queryStep, withValid_of_valid _ hv]; rfl⟩
  | readRd | answer => exact ⟨_, _, rfl⟩

theorem mainGoesOn_goes_on {σ ρ : Type} {o : Run (State × Progress σ ρ)} {at' : σ → MainOp}
    {k : ρ → State → Run State} (ho : ∃ a p, o = .next (a, p)) (hk : ∀ v a, ∃ t, k v a = .next t) :
    ∃ t, mainGoesOn o at' k = .next t := by
  obtain ⟨a, st | v, e⟩ := ho
  · exact ⟨_, mainGoesOn_eq_next.2 (.inl ⟨a, st, e, rfl⟩)⟩
  · obtain ⟨t, ht⟩ := hk v a
    exact ⟨t, mainGoesOn_eq_next.2 (.inr ⟨a, v, e, ht⟩)⟩

theorem isrGoesOn_goes_on {σ ρ : Type} {o : Run (State × Progress σ ρ)} {at' : σ → IsrOp}
    {k : ρ → State → Run State} (ho : ∃ a p, o = .next (a, p)) (hk : ∀ v a, ∃ t, k v a = .next t) :
    ∃ t, isrGoesOn o at' k = .next t := by
  obtain ⟨a, st | v, e⟩ := ho
  · exact ⟨_, isrGoesOn_eq_next.2 (.inl ⟨a, st, e, rfl⟩)⟩
  · obtain ⟨t, ht⟩ := hk v a
    exact ⟨t, isrGoesOn_eq_next.2 (.inr ⟨a, v, e, ht⟩)⟩

theorem mainMicro_goes_on {op : MainOp} {s : State} (hs : s.Inv) (hop : op.Inv s) : ∃ t, mainMicro op s = .next t := by
  cases op with
  | rbIsFull sel st | rbIsEmpty sel st | rbFreeSlots sel st =>
    exact mainGoesOn_goes_on (queryStep_goes_on hop) fun _ _ => ⟨_, rfl⟩
  | rbEnqueue sel b st =>
    obtain ⟨-, hv, hl⟩ := hop
    exact mainGoesOn_goes_on (enqueueStep_goes_on (hs.block.ring sel) hv hl) fun _ _ => ⟨_, rfl⟩
  | rbDequeue sel st =>
    obtain ⟨-, hv, hl⟩ := hop
    exact mainGoesOn_goes_on (dequeueStep_goes_on (hs.block.ring sel) hv hl) fun _ _ => ⟨_, rfl⟩
  | rbResetStats sel st =>
    cases st with
    | t1 => exact ⟨_, by simp only [mainMicro, microRbResetStats, withValid_of_valid _ hop]; rfl⟩
    | t2 | t3 | t4 => exact ⟨_, rfl⟩
  | rbMinFree sel => exact ⟨_, by simp only [mainMicro, microRbMinFree, withValid_of_valid _ hop]; rfl⟩
  | tpInit baud st =>
    cases st with
    | i1 => cases hi : s.initialized <;> exact ⟨_, by simp only [mainMicro, microTpInit, hi]; rfl⟩
    | i2 =>
      cases hb : baud < s.cfg.baudMin || s.cfg.baudMax < baud <;>
        exact ⟨_, by simp only [mainMicro, microTpInit, hb]; rfl⟩
    | i3 | i4 | i5 | i6 => exact ⟨_, rfl⟩
  | tpWrite b st =>
    cases st with
    | w1 e =>
      obtain ⟨hini, hl⟩ := hop
      have hv := hs.block.valid hini .tx
      exact mainGoesOn_goes_on (enqueueStep_goes_on hs.tx hv hl) fun _ _ => ⟨_, rfl⟩
    | w2 | w3 | w4 | w5 => exact ⟨_, rfl⟩
  | tpRead st =>
    cases st with
    | d1 q =>
      obtain ⟨hini, hl⟩ := hop
      have hv := hs.block.valid hini .rx
      exact mainGoesOn_goes_on (dequeueStep_goes_on hs.rx hv hl) fun _ _ => ⟨_, rfl⟩
    | d2 => exact ⟨_, rfl⟩
  | rbInit | irqMask | irqUnmask => exact ⟨_, rfl⟩

theorem mainStep_goes_on {s : State} (hs : s.Inv) : ∃ t, mainStep s = .next t := by
  cases hop : s.mainOp with
  | none => exact ⟨s, by simp [mainStep, hop]⟩
  | some op =>
    obtain ⟨t, ht⟩ := mainMicro_goes_on hs (hs.main op hop)
    exact ⟨t, by simpa [mainStep, hop] using ht⟩

theorem isrMicro_goes_on {op : IsrOp} {s : State} (hs : s.Inv) (hini : s.initialized = true) (hop : op.Inv s) :
    ∃ t, isrMicro op s = .next t := by
  cases op with
  | h1Read =>
    obtain ⟨b, rest, hrest⟩ := List.ne_nil_iff_exists_cons.1 (by simpa [IsrOp.Inv, State.rxReady] using hop)
    have hread := uartReadRx_eq_next.2 ⟨rest, hrest, rfl⟩
    exact ⟨_, andThen_eq_next.2 ⟨_, hread, rfl⟩⟩
  | h1Enqueue b st =>
    have hv := hs.block.valid hini .rx
    exact isrGoesOn_goes_on (enqueueStep_goes_on hs.rx hv hop) fun _ _ => ⟨_, rfl⟩
  | h3Dequeue st =>
    obtain ⟨hl, -⟩ := hop
    have hv := hs.block.valid hini .tx
    exact isrGoesOn_goes_on (dequeueStep_goes_on hs.tx hv hl) fun _ _ => ⟨_, rfl⟩
  | h3Result v =>
    cases v with
    | none => exact ⟨_, rfl⟩
    | some b =>
      obtain ⟨-, hfree⟩ := hop
      have hwrite := uartWriteTx_eq_next (b := b).2 ⟨Option.isNone_iff_eq_none.1 hfree, rfl⟩
      exact ⟨_, andThen_eq_next.2 ⟨_, hwrite, rfl⟩⟩
  | h1Test | h2Test | h2Clear | h3Test | h4 => exact ⟨_, rfl⟩

theorem isrStep_goes_on {s : State} (hs : s.Inv) : ∃ t, isrStep s = .next t := by
  cases hop : s.isrOp with
  | none => exact ⟨s, by simp [isrStep, hop]⟩
  | some op =>
    obtain ⟨hini, -, hl⟩ := hs.handler op hop
    obtain ⟨t, ht⟩ := isrMicro_goes_on hs hini hl
    exact ⟨t, by simpa [isrStep, hop] using ht⟩

theorem advance_goes_on {s : State} (hs : s.Inv) : ∃ t, advance s = .next t := by
  unfold advance
  split
  · exact isrStep_goes_on hs
  · exact mainStep_goes_on hs

/-- Settles O19: under the invariant each micro-step of MAIN and of the handler has what it needs: a valid ring, a
written slot, a byte held, a free transmit register. -/
theorem begunOperationGoesOn : Obligations.BegunOperationGoesOn := fun _ => advance_goes_on

/-! Whole runs go on, and nothing that begins an operation touches a slot. -/

theorem runMainFor_goes_on {n : Nat} {s : State} (hs : s.Inv) (hi : s.isrOp = none) :
    ∃ t, runMainFor n s = .next t := by
  induction n generalizing s with
  | zero => exact ⟨s, rfl⟩
  | succ n ih =>
    obtain ⟨a, ha⟩ := mainStep_goes_on hs
    cases he : mainRunEnds a with
    | true => exact ⟨a, runMainFor_last ha he⟩
    | false =>
      obtain ⟨t, ht⟩ := ih (mainStep_inv s a hs hi ha) ((mainStep_frame ha).isrOp.trans hi)
      exact ⟨t, (runMainFor_more ha he).trans ht⟩

theorem runHandlerFor_goes_on {n : Nat} {s : State} (hs : s.Inv) : ∃ t, runHandlerFor n s = .next t := by
  induction n generalizing s with
  | zero => exact ⟨s, rfl⟩
  | succ n ih =>
    obtain ⟨a, ha⟩ := isrStep_goes_on hs
    cases hop : a.isrOp with
    | none => exact ⟨a, runHandlerFor_last ha hop⟩
    | some op =>
      obtain ⟨t, ht⟩ := ih (isrStep_inv s a hs ha)
      exact ⟨t, (runHandlerFor_more ha hop).trans ht⟩

theorem issueMain_ne_fault {op : MainOp} {s : State} {f : Fault} : issueMain op s ≠ .fault f := by
  unfold issueMain
  split <;> nofun

theorem issueRing_ne_fault {sel : RingSel} {op : MainOp} {s : State} {f : Fault} : issueRing sel op s ≠ .fault f := by
  unfold issueRing withValid
  split
  · exact issueMain_ne_fault
  · nofun

theorem whileUnowned_ne_fault {sel : RingSel} {s : State} {o : Run State} {f : Fault} (h : o ≠ .fault f) :
    whileUnowned sel s o ≠ .fault f := by
  unfold whileUnowned
  split
  · nofun
  · exact h

theorem withStats_ne_fault {s : State} {o : Run State} {f : Fault} (h : o ≠ .fault f) : withStats s o ≠ .fault f := by
  unfold withStats
  split
  · exact h
  · nofun

theorem asStatsProducer_ne_fault {sel : RingSel} {s : State} {o : Run State} {f : Fault} (h : o ≠ .fault f) :
    asStatsProducer sel s o ≠ .fault f := by
  unfold asStatsProducer
  split
  · exact h
  · nofun

theorem whenInitialized_ne_fault {s : State} {o : Run State} {f : Fault} (h : o ≠ .fault f) :
    whenInitialized s o ≠ .fault f := by
  unfold whenInitialized
  split
  · exact h
  · nofun

theorem startInstr_ne_fault (i : Instr) (s : State) (f : Fault) : startInstr i s ≠ .fault f := by
  cases i with
  | rbInit sel cap =>
    refine whileUnowned_ne_fault ?_
    split
    · exact issueMain_ne_fault
    · nofun
  | rbIsFull sel => exact issueRing_ne_fault
  | rbIsEmpty sel => exact issueRing_ne_fault
  | rbEnqueue sel b => exact whileUnowned_ne_fault issueRing_ne_fault
  | rbDequeue sel => exact whileUnowned_ne_fault issueRing_ne_fault
  | rbFreeSlots sel => exact withStats_ne_fault issueRing_ne_fault
  | rbResetStats sel => exact withStats_ne_fault (asStatsProducer_ne_fault issueRing_ne_fault)
  | rbMinFree sel => exact withStats_ne_fault issueRing_ne_fault
  | tpInit baud => exact issueMain_ne_fault
  | tpWrite b => exact whenInitialized_ne_fault issueMain_ne_fault
  | tpRead => exact whenInitialized_ne_fault issueMain_ne_fault
  | irqMask => exact issueMain_ne_fault
  | irqUnmask => exact issueMain_ne_fault
  | isr =>
    simp only [startInstr, startIsr, enterHandler]
    split <;> nofun
  | devRxArrive b =>
    simp only [startInstr, execDevRxArrive, uartReceive]
    split
    · split <;> nofun
    · nofun
  | devTxShift =>
    simp only [startInstr, execDevTxShift, uartShift]
    split
    · split <;> nofun
    · nofun

theorem exec_ne_fault {i : Instr} {s : State} (hs : s.Inv) (f : Fault) : exec i s ≠ .fault f := by
  intro h
  cases hi : issuedByMain i with
  | true =>
    rw [exec_of_main hi] at h
    rcases andThen_eq_fault.1 h with h | ⟨a, ha, h⟩
    · exact startInstr_ne_fault i s f h
    · obtain ⟨t, ht⟩ := runMainFor_goes_on (startInstr_inv i s a hs ha) (isrOp_of_startInstr_main hi ha)
      cases ht.symm.trans h
  | false =>
    cases i with
    | isr =>
      rcases andThen_eq_fault.1 h with h | ⟨a, ha, h⟩
      · exact startInstr_ne_fault .isr s f h
      · obtain ⟨t, ht⟩ := runHandlerFor_goes_on (startInstr_inv .isr s a hs ha)
        cases ht.symm.trans h
    | devRxArrive b => exact startInstr_ne_fault (.devRxArrive b) s f h
    | devTxShift => exact startInstr_ne_fault .devTxShift s f h
    | _ => cases hi

/-- Settles O18: a step is a micro-step, which goes on, a word, whose beginning touches no slot and whose micro-steps go
on, a refusal or the reset event. -/
theorem noStepFaults : Obligations.NoStepFaults := by
  intro s f hs h
  rcases step_cases s with ⟨turns, -, e⟩ | ⟨-, ⟨turns, -, e⟩ | ⟨why, e⟩ | ⟨i, bytes, turns, -, -, e | e⟩⟩
  · cases e.symm.trans h
  · obtain ⟨t, ht⟩ := advance_goes_on (hs.schedule s.trace turns)
    cases (e.trans ht).symm.trans h
  · cases e.symm.trans h
  · exact exec_ne_fault (hs.schedule bytes turns) f (e.symm.trans h)
  · exact startInstr_ne_fault i _ f (e.symm.trans h)

end Sys2Proof.Machine
end

/-! Whole words: the exact result of each operation run without interruption (R62, R81 to R109, R121, R122, R143). -/

section
namespace Sys2Proof.Machine

/-! The micro-steps of an enqueue and of a dequeue, an equation each (R84, R85). -/

section
variable {s : State} {sel : RingSel} {b : Byte} {w d ds ws : Nat}

theorem enqueueStep_e1 (hv : (s.ring sel).valid = true) :
    enqueueStep sel b .e1 s = .next (s, .more (.e2 (s.ring sel).wr)) := by
  rw [enqueueStep, withValid_of_valid _ hv]

theorem enqueueStep_e3_of_full (hf : isFullOf (s.ring sel).cap w ds = true) :
    enqueueStep sel b (.e3 w ds) s = .next (s, .done false) := by
  simp [enqueueStep, hf]

theorem enqueueStep_e3_of_room (hf : isFullOf (s.ring sel).cap w ds = false) :
    enqueueStep sel b (.e3 w ds) s = .next (s, .more (.e4 w ds)) := by
  simp [enqueueStep, hf]

theorem enqueueStep_e4 (hv : (s.ring sel).valid = true) (hw : w < (s.ring sel).cap) :
    enqueueStep sel b (.e4 w ds) s =
      .next (s.setRing sel { s.ring sel with buf := memPut (s.ring sel).buf w b }, .more (.e5 w ds)) :=
  andThen_eq_next.2 ⟨_, memWrite_eq_next.2 ⟨⟨hv, hw⟩, rfl⟩, rfl⟩

/-- A slot outside the array is not written (R42). -/
theorem enqueueStep_e4_of_outside (hw : ¬ w < (s.ring sel).cap) :
    enqueueStep sel b (.e4 w ds) s = .fault (.slotOutOfRange sel w) := by
  simp [enqueueStep, memWrite, hw]

theorem dequeueStep_q1 (hv : (s.ring sel).valid = true) :
    dequeueStep sel .q1 s = .next (s, .more (.q2 (s.ring sel).rd)) := by
  rw [dequeueStep, withValid_of_valid _ hv]

theorem dequeueStep_q3_of_empty (he : isEmptyOf ws d = true) :
    dequeueStep sel (.q3 d ws) s = .next (s, .done none) := by
  simp [dequeueStep, he]

theorem dequeueStep_q3_of_byte (he : isEmptyOf ws d = false) :
    dequeueStep sel (.q3 d ws) s = .next (s, .more (.q4 d)) := by
  simp [dequeueStep, he]

theorem dequeueStep_q4 (hv : (s.ring sel).valid = true) (hd : d < (s.ring sel).cap)
    (hb : memGet (s.ring sel).buf d = some b) : dequeueStep sel (.q4 d) s = .next (s, .more (.q5 d b)) :=
  andThen_eq_next.2 ⟨b, memRead_eq_next.2 ⟨⟨hv, hd⟩, hb⟩, rfl⟩

/-- A slot never written supplies no value (R41). -/
theorem dequeueStep_q4_of_unwritten (hv : (s.ring sel).valid = true) (hd : d < (s.ring sel).cap)
    (hb : memGet (s.ring sel).buf d = none) : dequeueStep sel (.q4 d) s = .fault (.unwrittenSlot sel d) := by
  simp [dequeueStep, memRead, hv, hd, hb]

end

/-! The rows of micro-steps, whoever takes them: `run` takes micro-steps and `at'` says which context stands where. -/

section
variable {run : Nat → State → Run State} {s : State} {sel : RingSel} {b : Byte} {r : Ring}

/-- `E1` and `E2`: the two snapshots are taken. -/
theorem run_enqueue_snapshots {at' : State → EnqStep → State}
    (hstep : ∀ n s t st st', enqueueStep sel b st s = .next (t, .more st') → run (n + 1) (at' s st) = run n (at' t st'))
    (hv : (s.ring sel).valid = true) (n : Nat) :
    run (n + 2) (at' s .e1) = run n (at' s (.e3 (s.ring sel).wr (s.ring sel).rd)) := by
  rw [hstep _ _ _ _ _ (enqueueStep_e1 hv)]
  exact hstep n s s _ _ rfl

/-- `E1` to `E6` of an enqueue that finds room. -/
theorem run_enqueue_of_room {at' : State → EnqStep → State}
    (hstep : ∀ n s t st st', enqueueStep sel b st s = .next (t, .more st') → run (n + 1) (at' s st) = run n (at' t st'))
    (hring : s.ring sel = r) (hv : r.valid = true) (hw : r.wr < r.cap) (hf : r.full = false) (n : Nat) :
    run (n + 6) (at' s .e1) = run n (at' (s.setRing sel (r.enqueued s.cfg.hasStats b)) .e7) := by
  subst hring
  calc run (n + 6) (at' s .e1)
    _ = run (n + 4) (at' s (.e3 (s.ring sel).wr (s.ring sel).rd)) := run_enqueue_snapshots hstep hv (n + 4)
    _ = run (n + 3) (at' s (.e4 (s.ring sel).wr (s.ring sel).rd)) := hstep _ _ _ _ _ (enqueueStep_e3_of_room hf)
    _ = run (n + 2) (at' (s.setRing sel { s.ring sel with buf := memPut (s.ring sel).buf (s.ring sel).wr b })
          (.e5 (s.ring sel).wr (s.ring sel).rd)) := hstep _ _ _ _ _ (enqueueStep_e4 hv hw)
    _ = run (n + 1) (at' (s.setRing sel { s.ring sel with
            buf := memPut (s.ring sel).buf (s.ring sel).wr b
            wr := incMod (s.ring sel).wr (s.ring sel).cap }) (.e6 (s.ring sel).wr (s.ring sel).rd)) :=
      hstep _ _ _ _ _ (by simp [enqueueStep, setWr_eq])
    _ = run n (at' (s.setRing sel ((s.ring sel).enqueued s.cfg.hasStats b)) .e7) :=
      hstep _ _ _ _ _ (by simp [enqueueStep, sampleMinFree_eq_setRing, Ring.enqueued])

/-- `Q1` and `Q2`: the two snapshots are taken. -/
theorem run_dequeue_snapshots {at' : State → DeqStep → State}
    (hstep : ∀ n s t st st', dequeueStep sel st s = .next (t, .more st') → run (n + 1) (at' s st) = run n (at' t st'))
    (hv : (s.ring sel).valid = true) (n : Nat) :
    run (n + 2) (at' s .q1) = run n (at' s (.q3 (s.ring sel).rd (s.ring sel).wr)) := by
  rw [hstep _ _ _ _ _ (dequeueStep_q1 hv)]
  exact hstep n s s _ _ rfl

/-- `Q1` to `Q5` of a dequeue that finds a byte. -/
theorem run_dequeue_of_byte {at' : State → DeqStep → State}
    (hstep : ∀ n s t st st', dequeueStep sel st s = .next (t, .more st') → run (n + 1) (at' s st) = run n (at' t st'))
    (hring : s.ring sel = r) (hv : r.valid = true) (hr : r.rd < r.cap) (he : r.empty = false)
    (hb : memGet r.buf r.rd = some b) (n : Nat) :
    run (n + 5) (at' s .q1) = run n (at' (s.setRing sel r.dequeued) (.q6 b)) := by
  subst hring
  calc run (n + 5) (at' s .q1)
    _ = run (n + 3) (at' s (.q3 (s.ring sel).rd (s.ring sel).wr)) := run_dequeue_snapshots hstep hv (n + 3)
    _ = run (n + 2) (at' s (.q4 (s.ring sel).rd)) := hstep _ _ _ _ _ (dequeueStep_q3_of_byte he)
    _ = run (n + 1) (at' s (.q5 (s.ring sel).rd b)) := hstep _ _ _ _ _ (dequeueStep_q4 hv hr hb)
    _ = run n (at' (s.setRing sel (s.ring sel).dequeued) (.q6 b)) := hstep _ _ _ _ _ rfl

end

/-! A part does the same whichever micro-step MAIN or the handler stands at. -/

section
variable {f : State → State} (hcfg : ∀ s, (f s).cfg = s.cfg) (hring : ∀ s sel, (f s).ring sel = s.ring sel)
  (hset : ∀ s sel r, (f s).setRing sel r = f (s.setRing sel r))
include hcfg hring hset

theorem enqueueStep_map {sel : RingSel} {b : Byte} {st : EnqStep} {s t : State} {p : Progress EnqStep Bool}
    (h : enqueueStep sel b st s = .next (t, p)) : enqueueStep sel b st (f s) = .next (f t, p) := by
  rcases enqueueStep_cases h with ⟨rfl, hv, rfl, rfl⟩ | ⟨w, rfl, rfl, rfl⟩ | ⟨w, ds, rfl, hf, rfl, rfl⟩ |
    ⟨w, ds, rfl, hf, rfl, rfl⟩ | ⟨w, ds, rfl, hv, hw, rfl, rfl⟩ | ⟨w, ds, rfl, rfl, rfl⟩ |
    ⟨w, ds, rfl, rfl, rfl⟩ | ⟨rfl, rfl, rfl⟩
  · simp [enqueueStep, withValid, hv, hring]
  · simp [enqueueStep, hring]
  · simp [enqueueStep, hf, hring]
  · simp [enqueueStep, hf, hring]
  · simp [enqueueStep, memWrite, hv, hw, hring, hset]
  · simp [enqueueStep, setWr_eq, hring, hset]
  · simp [enqueueStep, sampleMinFree_eq_setRing, hring, hset, hcfg]
  · simp [enqueueStep]

omit hcfg in
theorem dequeueStep_map {sel : RingSel} {st : DeqStep} {s t : State} {p : Progress DeqStep (Option Byte)}
    (h : dequeueStep sel st s = .next (t, p)) : dequeueStep sel st (f s) = .next (f t, p) := by
  rcases dequeueStep_cases h with ⟨rfl, hv, rfl, rfl⟩ | ⟨d, rfl, rfl, rfl⟩ | ⟨d, ws, rfl, he, rfl, rfl⟩ |
    ⟨d, ws, rfl, he, rfl, rfl⟩ | ⟨d, b, rfl, hv, hd, hb, rfl, rfl⟩ | ⟨d, b, rfl, rfl, rfl⟩ | ⟨b, rfl, rfl, rfl⟩
  · simp [dequeueStep, withValid, hv, hring]
  · simp [dequeueStep, hring]
  · simp [dequeueStep, isEmptyOf, he]
  · simp [dequeueStep, isEmptyOf, he]
  · simp [dequeueStep, memRead, hv, hd, hb, hring]
  · simp [dequeueStep, setRd_eq, hring, hset]
  · simp [dequeueStep]

end

@[simp] theorem setRing_isrAt (s : State) (op : IsrOp) (sel : RingSel) (r : Ring) :
    (s.isrAt op).setRing sel r = (s.setRing sel r).isrAt op := by
  cases sel <;> rfl

section
variable {n : Nat} {s t : State} {sel : RingSel} {b : Byte} {op : MainOp}

theorem enqueueStep_mainAt {st : EnqStep} {p : Progress EnqStep Bool} (h : enqueueStep sel b st s = .next (t, p)) :
    enqueueStep sel b st (s.mainAt op) = .next (t.mainAt op, p) :=
  enqueueStep_map (f := (State.mainAt · op)) (by simp) (by simp) (by simp) h

theorem dequeueStep_mainAt {st : DeqStep} {p : Progress DeqStep (Option Byte)}
    (h : dequeueStep sel st s = .next (t, p)) : dequeueStep sel st (s.mainAt op) = .next (t.mainAt op, p) :=
  dequeueStep_map (f := (State.mainAt · op)) (by simp) (by simp) h

/-- A micro-step of `W1`'s enqueue does not lead to its beginning, where a run would end. -/
theorem enqueueStep_more_ne_e1 {st st' : EnqStep} (h : enqueueStep sel b st s = .next (t, .more st')) : st' ≠ .e1 := by
  rintro rfl
  have hleft : EnqStep.left .e1 < st.left := enqueueStep_left h
  cases st <;> exact absurd hleft (by simp [EnqStep.left])

theorem runMainFor_rbEnqueue_more {st st' : EnqStep} (h : enqueueStep sel b st s = .next (t, .more st')) :
    runMainFor (n + 1) (s.mainAt (.rbEnqueue sel b st)) = runMainFor n (t.mainAt (.rbEnqueue sel b st')) :=
  runMainFor_enqueue_more (enqueueStep_mainAt h)

theorem runMainFor_rbDequeue_more {st st' : DeqStep} (h : dequeueStep sel st s = .next (t, .more st')) :
    runMainFor (n + 1) (s.mainAt (.rbDequeue sel st)) = runMainFor n (t.mainAt (.rbDequeue sel st')) :=
  runMainFor_dequeue_more (dequeueStep_mainAt h)

theorem runMainFor_tpWrite_more {st st' : EnqStep} (h : enqueueStep .tx b st s = .next (t, .more st')) :
    runMainFor (n + 1) (s.mainAt (.tpWrite b (.w1 st))) = runMainFor n (t.mainAt (.tpWrite b (.w1 st'))) := by
  refine runMainFor_more (mainGoesOn_eq_next.2 (.inl ⟨_, _, enqueueStep_mainAt h, rfl⟩)) ?_
  cases st' with
  | e1 => exact absurd rfl (enqueueStep_more_ne_e1 h)
  | _ => rfl

theorem runMainFor_tpRead_more {st st' : DeqStep} (h : dequeueStep .rx st s = .next (t, .more st')) :
    runMainFor (n + 1) (s.mainAt (.tpRead (.d1 st))) = runMainFor n (t.mainAt (.tpRead (.d1 st'))) :=
  runMainFor_more (mainGoesOn_eq_next.2 (.inl ⟨_, _, dequeueStep_mainAt h, rfl⟩)) rfl

end

/-! The beginning of a word, and its end on an idle block. -/

section
variable {s : State} {sel : RingSel} {op : MainOp} {i : Instr}

theorem issueMain_of_idle (hi : s.idle = true) : issueMain op s = .next (s.mainAt op) := by
  obtain ⟨hmain, hisr⟩ := idle_iff.1 hi
  exact issueMain_eq_next.2 ⟨hmain, hisr, rfl⟩

theorem whileUnowned_of_owned (h : s.initialized = true) (o : Run State) :
    whileUnowned sel s o = .refused (.ownedByTransport sel) := if_pos h

theorem withStats_of_absent (h : s.cfg.hasStats = false) (o : Run State) :
    withStats s o = .refused (.reservedWord .statsAbsent) := by simp [withStats, h]

theorem withStats_of_stats (h : s.cfg.hasStats = true) (o : Run State) : withStats s o = o := if_pos h

theorem asStatsProducer_of_role (h : s.initialized = false ∨ sel = .tx ∨ s.irqMasked = true) (o : Run State) :
    asStatsProducer sel s o = o := by
  obtain h | rfl | h := h <;> simp [asStatsProducer, *]

theorem issueRing_of_invalid (h : (s.ring sel).valid = false) : issueRing sel op s = .refused (.ringNotValid sel) := by
  simp [issueRing, withValid, h]

theorem exec_of_start {a : State} (hm : issuedByMain i = true) (h : startInstr i s = .next a) :
    exec i s = runMain a := by
  rw [exec_of_main hm, h, andThen_next]

theorem exec_of_refused {why : Refusal} (hm : issuedByMain i = true) (h : startInstr i s = .refused why) :
    exec i s = .refused why := by
  rw [exec_of_main hm, h, andThen_refused]

theorem mainReturn_of_idle (hi : s.idle = true) (v : Word) : s.mainReturn v = { s with res := v } := by
  obtain ⟨hmain, -⟩ := idle_iff.1 hi
  simp [State.mainReturn, hmain]

theorem idle_setRing (hi : s.idle = true) (sel : RingSel) (r : Ring) : (s.setRing sel r).idle = true := by
  simpa [State.idle] using hi

end

/-! `RB.INIT` (R81). -/

section
variable {s : State} {sel : RingSel} {cap : Word}

theorem exec_rbInit_of_idle (hi : s.idle = true) (hini : s.initialized = false) (hlow : 2 ≤ cap.toNat)
    (hhigh : cap.toNat ≤ s.cfg.storageMax) :
    exec (.rbInit sel cap) s =
      .next ((s.setRing sel ((s.ring sel).create s.cfg.hasStats cap.toNat)).mainReturn unitResult) := by
  have hstart : startInstr (.rbInit sel cap) s = .next (s.mainAt (.rbInit sel (capacityOperand cap))) := by
    refine whileUnowned_eq_next.2 ⟨hini, ?_⟩
    rw [if_pos (by simp [capacityOperand, hlow, hhigh])]
    exact issueMain_of_idle hi
  rw [exec_of_start rfl hstart, runMain, runMainFor_last rfl rfl, mainAt_ring, setRing_mainAt]
  rfl

/-- Settles O29: the one micro-step of `RB.INIT` creates the ring. -/
theorem rbInitCreatesAnEmptyRing : Obligations.RbInitCreatesAnEmptyRing := by
  intro s sel cap hi hini hlow hhigh
  rw [exec_rbInit_of_idle hi hini hlow hhigh, mainReturn_of_idle (idle_setRing hi sel _)]
  rfl

/-- Settles O30: both checks come before anything is written. -/
theorem rbInitRefusals : Obligations.RbInitRefusals := by
  intro s sel cap
  refine ⟨fun hini => exec_of_refused rfl (whileUnowned_of_owned hini _), fun hini hcap => exec_of_refused rfl ?_⟩
  have hbad : ¬(2 ≤ capacityOperand cap ∧ capacityOperand cap ≤ s.cfg.storageMax) := by
    unfold capacityOperand
    omega
  simp [startInstr, startRbInit, whileUnowned, hini, hbad]

end

/-! The three queries (R82, R83, R86). -/

/-- An operation that is no more than a query runs its three micro-steps and answers from the two indices. -/
theorem runMain_query {s : State} {sel : RingSel} {answer : Nat → Nat → Nat → Word} {at' : QueryStep → MainOp}
    (hmicro : ∀ st u, mainMicro (at' st) u =
      mainGoesOn (queryStep sel answer st u) at' fun v s' => .next (s'.mainReturn v))
    (hends : ∀ st u, mainRunEnds (State.mainAt u (at' st)) = false) (hv : (s.ring sel).valid = true) :
    runMain (s.mainAt (at' .readWr)) =
      .next (s.mainReturn (answer (s.ring sel).cap (s.ring sel).wr (s.ring sel).rd)) := by
  have more : ∀ n st st', queryStep sel answer st (s.mainAt (at' st)) = .next (s.mainAt (at' st), .more st') →
      runMainFor (n + 1) (s.mainAt (at' st)) = runMainFor n (s.mainAt (at' st')) := fun n st st' h =>
    runMainFor_more ((hmicro _ _).trans (mainGoesOn_eq_next.2 (.inl ⟨_, _, h, rfl⟩))) (hends _ _)
  calc runMain (s.mainAt (at' .readWr))
    _ = runMainFor 15 (s.mainAt (at' (.readRd (s.ring sel).wr))) :=
      more 15 _ _ (by rw [queryStep, withValid_of_valid _ (by simpa using hv), mainAt_ring])
    _ = runMainFor 14 (s.mainAt (at' (.answer (s.ring sel).wr (s.ring sel).rd))) :=
      more 14 _ _ (by rw [queryStep, mainAt_ring])
    _ = _ := runMainFor_last
      ((hmicro _ _).trans (mainGoesOn_eq_next.2 (.inr ⟨_, _, rfl, by rw [mainAt_ring]; rfl⟩))) rfl

/-- Settles O31: the three queries are one part with three answers. -/
theorem queriesAnswerAndWriteNothing : Obligations.QueriesAnswerAndWriteNothing := by
  intro s sel hi hv
  refine ⟨?_, ?_, fun hstats => ?_⟩
  · rw [exec_of_start (i := .rbIsFull sel) rfl (issueRing_of_idle hi hv),
      runMain_query (fun _ _ => rfl) (fun _ _ => rfl) hv, mainReturn_of_idle hi]
    rfl
  · rw [exec_of_start (i := .rbIsEmpty sel) rfl (issueRing_of_idle hi hv),
      runMain_query (fun _ _ => rfl) (fun _ _ => rfl) hv, mainReturn_of_idle hi]
    rfl
  · rw [exec_of_start (i := .rbFreeSlots sel) rfl
        (withStats_eq_next.2 ⟨hstats, issueRing_of_idle hi hv⟩),
      runMain_query (fun _ _ => rfl) (fun _ _ => rfl) hv, mainReturn_of_idle hi]
    rfl

/-! `RB.ENQUEUE` and `RB.DEQUEUE` (R84, R85). -/

section
variable {s : State} {sel : RingSel} {b : Byte}

theorem exec_rbEnqueue_of_idle (hi : s.idle = true) (hini : s.initialized = false)
    (hv : (s.ring sel).valid = true) : exec (.rbEnqueue sel b) s = runMain (s.mainAt (.rbEnqueue sel b .e1)) :=
  exec_of_start rfl (whileUnowned_eq_next.2 ⟨hini, issueRing_of_idle hi hv⟩)

theorem exec_rbDequeue_of_idle (hi : s.idle = true) (hini : s.initialized = false)
    (hv : (s.ring sel).valid = true) : exec (.rbDequeue sel) s = runMain (s.mainAt (.rbDequeue sel .q1)) :=
  exec_of_start rfl (whileUnowned_eq_next.2 ⟨hini, issueRing_of_idle hi hv⟩)

theorem runMain_rbEnqueue_of_full (hv : (s.ring sel).valid = true) (hf : (s.ring sel).full = true) :
    runMain (s.mainAt (.rbEnqueue sel b .e1)) = .next (s.mainReturn (boolResult false)) := by
  rw [runMain, run_enqueue_snapshots (at' := fun s st => s.mainAt (.rbEnqueue sel b st))
    (fun _ _ _ _ _ => runMainFor_rbEnqueue_more) hv 14]
  have hdone := enqueueStep_mainAt (op := .rbEnqueue sel b (.e3 (s.ring sel).wr (s.ring sel).rd))
    (enqueueStep_e3_of_full (b := b) hf)
  exact runMainFor_last (mainGoesOn_eq_next.2 (.inr ⟨_, _, hdone, rfl⟩)) rfl

/-- On a ring whose write index lies outside the array an enqueue that finds room faults (R42). -/
theorem runMain_rbEnqueue_of_outside (hv : (s.ring sel).valid = true) (hf : (s.ring sel).full = false)
    (hw : ¬ (s.ring sel).wr < (s.ring sel).cap) :
    runMain (s.mainAt (.rbEnqueue sel b .e1)) = .fault (.slotOutOfRange sel (s.ring sel).wr) := by
  rw [runMain, run_enqueue_snapshots (at' := fun s st => s.mainAt (.rbEnqueue sel b st))
    (fun _ _ _ _ _ => runMainFor_rbEnqueue_more) hv 14, runMainFor_rbEnqueue_more (enqueueStep_e3_of_room hf)]
  simp [runMainFor, mainStep, mainMicro, microRbEnqueue, mainGoesOn, enqueueStep_e4_of_outside, hw]

theorem runMain_rbDequeue_of_empty (hv : (s.ring sel).valid = true) (he : (s.ring sel).empty = true) :
    runMain (s.mainAt (.rbDequeue sel .q1)) = .next (s.mainReturn (optionResult none)) := by
  rw [runMain, run_dequeue_snapshots (at' := fun s st => s.mainAt (.rbDequeue sel st))
    (fun _ _ _ _ _ => runMainFor_rbDequeue_more) hv 14]
  have hdone := dequeueStep_mainAt (op := .rbDequeue sel (.q3 (s.ring sel).rd (s.ring sel).wr))
    (dequeueStep_q3_of_empty (s := s) (sel := sel) he)
  exact runMainFor_last (mainGoesOn_eq_next.2 (.inr ⟨_, _, hdone, rfl⟩)) rfl

theorem exec_rbEnqueue_of_full (b : Byte) (hi : s.idle = true) (hini : s.initialized = false)
    (hv : (s.ring sel).valid = true) (hf : (s.ring sel).full = true) :
    exec (.rbEnqueue sel b) s = .next { s with res := boolResult false } := by
  rw [exec_rbEnqueue_of_idle hi hini hv, runMain_rbEnqueue_of_full hv hf, mainReturn_of_idle hi]

theorem exec_rbDequeue_of_empty (hi : s.idle = true) (hini : s.initialized = false)
    (hv : (s.ring sel).valid = true) (he : (s.ring sel).empty = true) :
    exec (.rbDequeue sel) s = .next { s with res := optionResult none } := by
  rw [exec_rbDequeue_of_idle hi hini hv, runMain_rbDequeue_of_empty hv he, mainReturn_of_idle hi]

end

/-- Settles O32: the row `E1` to `E7` of an enqueue that finds room. -/
theorem rbEnqueueStoresTheByte : Obligations.RbEnqueueStoresTheByte := by
  intro s sel b hi hini hv hw hf
  rw [exec_rbEnqueue_of_room b hi hini rfl hv hw hf, mainReturn_of_idle (idle_setRing hi sel _)]
  rfl

/-- Settles O33: `E3` answers false, and nothing has been written before it. -/
theorem rbEnqueueOnFullWritesNothing : Obligations.RbEnqueueOnFullWritesNothing := fun _ _ b =>
  exec_rbEnqueue_of_full b

/-- Settles O34: the row `Q1` to `Q6` of a dequeue that finds a byte, or the answer of `Q3`. -/
theorem rbDequeueTakesTheOldestByte : Obligations.RbDequeueTakesTheOldestByte := by
  intro s sel hi hini hv
  refine ⟨fun b hr he hb => ?_, exec_rbDequeue_of_empty hi hini hv⟩
  rw [exec_rbDequeue_of_byte hi hini rfl hv hr he hb, mainReturn_of_idle (idle_setRing hi sel _)]
  rfl

/-- Settles O35: `Q4` faults where the memory holds nothing. -/
theorem unwrittenSlotFaults : Obligations.UnwrittenSlotFaults := by
  intro s sel hi hini hv hr he hb
  have hrun : runMain (s.mainAt (.rbDequeue sel .q1)) =
      runMainFor 13 (s.mainAt (.rbDequeue sel (.q4 (s.ring sel).rd))) := by
    rw [runMain, run_dequeue_snapshots (at' := fun s st => s.mainAt (.rbDequeue sel st))
      (fun _ _ _ _ _ => runMainFor_rbDequeue_more) hv 14, runMainFor_rbDequeue_more (dequeueStep_q3_of_byte he)]
  rw [exec_rbDequeue_of_idle hi hini hv, hrun]
  simp [runMainFor, mainStep, mainMicro, microRbDequeue, mainGoesOn, dequeueStep_q4_of_unwritten, hv, hr, hb]

/-! The statistics (R87, R88). -/

/-- Settles O36: `T3` writes the counter from the indices read at `T1` and `T2`. -/
theorem rbResetStatsRestartsTheCounter : Obligations.RbResetStatsRestartsTheCounter := by
  intro s sel hi hstats hv hrole
  have hstart : startInstr (.rbResetStats sel) s = .next (s.mainAt (.rbResetStats sel .t1)) := by
    simp only [startInstr, startRbResetStats]
    rw [withStats_of_stats hstats, asStatsProducer_of_role hrole, issueRing_of_idle hi hv]
  calc exec (.rbResetStats sel) s
    _ = runMain (s.mainAt (.rbResetStats sel .t1)) := exec_of_start rfl hstart
    _ = runMainFor 15 (s.mainAt (.rbResetStats sel (.t2 (s.ring sel).wr))) :=
      runMainFor_more (by simp [mainStep, mainMicro, microRbResetStats, withValid, hv]) rfl
    _ = runMainFor 14 (s.mainAt (.rbResetStats sel (.t3 (s.ring sel).wr (s.ring sel).rd))) :=
      runMainFor_more (by simp [mainStep, mainMicro, microRbResetStats]) rfl
    _ = runMainFor 13 ((s.setRing sel { s.ring sel with minFree := (s.ring sel).free }).mainAt
          (.rbResetStats sel .t4)) :=
      runMainFor_more (by simp [mainStep, mainMicro, microRbResetStats, setMinFree_eq, Ring.free]) rfl
    _ = .next ((s.setRing sel { s.ring sel with minFree := (s.ring sel).free }).mainReturn unitResult) :=
      runMainFor_last rfl rfl
    _ = _ := by rw [mainReturn_of_idle (idle_setRing hi sel _)]; rfl

/-- Settles O37: one micro-step, which reads. -/
theorem rbMinFreeReadsTheCounter : Obligations.RbMinFreeReadsTheCounter := by
  intro s sel hi hstats hv
  have hstart : startInstr (.rbMinFree sel) s = .next (s.mainAt (.rbMinFree sel)) :=
    withStats_eq_next.2 ⟨hstats, issueRing_of_idle hi hv⟩
  calc exec (.rbMinFree sel) s
    _ = runMain (s.mainAt (.rbMinFree sel)) := exec_of_start rfl hstart
    _ = .next (s.mainReturn (intResult (s.ring sel).minFree)) :=
      runMainFor_last (by simp [mainStep, mainMicro, microRbMinFree, withValid, hv]; rfl) rfl
    _ = _ := by rw [mainReturn_of_idle hi]; rfl

/-- Settles O38: each refusal is the first check that fails. -/
theorem ringOperationsAreRefusedOutsideTheirRole : Obligations.RingOperationsAreRefusedOutsideTheirRole := by
  intro s sel b
  refine ⟨fun hini => ?_, fun hini hmask hstats => ?_, fun hstats => ?_, fun hv => ?_⟩
  · exact ⟨exec_of_refused rfl (whileUnowned_of_owned hini _), exec_of_refused rfl (whileUnowned_of_owned hini _)⟩
  · refine exec_of_refused rfl ((withStats_of_stats hstats _).trans ?_)
    simp [asStatsProducer, hini, hmask]
  · exact ⟨exec_of_refused rfl (withStats_of_absent hstats _), exec_of_refused rfl (withStats_of_absent hstats _),
      exec_of_refused rfl (withStats_of_absent hstats _)⟩
  · have unowned : ∀ op, s.initialized = false →
        whileUnowned sel s (issueRing sel op s) = .refused (.ringNotValid sel) :=
      fun op hini => by simp [whileUnowned, hini, issueRing_of_invalid hv]
    refine ⟨exec_of_refused rfl (issueRing_of_invalid hv), exec_of_refused rfl (issueRing_of_invalid hv),
      fun hstats => ⟨?_, ?_, fun hrole => ?_⟩, fun hini => ⟨exec_of_refused rfl (unowned _ hini),
        exec_of_refused rfl (unowned _ hini)⟩⟩
    · exact exec_of_refused rfl ((withStats_of_stats hstats _).trans (issueRing_of_invalid hv))
    · exact exec_of_refused rfl ((withStats_of_stats hstats _).trans (issueRing_of_invalid hv))
    · exact exec_of_refused rfl ((withStats_of_stats hstats _).trans
        ((asStatsProducer_of_role hrole _).trans (issueRing_of_invalid hv)))

end Sys2Proof.Machine
end

/-! Whole words of the transport, of the handler's entry and of DEV (R101 to R109, R120 to R122, R143). -/

section
namespace Sys2Proof.Machine

/-! `TP.INIT` (R101, R102). -/

section
variable {s : State} {baud : Word}

theorem exec_tpInit_of_idle (hi : s.idle = true) :
    exec (.tpInit baud) s = runMain (s.mainAt (.tpInit (baudOperand baud) .i1)) :=
  exec_of_start rfl (startInstr_tpInit_of_idle hi)

/-- `I1` lets a block that is not initialised pass. -/
theorem runMain_tpInit_of_uninitialized {n : Nat} (hini : s.initialized = false) :
    runMain (s.mainAt (.tpInit n .i1)) = runMainFor 15 (s.mainAt (.tpInit n .i2)) :=
  runMainFor_more (by simp [mainStep, mainMicro, microTpInit, hini]) rfl

/-- Settles O46: `I1` or `I2` answers false, and nothing has been written before them. -/
theorem outOfRangeBaudHasNoSideEffects : Obligations.OutOfRangeBaudHasNoSideEffects := by
  intro s baud hi hbaud
  by_cases hini : s.initialized = true
  · exact exec_tpInit_of_initialized hi hini
  · have hrange : (decide (baudOperand baud < s.cfg.baudMin) || decide (s.cfg.baudMax < baudOperand baud)) = true :=
      Bool.or_eq_true_iff.2 (hbaud.imp decide_eq_true decide_eq_true)
    have hlast : mainStep (s.mainAt (.tpInit (baudOperand baud) .i2)) = .next (s.mainReturn (boolResult false)) :=
      if_pos hrange
    calc exec (.tpInit baud) s
      _ = runMain (s.mainAt (.tpInit (baudOperand baud) .i1)) := exec_tpInit_of_idle hi
      _ = runMainFor 15 (s.mainAt (.tpInit (baudOperand baud) .i2)) :=
        runMain_tpInit_of_uninitialized (Bool.eq_false_iff.2 hini)
      _ = .next (s.mainReturn (boolResult false)) := runMainFor_last hlast rfl
      _ = _ := by rw [mainReturn_of_idle hi]; rfl

/-- Settles O44: the row `I1` to `I6`. -/
theorem tpInitBringsTheTransportUp : Obligations.TpInitBringsTheTransportUp := by
  intro s baud hi hini hlow hhigh
  have hrange : ¬(decide (baudOperand baud < s.cfg.baudMin) || decide (s.cfg.baudMax < baudOperand baud)) = true := by
    rw [Bool.or_eq_true, decide_eq_true_eq, decide_eq_true_eq]
    unfold baudOperand
    omega
  have hi2 : mainStep (s.mainAt (.tpInit (baudOperand baud) .i2)) = .next (s.mainAt (.tpInit (baudOperand baud) .i3)) :=
    if_neg hrange
  calc exec (.tpInit baud) s
    _ = runMain (s.mainAt (.tpInit (baudOperand baud) .i1)) := exec_tpInit_of_idle hi
    _ = runMainFor 15 (s.mainAt (.tpInit (baudOperand baud) .i2)) := runMain_tpInit_of_uninitialized hini
    _ = runMainFor 14 (s.mainAt (.tpInit (baudOperand baud) .i3)) := runMainFor_more hi2 rfl
    _ = runMainFor 13 _ := runMainFor_more rfl rfl
    _ = runMainFor 12 _ := runMainFor_more rfl rfl
    _ = runMainFor 11 _ := runMainFor_more rfl rfl
    _ = .next _ := runMainFor_last rfl rfl
    _ = _ := by
      obtain ⟨hmain, -⟩ := idle_iff.1 hi
      simp only [State.mainReturn, State.mainAt, hmain]
      rfl

end

/-! `TP.WRITE` (R103, R104). -/

section
variable {s : State} {b : Byte}

theorem exec_tpWrite_of_idle (hi : s.idle = true) (hini : s.initialized = true) :
    exec (.tpWrite b) s = runMain (s.mainAt (.tpWrite b (.w1 .e1))) :=
  exec_of_start rfl (whenInitialized_eq_next.2 ⟨hini, issueMain_of_idle hi⟩)

/-- `W3` and `W4` leave the transmit interrupt armed, whatever it was. -/
theorem runMainFor_tpWrite_arms (n : Nat) :
    runMainFor (n + 2) (s.mainAt (.tpWrite b .w3)) =
      runMainFor n (State.mainAt { s with txArmed := true } (.tpWrite b .w5)) := by
  calc runMainFor (n + 2) (s.mainAt (.tpWrite b .w3))
    _ = runMainFor (n + 1) (s.mainAt (.tpWrite b (.w4 s.txArmed))) := runMainFor_more rfl rfl
    _ = runMainFor n (State.mainAt { s with txArmed := true } (.tpWrite b .w5)) := by
      refine runMainFor_more ?_ rfl
      cases ha : s.txArmed
      · rfl
      · simp [mainStep, mainMicro, microTpWrite, State.mainAt, ← ha]

/-- `W1` to `W5` where the enqueue finds room. -/
theorem runMain_tpWrite_of_room (hv : s.tx.valid = true) (hw : s.tx.wr < s.tx.cap) (hf : s.tx.full = false) :
    runMain (s.mainAt (.tpWrite b (.w1 .e1))) =
      .next (State.mainReturn { s with tx := s.tx.enqueued s.cfg.hasStats b, txArmed := true } unitResult) := by
  calc runMain (s.mainAt (.tpWrite b (.w1 .e1)))
    _ = runMainFor 10 (State.mainAt { s with tx := s.tx.enqueued s.cfg.hasStats b } (.tpWrite b (.w1 .e7))) :=
      run_enqueue_of_room (at' := fun s st => s.mainAt (.tpWrite b (.w1 st)))
        (fun _ _ _ _ _ => runMainFor_tpWrite_more) (ring_tx s) hv hw hf 10
    _ = runMainFor 9 (State.mainAt { s with tx := s.tx.enqueued s.cfg.hasStats b } (.tpWrite b (.w2 true))) :=
      runMainFor_more rfl rfl
    _ = runMainFor 8 (State.mainAt { s with tx := s.tx.enqueued s.cfg.hasStats b } (.tpWrite b .w3)) :=
      runMainFor_more rfl rfl
    _ = _ := runMainFor_tpWrite_arms 6
    _ = _ := runMainFor_last rfl rfl

/-- `E3` and `W2` on a full ring lead back to `W1`. -/
theorem mainStep_tpWrite_e3_of_full (hf : s.tx.full = true) :
    mainStep (s.mainAt (.tpWrite b (.w1 (.e3 s.tx.wr s.tx.rd)))) = .next (s.mainAt (.tpWrite b (.w2 false))) :=
  mainGoesOn_eq_next.2 (.inr ⟨_, _, enqueueStep_mainAt (enqueueStep_e3_of_full (sel := .tx) hf), rfl⟩)

theorem runMain_tpWrite_of_full (hv : s.tx.valid = true) (hf : s.tx.full = true) :
    runMain (s.mainAt (.tpWrite b (.w1 .e1))) = .next (s.mainAt (.tpWrite b (.w1 .e1))) := by
  calc runMain (s.mainAt (.tpWrite b (.w1 .e1)))
    _ = runMainFor 14 (s.mainAt (.tpWrite b (.w1 (.e3 s.tx.wr s.tx.rd)))) :=
      run_enqueue_snapshots (sel := .tx) (at' := fun s st => s.mainAt (.tpWrite b (.w1 st)))
        (fun _ _ _ _ _ => runMainFor_tpWrite_more) hv 14
    _ = runMainFor 13 (s.mainAt (.tpWrite b (.w2 false))) := runMainFor_more (mainStep_tpWrite_e3_of_full hf) rfl
    _ = .next (s.mainAt (.tpWrite b (.w1 .e1))) := runMainFor_last rfl rfl

/-- On a ring whose write index lies outside the array a write that finds room faults (R42). -/
theorem runMain_tpWrite_of_outside (hv : s.tx.valid = true) (hf : s.tx.full = false)
    (hw : ¬ s.tx.wr < s.tx.cap) :
    runMain (s.mainAt (.tpWrite b (.w1 .e1))) = .fault (.slotOutOfRange .tx s.tx.wr) := by
  calc runMain (s.mainAt (.tpWrite b (.w1 .e1)))
    _ = runMainFor 14 (s.mainAt (.tpWrite b (.w1 (.e3 s.tx.wr s.tx.rd)))) :=
      run_enqueue_snapshots (sel := .tx) (at' := fun s st => s.mainAt (.tpWrite b (.w1 st)))
        (fun _ _ _ _ _ => runMainFor_tpWrite_more) hv 14
    _ = runMainFor 13 (s.mainAt (.tpWrite b (.w1 (.e4 s.tx.wr s.tx.rd)))) :=
      runMainFor_tpWrite_more (enqueueStep_e3_of_room (sel := .tx) hf)
    _ = .fault (.slotOutOfRange .tx s.tx.wr) := by
      simp [runMainFor, mainStep, mainMicro, microTpWrite, mainGoesOn, enqueueStep_e4_of_outside, hw]

/-- Settles O47: the row `W1` to `W5` with the enqueue's row inside. -/
theorem tpWriteStoresAndArms : Obligations.TpWriteStoresAndArms := by
  intro s b hi hini hv hw hf
  have hi' : State.idle { s with tx := s.tx.enqueued s.cfg.hasStats b, txArmed := true } = true := hi
  rw [exec_tpWrite_of_idle hi hini, runMain_tpWrite_of_room hv hw hf, mainReturn_of_idle hi']
  rfl

theorem advanceFor_more {n : Nat} {s t : State} (h : advance s = .next t) :
    advanceFor (n + 1) s = advanceFor n t := by
  simp [advanceFor, h]

/-- With no handler running MAIN is the context that moves. -/
theorem advance_mainAt {s : State} {op : MainOp} (hisr : s.isrOp = none) :
    advance (s.mainAt op) = mainStep (s.mainAt op) :=
  advance_of_main hisr

/-- Settles O48: the round `E1`, `E2`, `E3`, `W2`. -/
theorem tpWriteSpinsOnAFullRing : Obligations.TpWriteSpinsOnAFullRing := by
  intro s b hi hini hv hf
  obtain ⟨-, hisr⟩ := idle_iff.1 hi
  refine ⟨(exec_tpWrite_of_idle hi hini).trans (runMain_tpWrite_of_full hv hf), ?_⟩
  have he1 : enqueueStep .tx b .e1 s = .next (s, .more (.e2 s.tx.wr)) := enqueueStep_e1 (sel := .tx) hv
  calc advanceFor 4 (s.mainAt (.tpWrite b (.w1 .e1)))
    _ = advanceFor 3 (s.mainAt (.tpWrite b (.w1 (.e2 s.tx.wr)))) :=
      advanceFor_more ((advance_mainAt hisr).trans
        (mainGoesOn_eq_next.2 (.inl ⟨_, _, enqueueStep_mainAt he1, rfl⟩)))
    _ = advanceFor 2 (s.mainAt (.tpWrite b (.w1 (.e3 s.tx.wr s.tx.rd)))) :=
      advanceFor_more ((advance_mainAt hisr).trans rfl)
    _ = advanceFor 1 (s.mainAt (.tpWrite b (.w2 false))) :=
      advanceFor_more ((advance_mainAt hisr).trans (mainStep_tpWrite_e3_of_full hf))
    _ = .next (s.mainAt (.tpWrite b (.w1 .e1))) := advanceFor_more ((advance_mainAt hisr).trans rfl)

end

/-! `TP.READ` (R105). -/

section
variable {s : State} {b : Byte}

theorem exec_tpRead_of_idle (hi : s.idle = true) (hini : s.initialized = true) :
    exec .tpRead s = runMain (s.mainAt (.tpRead (.d1 .q1))) :=
  exec_of_start rfl (whenInitialized_eq_next.2 ⟨hini, issueMain_of_idle hi⟩)

theorem runMain_tpRead_of_byte (hv : s.rx.valid = true) (hr : s.rx.rd < s.rx.cap) (he : s.rx.empty = false)
    (hb : memGet s.rx.buf s.rx.rd = some b) :
    runMain (s.mainAt (.tpRead (.d1 .q1))) =
      .next (State.mainReturn { s with rx := s.rx.dequeued } (optionResult (some b))) := by
  calc runMain (s.mainAt (.tpRead (.d1 .q1)))
    _ = runMainFor 11 (State.mainAt { s with rx := s.rx.dequeued } (.tpRead (.d1 (.q6 b)))) :=
      run_dequeue_of_byte (at' := fun s st => s.mainAt (.tpRead (.d1 st)))
        (fun _ _ _ _ _ => runMainFor_tpRead_more) (ring_rx s) hv hr he hb 11
    _ = runMainFor 10 (State.mainAt { s with rx := s.rx.dequeued } (.tpRead (.d2 (some b)))) := runMainFor_more rfl rfl
    _ = _ := runMainFor_last rfl rfl

theorem runMain_tpRead_of_empty (hv : s.rx.valid = true) (he : s.rx.empty = true) :
    runMain (s.mainAt (.tpRead (.d1 .q1))) = .next (s.mainReturn (optionResult none)) := by
  have hq3 := dequeueStep_mainAt (op := .tpRead (.d1 (.q3 s.rx.rd s.rx.wr)))
    (dequeueStep_q3_of_empty (s := s) (sel := .rx) he)
  calc runMain (s.mainAt (.tpRead (.d1 .q1)))
    _ = runMainFor 14 (s.mainAt (.tpRead (.d1 (.q3 s.rx.rd s.rx.wr)))) :=
      run_dequeue_snapshots (sel := .rx) (at' := fun s st => s.mainAt (.tpRead (.d1 st)))
        (fun _ _ _ _ _ => runMainFor_tpRead_more) hv 14
    _ = runMainFor 13 (s.mainAt (.tpRead (.d2 none))) :=
      runMainFor_more (mainGoesOn_eq_next.2 (.inr ⟨_, _, hq3, rfl⟩)) rfl
    _ = _ := runMainFor_last rfl rfl

/-- Settles O50: the dequeue's row, then `D2`. -/
theorem tpReadTakesTheOldestByte : Obligations.TpReadTakesTheOldestByte := by
  intro s hi hini hv
  refine ⟨fun b hr he hb => ?_, fun he => ?_⟩
  · have hi' : State.idle { s with rx := s.rx.dequeued } = true := hi
    rw [exec_tpRead_of_idle hi hini, runMain_tpRead_of_byte hv hr he hb, mainReturn_of_idle hi']
    rfl
  · rw [exec_tpRead_of_idle hi hini, runMain_tpRead_of_empty hv he, mainReturn_of_idle hi]
    rfl

end

/-- Settles O51: both are issued on an initialised block only. -/
theorem transportNeedsInitialisation : Obligations.TransportNeedsInitialisation := by
  intro s b hini
  have refused : ∀ o, whenInitialized s o = .refused .notInitialized := fun o => by simp [whenInitialized, hini]
  exact ⟨exec_of_refused rfl (refused _), exec_of_refused rfl (refused _)⟩

/-- Settles O52: one micro-step each. -/
theorem maskOperationsWriteOneBit : Obligations.MaskOperationsWriteOneBit := by
  intro s hi
  have returned (masked : Bool) := mainReturn_of_idle (s := { s with irqMasked := masked }) hi unitResult
  refine ⟨?_, ?_⟩
  · rw [exec_of_start (i := .irqMask) rfl (issueMain_of_idle hi), runMain, runMainFor_last rfl rfl]
    exact congrArg _ (returned true)
  · rw [exec_of_start (i := .irqUnmask) rfl (issueMain_of_idle hi), runMain, runMainFor_last rfl rfl]
    exact congrArg _ (returned false)

/-! The handler's entry (R143, R144) and DEV (R120 to R122). -/

theorem irqRx_iff {s : State} : s.irqRx = true ↔ s.uart.rxie = true ∧ s.uart.rxHw ≠ [] := by
  simp [State.irqRx, State.rxReady]

theorem irqOvr_iff {s : State} : s.irqOvr = true ↔ s.uart.rxie = true ∧ s.uart.overrun = true := by
  simp [State.irqOvr]

theorem irqTx_iff {s : State} : s.irqTx = true ↔ s.txArmed = true ∧ s.uart.tdr = none := by
  simp [State.irqTx, State.txEmpty]

theorem exec_isr_of_disabled {s : State} (h : s.handlerEnabled = false) :
    exec .isr s = .refused .handlerNotEnabled := by
  simp [exec, execIsr, startIsr, enterHandler, h]

/-- Settles O53: what R143 permits, source by source. -/
theorem handlerBeginsOnlyWherePermitted : Obligations.HandlerBeginsOnlyWherePermitted := by
  intro s
  simp only [← irqRx_iff, ← irqOvr_iff, ← irqTx_iff]
  refine ⟨fun h => exec_isr_of_disabled ?_, fun hmask hisr hini hreq => ?_⟩
  · rw [← Bool.not_eq_true, handlerEnabled_iff]
    rintro ⟨hini, hreq, hmask, hisr⟩
    rcases h with h | h | h | ⟨hrx, hovr, htx⟩
    · simp [hmask] at h
    · exact h hisr
    · simp [hini] at h
    · rcases hreq with h | h | h
      · exact hrx h
      · exact hovr h
      · exact htx h
  · exact enterHandler_eq_next.2 ⟨handlerEnabled_iff.2 ⟨hini, hreq, hmask, hisr⟩, rfl⟩

/-- Settles O56: the byte is held behind the others, or lost with the flag set. -/
theorem arrivingByteIsHeldOrLost : Obligations.ArrivingByteIsHeldOrLost := by
  intro s b
  refine ⟨fun hen hroom => ?_, fun hen hfull => ⟨s.uart.rxHw, rfl, ?_⟩, fun hen => ?_⟩
  · exact uartReceive_eq_next.2 ⟨hen, .inl ⟨hroom, rfl⟩⟩
  · exact uartReceive_eq_next.2 ⟨hen, .inr ⟨hfull, rfl⟩⟩
  · simp [exec, execDevRxArrive, uartReceive, hen]

/-- Settles O57: the three cases of the UART's transmitter. -/
theorem transmitRegisterGoesToTheWire : Obligations.TransmitRegisterGoesToTheWire := by
  intro s
  refine ⟨fun b hen hb => ?_, fun hen hempty => ?_, fun hen => ?_⟩
  · exact uartShift_eq_next.2 ⟨hen, b, hb, rfl⟩
  · simp [exec, execDevTxShift, uartShift, hen, hempty]
  · simp [exec, execDevTxShift, uartShift, hen]

end Sys2Proof.Machine
end

/-! A stand-alone ring is a bounded queue (R90, R92). -/

section
namespace Sys2Proof.Machine

/-! What a whole enqueue and a whole dequeue make of a ring. -/

section
variable {c : Config} {r : Ring} {b : Byte}

@[simp] theorem enqueued_valid (stats : Bool) : (r.enqueued stats b).valid = r.valid := rfl
@[simp] theorem enqueued_cap (stats : Bool) : (r.enqueued stats b).cap = r.cap := rfl
@[simp] theorem enqueued_rd (stats : Bool) : (r.enqueued stats b).rd = r.rd := rfl
@[simp] theorem enqueued_wr (stats : Bool) : (r.enqueued stats b).wr = incMod r.wr r.cap := rfl
@[simp] theorem enqueued_buf (stats : Bool) : (r.enqueued stats b).buf = memPut r.buf r.wr b := rfl
@[simp] theorem dequeued_valid : r.dequeued.valid = r.valid := rfl
@[simp] theorem dequeued_cap : r.dequeued.cap = r.cap := rfl
@[simp] theorem dequeued_rd : r.dequeued.rd = incMod r.rd r.cap := rfl
@[simp] theorem dequeued_wr : r.dequeued.wr = r.wr := rfl
@[simp] theorem dequeued_buf : r.dequeued.buf = r.buf := rfl

theorem enqueued_minFree_le (stats : Bool) : (r.enqueued stats b).minFree ≤ r.minFree := by
  simp only [Ring.enqueued]
  split
  · next h =>
    obtain ⟨-, hlt⟩ := Bool.and_eq_true_iff.1 h
    exact Nat.le_of_lt (of_decide_eq_true hlt)
  · exact Nat.le_refl _

/-- The stored bytes depend on the indices, the capacity and the array. -/
theorem Ring.contents_congr {r r' : Ring} (hr : r'.rd = r.rd) (hw : r'.wr = r.wr) (hc : r'.cap = r.cap)
    (hb : r'.buf = r.buf) : r'.contents = r.contents := by
  simp only [Ring.contents, Ring.count, hr, hw, hc, hb]

theorem Ring.contents_enqueued (stats : Bool) (hr : r.rd < r.cap) (hw : r.wr < r.cap) (hf : r.full = false) :
    (r.enqueued stats b).contents = r.contents ++ [some b] := by
  calc (r.enqueued stats b).contents
    _ = Ring.contents { r with buf := memPut r.buf r.wr b, wr := incMod r.wr r.cap } :=
      Ring.contents_congr rfl rfl rfl rfl
    _ = Ring.contents { r with buf := memPut r.buf r.wr b } ++ [memGet (memPut r.buf r.wr b) r.wr] :=
      Ring.contents_publish (r := { r with buf := memPut r.buf r.wr b }) hr hw hf
    _ = r.contents ++ [some b] := by rw [Ring.contents_put hr hw, memGet_memPut_same]

theorem Ring.contents_dequeued (hr : r.rd < r.cap) (hw : r.wr < r.cap) (he : r.empty = false) :
    r.contents = memGet r.buf r.rd :: r.dequeued.contents :=
  Ring.contents_advance hr hw he

theorem Ring.Inv.enqueued (h : r.Inv c) (hv : r.valid = true) (hf : r.full = false) (stats : Bool) (b : Byte) :
    (r.enqueued stats b).Inv c := by
  obtain ⟨hr, hw⟩ := h.indices hv
  refine ⟨memPut_wf _ _ h.memory, h.capacity, fun _ => ⟨hr, incMod_lt hw⟩, fun _ v hv' => ?_, fun hv hs => ?_⟩
  · rw [Ring.contents_enqueued stats hr hw hf] at hv'
    rcases List.mem_append.1 hv' with hold | hnew
    · exact h.written hv v hold
    · rw [List.mem_singleton.1 hnew]
      rfl
  · exact Nat.le_trans (enqueued_minFree_le stats) (h.counter hv hs)

theorem Ring.Inv.dequeued (h : r.Inv c) (hv : r.valid = true) (he : r.empty = false) : r.dequeued.Inv c := by
  obtain ⟨hr, hw⟩ := h.indices hv
  refine ⟨h.memory, h.capacity, fun _ => ⟨incMod_lt hr, hw⟩, fun _ v hv' => ?_, h.counter⟩
  exact h.written hv v (by rw [Ring.contents_dequeued hr hw he]; exact List.mem_cons_of_mem _ hv')

/-- A ring is full where one byte less than its capacity is stored, and empty where none is (R14). -/
theorem Ring.full_false_iff_length (hr : r.rd < r.cap) (hw : r.wr < r.cap) :
    r.full = false ↔ r.contents.length < r.cap - 1 := by
  rw [Ring.contents_length, Ring.full_false_iff hr hw]

theorem Ring.empty_iff_contents (hr : r.rd < r.cap) (hw : r.wr < r.cap) : r.empty = true ↔ r.contents = [] := by
  rw [Ring.empty_iff hr hw, ← Ring.contents_length, List.length_eq_zero_iff]

end

/-! One word after another. -/

theorem runWords_cons {i : Instr} {is : List Instr} {s t u : State} {ws : List Word} (hi : exec i s = .next t)
    (hs : runWords is t = .next (ws, u)) : runWords (i :: is) s = .next (t.res :: ws, u) := by
  simp [runWords, hi, hs]

theorem runWords_append {is js : List Instr} {s t u : State} {vs ws : List Word} (hi : runWords is s = .next (vs, t))
    (hj : runWords js t = .next (ws, u)) : runWords (is ++ js) s = .next (vs ++ ws, u) := by
  induction is generalizing s vs with
  | nil => cases hi; exact hj
  | cons i is ih =>
    obtain ⟨a, ha, h⟩ := andThen_eq_next.1 hi
    obtain ⟨⟨vs', t'⟩, ht, e⟩ := andThen_eq_next.1 h
    cases e
    exact runWords_cons ha (ih ht)

/-- The state between the calls on a stand-alone ring that stores `bs` (R90). -/
structure State.Stores (s : State) (sel : RingSel) (cap : Nat) (bs : List Byte) : Prop where
  idle : s.idle = true
  unowned : s.initialized = false
  valid : (s.ring sel).valid = true
  inv : (s.ring sel).Inv s.cfg
  cap : (s.ring sel).cap = cap
  contents : (s.ring sel).contents = bs.map some

namespace State.Stores
variable {s : State} {sel : RingSel} {cap : Nat} {b : Byte} {bs : List Byte}

theorem full_false_iff (h : s.Stores sel cap bs) : (s.ring sel).full = false ↔ bs.length < cap - 1 := by
  obtain ⟨hr, hw⟩ := h.inv.indices h.valid
  rw [Ring.full_false_iff_length hr hw, h.contents, List.length_map, h.cap]

/-- The ring is written, and the call returns. -/
theorem returned (h : s.Stores sel cap bs) {r : Ring} {bs' : List Byte} (hi : r.Inv s.cfg)
    (hv : r.valid = (s.ring sel).valid) (hc : r.cap = (s.ring sel).cap) (hbs : r.contents = bs'.map some) (v : Word) :
    State.Stores ((s.setRing sel r).mainReturn v) sel cap bs' where
  idle := idle_mainReturn_setRing h.idle sel r v
  unowned := by simpa using h.unowned
  valid := by simpa using hv.trans h.valid
  inv := by simpa using hi
  cap := by simpa using hc.trans h.cap
  contents := by simpa using hbs

/-- The result word alone is written. -/
theorem answered (h : s.Stores sel cap bs) (v : Word) : State.Stores { s with res := v } sel cap bs := by
  rw [← mainReturn_of_idle h.idle, ← setRing_self s sel]
  exact h.returned h.inv rfl rfl h.contents v

theorem put_of_room (h : s.Stores sel cap bs) (hlen : bs.length < cap - 1) :
    ∃ t, exec (.rbEnqueue sel b) s = .next t ∧ t.res = boolResult true ∧ t.Stores sel cap (bs ++ [b]) := by
  have hf := h.full_false_iff.2 hlen
  obtain ⟨hr, hw⟩ := h.inv.indices h.valid
  refine ⟨_, exec_rbEnqueue_of_room b h.idle h.unowned rfl h.valid hw hf, rfl, ?_⟩
  refine h.returned (h.inv.enqueued h.valid hf _ b) rfl rfl ?_ _
  rw [Ring.contents_enqueued _ hr hw hf, h.contents, List.map_append]
  rfl

theorem put_of_full (h : s.Stores sel cap bs) (hlen : ¬ bs.length < cap - 1) :
    ∃ t, exec (.rbEnqueue sel b) s = .next t ∧ t.res = boolResult false ∧ t.Stores sel cap bs := by
  have hf : (s.ring sel).full = true := by
    rw [← Bool.not_eq_false, h.full_false_iff]
    exact hlen
  exact ⟨_, exec_rbEnqueue_of_full b h.idle h.unowned h.valid hf, rfl, h.answered _⟩

theorem take_of_empty (h : s.Stores sel cap []) :
    ∃ t, exec (.rbDequeue sel) s = .next t ∧ t.res = optionResult none ∧ t.Stores sel cap [] := by
  obtain ⟨hr, hw⟩ := h.inv.indices h.valid
  have he : (s.ring sel).empty = true := (Ring.empty_iff_contents hr hw).2 h.contents
  exact ⟨_, exec_rbDequeue_of_empty h.idle h.unowned h.valid he, rfl, h.answered _⟩

theorem take_of_byte (h : s.Stores sel cap (b :: bs)) :
    ∃ t, exec (.rbDequeue sel) s = .next t ∧ t.res = optionResult (some b) ∧ t.Stores sel cap bs := by
  obtain ⟨hr, hw⟩ := h.inv.indices h.valid
  have he : (s.ring sel).empty = false := by
    rw [← Bool.not_eq_true, Ring.empty_iff_contents hr hw, h.contents]
    simp
  have hcon : memGet (s.ring sel).buf (s.ring sel).rd :: (s.ring sel).dequeued.contents = some b :: bs.map some :=
    (Ring.contents_dequeued hr hw he).symm.trans h.contents
  obtain ⟨hhead, htail⟩ := List.cons.inj hcon
  exact ⟨_, exec_rbDequeue_of_byte h.idle h.unowned rfl h.valid hr he hhead, rfl,
    h.returned (h.inv.dequeued h.valid he) rfl rfl htail _⟩

/-- Every call answers as the queue does and leaves what the queue then holds. -/
theorem runWords_queue {ops : List QueueOp} (h : s.Stores sel cap bs) :
    ∃ t, runWords (ops.map (QueueOp.instr sel)) s = .next ((queueModel (cap - 1) ops bs).1, t) ∧
      t.Stores sel cap (queueModel (cap - 1) ops bs).2 := by
  induction ops generalizing s bs with
  | nil => exact ⟨s, rfl, h⟩
  | cons op ops ih =>
    cases op with
    | put b =>
      by_cases hlen : bs.length < cap - 1
      · obtain ⟨t, ht, hres, hstores⟩ := h.put_of_room (b := b) hlen
        obtain ⟨u, hu, hend⟩ := ih hstores
        simp only [queueModel, if_pos hlen, ← hres]
        exact ⟨u, runWords_cons ht hu, hend⟩
      · obtain ⟨t, ht, hres, hstores⟩ := h.put_of_full (b := b) hlen
        obtain ⟨u, hu, hend⟩ := ih hstores
        simp only [queueModel, if_neg hlen, ← hres]
        exact ⟨u, runWords_cons ht hu, hend⟩
    | take =>
      cases bs with
      | nil =>
        obtain ⟨t, ht, hres, hstores⟩ := h.take_of_empty
        obtain ⟨u, hu, hend⟩ := ih hstores
        simp only [queueModel, ← hres]
        exact ⟨u, runWords_cons ht hu, hend⟩
      | cons b bs =>
        obtain ⟨t, ht, hres, hstores⟩ := h.take_of_byte
        obtain ⟨u, hu, hend⟩ := ih hstores
        simp only [queueModel, ← hres]
        exact ⟨u, runWords_cons ht hu, hend⟩

/-- Bytes that fit are stored, each enqueue answering true. -/
theorem runWords_put {new : List Byte} (h : s.Stores sel cap bs) (hlen : bs.length + new.length ≤ cap - 1) :
    ∃ t, runWords (new.map (.rbEnqueue sel)) s = .next (List.replicate new.length 1#32, t) ∧
      t.Stores sel cap (bs ++ new) := by
  induction new generalizing s bs with
  | nil => exact ⟨s, rfl, by simpa using h⟩
  | cons b new ih =>
    rw [List.length_cons] at hlen
    obtain ⟨t, ht, hres, hstores⟩ := h.put_of_room (b := b) (by omega)
    obtain ⟨u, hu, hend⟩ := ih hstores (by simp; omega)
    refine ⟨u, ?_, by simpa using hend⟩
    have hrun := runWords_cons ht hu
    rw [hres] at hrun
    exact hrun

end State.Stores

/-- Settles O41: the stored bytes are the queue's, call by call. -/
theorem ringIsABoundedFifo : Obligations.RingIsABoundedFifo := by
  intro s sel bs ops hi hini hv hinv hbs
  have hstores : s.Stores sel (s.ring sel).cap bs := ⟨hi, hini, hv, hinv, rfl, hbs⟩
  obtain ⟨t, ht, hend⟩ := hstores.runWords_queue (ops := ops)
  exact ⟨t, ht, hend.contents⟩

/-! A ring accepts one byte less than its capacity (R92). -/

/-- A ring just created stores nothing. -/
theorem stores_of_rbInit {s : State} {sel : RingSel} {cap : Word} (hi : s.idle = true) (hini : s.initialized = false)
    (hmem : Memory.wf (s.ring sel).buf) (hlow : 2 ≤ cap.toNat) (hhigh : cap.toNat ≤ s.cfg.storageMax) :
    ∃ t, exec (.rbInit sel cap) s = .next t ∧ t.res = 0#32 ∧ t.Stores sel cap.toNat [] := by
  refine ⟨_, exec_rbInit_of_idle hi hini hlow hhigh, rfl, idle_mainReturn_setRing hi _ _ _, ?_, ?_, ?_, ?_, ?_⟩
  · simpa using hini
  · simp
  · simpa using Ring.inv_create hmem ⟨hlow, hhigh⟩
  · simp
  · simpa using Ring.contents_eq_nil_of_indices (by simp)

section
variable {s : State} {sel : RingSel} {cap : Nat} {bs : List Byte}

theorem State.Stores.asked_isEmpty (h : s.Stores sel cap []) :
    ∃ t, exec (.rbIsEmpty sel) s = .next t ∧ t.res = 1#32 ∧ t.Stores sel cap [] := by
  obtain ⟨hr, hw⟩ := h.inv.indices h.valid
  have he : (s.ring sel).empty = true := (Ring.empty_iff_contents hr hw).2 h.contents
  obtain ⟨-, hquery, -⟩ := queriesAnswerAndWriteNothing s sel h.idle h.valid
  exact ⟨_, hquery, if_pos he, h.answered _⟩

theorem State.Stores.asked_isFull (h : s.Stores sel cap bs) :
    ∃ t, exec (.rbIsFull sel) s = .next t ∧ t.res = (if bs.length < cap - 1 then 0#32 else 1#32) ∧
      t.Stores sel cap bs := by
  obtain ⟨hquery, -⟩ := queriesAnswerAndWriteNothing s sel h.idle h.valid
  refine ⟨_, hquery, ?_, h.answered _⟩
  rw [← if_congr h.full_false_iff rfl rfl]
  cases (s.ring sel).full <;> rfl

end

/-- The words up to the last enqueue, each with its answer. -/
theorem runWords_init_put {s : State} {sel : RingSel} {cap : Word} {bs : List Byte} (hi : s.idle = true)
    (hini : s.initialized = false) (hmem : Memory.wf (s.ring sel).buf) (hlow : 2 ≤ cap.toNat)
    (hhigh : cap.toNat ≤ s.cfg.storageMax) (hlen : bs.length ≤ cap.toNat - 1) :
    ∃ t, runWords ([.rbInit sel cap, .rbIsEmpty sel] ++ bs.map (.rbEnqueue sel)) s =
        .next ([0#32, 1#32] ++ List.replicate bs.length 1#32, t) ∧ t.Stores sel cap.toNat bs := by
  obtain ⟨a, ha, hresa, hstores⟩ := stores_of_rbInit hi hini hmem hlow hhigh
  obtain ⟨b, hb, hresb, hstores⟩ := hstores.asked_isEmpty
  obtain ⟨t, ht, hstores⟩ := hstores.runWords_put (new := bs) (by simpa using hlen)
  have hpair := runWords_pair ha hb
  rw [hresa, hresb] at hpair
  exact ⟨t, runWords_append hpair ht, hstores⟩

/-- Settles O43: `C - 1` enqueues find room, and the ring is full once they are stored. -/
theorem ringAcceptsOneLessThanItsCapacity : Obligations.RingAcceptsOneLessThanItsCapacity := by
  intro s sel cap bs b hi hini _ hmem hlow hhigh
  refine ⟨fun hlen => ?_, fun hlen => ?_⟩
  · obtain ⟨t, ht, hstores⟩ := runWords_init_put (bs := bs) hi hini hmem hlow hhigh (by omega)
    obtain ⟨u, hu, hres, hstores⟩ := hstores.asked_isFull
    rw [if_pos (by omega)] at hres
    have hlast : runWords [.rbIsFull sel] t = .next ([0#32], u) := by
      rw [← hres]
      exact runWords_cons hu rfl
    exact ⟨u, runWords_append ht hlast, hstores.contents⟩
  · obtain ⟨t, ht, hstores⟩ := runWords_init_put (bs := bs) hi hini hmem hlow hhigh (by omega)
    obtain ⟨u, hu, hres, hstores⟩ := hstores.asked_isFull
    rw [if_neg (by omega)] at hres
    obtain ⟨v, hv, hres', hstores⟩ := hstores.put_of_full (b := b) (by omega)
    have hlast := runWords_pair hu hv
    rw [hres, hres'] at hlast
    exact ⟨v, runWords_append ht hlast, hstores.contents⟩

end Sys2Proof.Machine
end

/-! What a step does to the rings and to the handler's share of the state (R19, R23, R27, R48, R51, R143). -/

section
namespace Sys2Proof.Machine

/-! One micro-step of MAIN on an initialised block. -/

section
variable {s s' t : State} {op : MainOp}

theorem MainMoved.rx (h : MainMoved op s' t) : t.rx = s'.rx := by cases h <;> rfl
theorem MainMoved.tx (h : MainMoved op s' t) : t.tx = s'.tx := by cases h <;> rfl
theorem MainMoved.ring (h : MainMoved op s' t) (sel : RingSel) : t.ring sel = s'.ring sel := by cases h <;> simp
theorem MainMoved.txArmed (h : MainMoved op s' t) : t.txArmed = s'.txArmed := by cases h <;> rfl
theorem MainMoved.initialized (h : MainMoved op s' t) : t.initialized = s'.initialized := by cases h <;> rfl

/-- Once the transport owns the rings, MAIN takes part in an enqueue on `TX` or in a dequeue on `RX`, and beside that it
writes counters, and arms. -/
theorem MainEffect.owned_cases (h : MainEffect s op s') (hop : op.Inv s) (hini : s.initialized = true) :
    (∃ b st p, op = .tpWrite b (.w1 st) ∧ enqueueStep .tx b st s = .next (s', p)) ∨
    (∃ st p, op = .tpRead (.d1 st) ∧ dequeueStep .rx st s = .next (s', p)) ∨
    ((∀ b st, op ≠ .tpWrite b (.w1 st)) ∧ (∃ n, s'.rx = { s.rx with minFree := n }) ∧
      (∃ n, s'.tx = { s.tx with minFree := n }) ∧ s'.initialized = true ∧ (s.txArmed = true → s'.txArmed = true)) := by
  have unowned : ¬ s.initialized = false := by simp [hini]
  cases h with
  | written h => exact .inl ⟨_, _, _, rfl, h⟩
  | read h => exact .inr (.inl ⟨_, _, rfl, h⟩)
  | created | enqueued | dequeued | broughtUp | divided | enabled => exact absurd hop.1 unowned
  | restarted sel w d n =>
    refine .inr (.inr ⟨nofun, ?_⟩)
    cases sel
    · exact ⟨⟨n, rfl⟩, ⟨_, rfl⟩, hini, id⟩
    · exact ⟨⟨_, rfl⟩, ⟨n, rfl⟩, hini, id⟩
  | armed b => exact .inr (.inr ⟨nofun, ⟨_, rfl⟩, ⟨_, rfl⟩, hini, fun _ => rfl⟩)
  | masked | unmasked => exact .inr (.inr ⟨nofun, ⟨_, rfl⟩, ⟨_, rfl⟩, hini, id⟩)
  | nothing op hw => exact .inr (.inr ⟨hw, ⟨_, rfl⟩, ⟨_, rfl⟩, hini, id⟩)

end

/-! An index that moves advances by one modulo the capacity (R51). -/

theorem enqueueStep_wr {sel : RingSel} {b : Byte} {st : EnqStep} {s s' : State} {p : Progress EnqStep Bool}
    (h : enqueueStep sel b st s = .next (s', p)) (hl : EnqStep.Inv (s.ring sel) b st) :
    (s'.ring sel).wr = (s.ring sel).wr ∨ (s'.ring sel).wr = incMod (s.ring sel).wr (s.ring sel).cap := by
  rcases enqueueStep_cases h with ⟨-, -, rfl, -⟩ | ⟨w, -, rfl, -⟩ | ⟨w, ds, -, -, rfl, -⟩ |
    ⟨w, ds, -, -, rfl, -⟩ | ⟨w, ds, -, -, -, rfl, -⟩ | ⟨w, ds, rfl, rfl, -⟩ | ⟨w, ds, -, rfl, -⟩ | ⟨-, rfl, -⟩
  case inr.inr.inr.inr.inr.inl =>
    obtain ⟨-, rfl, -⟩ := hl
    exact .inr (by simp)
  all_goals exact .inl (by simp [sampleMinFree_eq_setRing])

theorem dequeueStep_rd {sel : RingSel} {st : DeqStep} {s s' : State} {p : Progress DeqStep (Option Byte)}
    (h : dequeueStep sel st s = .next (s', p)) (hl : DeqStep.Inv (s.ring sel) st) :
    (s'.ring sel).rd = (s.ring sel).rd ∨ (s'.ring sel).rd = incMod (s.ring sel).rd (s.ring sel).cap := by
  rcases dequeueStep_cases h with ⟨-, -, rfl, -⟩ | ⟨d, -, rfl, -⟩ | ⟨d, ws, -, -, rfl, -⟩ |
    ⟨d, ws, -, -, rfl, -⟩ | ⟨d, b, -, -, -, -, rfl, -⟩ | ⟨d, b, rfl, rfl, -⟩ | ⟨b, -, rfl, -⟩
  case inr.inr.inr.inr.inr.inl =>
    obtain ⟨-, rfl, -⟩ := hl
    exact .inr (by simp)
  all_goals exact .inl rfl

/-- What a step of MAIN leaves of an initialised block (R48): the handler's indices and the array of `RX`, and an armed
transmit interrupt. -/
structure State.OwnedByMain (s t : State) : Prop where
  initialized : t.initialized = true
  armed : s.txArmed = true → t.txArmed = true
  rxWr : t.rx.wr = s.rx.wr
  rxBuf : t.rx.buf = s.rx.buf
  txRd : t.tx.rd = s.tx.rd
  rxRd : t.rx.rd = s.rx.rd ∨ t.rx.rd = incMod s.rx.rd s.rx.cap
  txWr : t.tx.wr = s.tx.wr ∨ t.tx.wr = incMod s.tx.wr s.tx.cap

theorem mainStep_owned {s t : State} (hs : s.Inv) (hini : s.initialized = true) (h : mainStep s = .next t) :
    s.OwnedByMain t := by
  obtain ⟨-, rfl⟩ | ⟨op, hop, h⟩ := mainStep_cases h
  · exact ⟨hini, id, rfl, rfl, rfl, .inl rfl, .inl rfl⟩
  obtain ⟨s', he, hm⟩ := mainMicro_cases h
  have hl := hs.main op hop
  suffices hs' : s.OwnedByMain s' by
    obtain ⟨initialized, armed, rxWr, rxBuf, txRd, rxRd, txWr⟩ := hs'
    cases hm <;> exact ⟨initialized, armed, rxWr, rxBuf, txRd, rxRd, txWr⟩
  rcases he.owned_cases hl hini with ⟨b, st, p, rfl, hstep⟩ | ⟨st, p, rfl, hstep⟩ | ⟨-, ⟨n, hrx⟩, ⟨m, htx⟩, hini', ha⟩
  · have hwr := enqueueStep_wr hstep hl.2
    obtain ⟨r', rfl, hr⟩ := enqueueStep_frame hstep
    exact ⟨hini, id, rfl, rfl, hr.rd, .inl rfl, hwr⟩
  · have hrd := dequeueStep_rd hstep hl.2
    obtain ⟨d, rfl⟩ := dequeueStep_frame hstep
    exact ⟨hini, id, rfl, rfl, rfl, hrd, .inl rfl⟩
  · exact ⟨hini', ha, by rw [hrx], by rw [hrx], by rw [htx], .inl (by rw [hrx]), .inl (by rw [htx])⟩

/-- The handler's part of R51. -/
theorem isrStep_indices {s t : State} (hs : s.Inv) (h : isrStep s = .next t) :
    (t.rx.wr = s.rx.wr ∨ t.rx.wr = incMod s.rx.wr s.rx.cap) ∧
      (t.tx.rd = s.tx.rd ∨ t.tx.rd = incMod s.tx.rd s.tx.cap) := by
  obtain ⟨-, rfl⟩ | ⟨op, hop, h⟩ := isrStep_cases h
  · exact ⟨.inl rfl, .inl rfl⟩
  obtain ⟨-, -, hl⟩ := hs.handler op hop
  obtain ⟨s', he, hm⟩ := isrMicro_cases h
  have hrx : t.rx = s'.rx := by cases hm <;> rfl
  have htx : t.tx = s'.tx := by cases hm <;> rfl
  rw [hrx, htx]
  cases he with
  | enqueued he =>
    have hwr := enqueueStep_wr he hl
    obtain ⟨r', rfl, -⟩ := enqueueStep_frame he
    exact ⟨hwr, .inl rfl⟩
  | dequeued he =>
    have hrd := dequeueStep_rd he hl.1
    obtain ⟨d, rfl⟩ := dequeueStep_frame he
    exact ⟨.inl rfl, hrd⟩
  | nothing | taken | lost | cleared | handedOver | disarmed => exact ⟨.inl rfl, .inl rfl⟩

/-- Settles O12: MAIN produces on `TX` and consumes on `RX`, the handler the other way round. -/
theorem eachContextAdvancesItsOwnIndex : Obligations.EachContextAdvancesItsOwnIndex := by
  intro s t hs hini
  refine ⟨fun _ h => ?_, fun h => ?_⟩
  · have ho := mainStep_owned hs hini h
    exact ⟨ho.rxWr, ho.rxBuf, ho.txRd, ho.rxRd, ho.txWr⟩
  · have hf := isrStep_frame h
    obtain ⟨d, htx⟩ := hf.tx
    exact ⟨hf.rx.rd, by rw [htx], by rw [htx], isrStep_indices hs h⟩

/-! Nothing but reset destroys a ring (R23, R27). -/

/-- What stays of a ring until reset, `owned` saying that the transport owns it. -/
structure Ring.Lives (owned : Bool) (r r' : Ring) : Prop where
  cap : owned = true → r'.cap = r.cap
  valid : r.valid = true → r'.valid = true
  written : ∀ slot, (memGet r.buf slot).isSome = true → (memGet r'.buf slot).isSome = true

/-- What stays of the two rings until reset. -/
structure State.RingsLive (s t : State) : Prop where
  owned : s.initialized = true → t.initialized = true
  ring : ∀ sel, (s.ring sel).Lives s.initialized (t.ring sel)

theorem Ring.Lives.of_eq {owned : Bool} {r r' : Ring} (hv : r'.valid = r.valid) (hc : r'.cap = r.cap)
    (hb : r'.buf = r.buf) : r.Lives owned r' :=
  ⟨fun _ => hc, hv.trans, fun _ => by rw [hb]; exact id⟩

theorem Ring.EnqueueFrame.lives {r r' : Ring} (h : r.EnqueueFrame r') (owned : Bool) : r.Lives owned r' :=
  ⟨fun _ => h.cap, h.valid.trans, h.written⟩

/-- `init` keeps the array (R81). -/
theorem Ring.lives_create (r : Ring) (stats : Bool) (cap : Nat) : r.Lives false (r.create stats cap) :=
  ⟨nofun, fun _ => rfl, fun _ => id⟩

namespace State.RingsLive
variable {s t u : State}

theorem of_eq (hi : t.initialized = s.initialized) (hr : ∀ sel, t.ring sel = s.ring sel) : s.RingsLive t :=
  ⟨hi.trans, fun sel => by rw [hr]; exact .of_eq rfl rfl rfl⟩

theorem trans (h : s.RingsLive t) (h' : t.RingsLive u) : s.RingsLive u where
  owned hi := h'.owned (h.owned hi)
  ring sel := ⟨fun hi => ((h'.ring sel).cap (h.owned hi)).trans ((h.ring sel).cap hi),
    fun hv => (h'.ring sel).valid ((h.ring sel).valid hv),
    fun slot hw => (h'.ring sel).written slot ((h.ring sel).written slot hw)⟩

theorem setRing {sel : RingSel} {r : Ring} (h : (s.ring sel).Lives s.initialized r) :
    s.RingsLive (s.setRing sel r) where
  owned := by simp
  ring sel' := by
    by_cases hsel : sel' = sel
    · subst hsel; simpa using h
    · rw [ring_setRing_other s r hsel]; exact .of_eq rfl rfl rfl

end State.RingsLive

theorem MainEffect.ringsLive {s s' : State} {op : MainOp} (h : MainEffect s op s') (hop : op.Inv s) :
    s.RingsLive s' := by
  cases h with
  | created sel cap => exact .setRing (by rw [hop.1]; exact Ring.lives_create ..)
  | broughtUp =>
    refine ⟨id, fun sel => ?_⟩
    rw [hop.1]
    cases sel <;> exact Ring.lives_create ..
  | enqueued h => obtain ⟨r', rfl, hr⟩ := enqueueStep_frame h; exact .setRing (hr.lives _)
  | written h => obtain ⟨r', rfl, hr⟩ := enqueueStep_frame h; exact .setRing (hr.lives _)
  | dequeued h => obtain ⟨d, rfl⟩ := dequeueStep_frame h; exact .setRing (.of_eq rfl rfl rfl)
  | read h => obtain ⟨d, rfl⟩ := dequeueStep_frame h; exact .setRing (.of_eq rfl rfl rfl)
  | restarted => exact .setRing (.of_eq rfl rfl rfl)
  | enabled => exact ⟨fun _ => rfl, fun sel => by cases sel <;> exact .of_eq rfl rfl rfl⟩
  | nothing | divided | armed | masked | unmasked => exact .of_eq rfl fun sel => by cases sel <;> rfl

theorem mainStep_ringsLive {s t : State} (hs : s.Inv) (h : mainStep s = .next t) : s.RingsLive t := by
  obtain ⟨-, rfl⟩ | ⟨op, hop, h⟩ := mainStep_cases h
  · exact .of_eq rfl fun _ => rfl
  · obtain ⟨s', he, hm⟩ := mainMicro_cases h
    exact (he.ringsLive (hs.main op hop)).trans (.of_eq hm.initialized hm.ring)

theorem State.HandlerFrame.ringsLive {s t : State} (h : s.HandlerFrame t) : s.RingsLive t where
  owned := h.initialized.trans
  ring sel := by
    cases sel with
    | rx => exact h.rx.lives _
    | tx =>
      obtain ⟨d, htx⟩ := h.tx
      rw [ring_tx, ring_tx, htx]
      exact .of_eq rfl rfl rfl

theorem startInstr_ringsLive {i : Instr} {s t : State} (h : startInstr i s = .next t) : s.RingsLive t := by
  rcases startInstr_cases h with ⟨op, -, -, -, rfl⟩ | ⟨-, -, rfl⟩ | ⟨b, -, h⟩ | ⟨-, h⟩
  · exact .of_eq rfl (by simp)
  · exact .of_eq rfl (by simp)
  · obtain ⟨-, ⟨-, rfl⟩ | ⟨-, rfl⟩⟩ := uartReceive_eq_next.1 h <;> exact .of_eq rfl fun sel => by cases sel <;> rfl
  · obtain ⟨-, b, -, rfl⟩ := uartShift_eq_next.1 h
    exact .of_eq rfl fun sel => by cases sel <;> rfl

/-- Settles O20: the rings live through every part of a step. -/
theorem ringsLiveUntilReset : Obligations.RingsLiveUntilReset := by
  intro s t sel hs hr h
  have kept : KeptByMoves fun u => u.Inv ∧ s.RingsLive u :=
    { schedule := fun u bytes turns ⟨hu, hl⟩ =>
        ⟨hu.schedule bytes turns, hl.trans (.of_eq rfl fun sel => by cases sel <;> rfl)⟩
      main := fun u v ⟨hu, hl⟩ hi h => ⟨mainStep_inv u v hu hi h, hl.trans (mainStep_ringsLive hu h)⟩
      handler := fun u v ⟨hu, hl⟩ h => ⟨isrStep_inv u v hu h, hl.trans (isrStep_frame h).ringsLive⟩
      start := fun i u v ⟨hu, hl⟩ h => ⟨startInstr_inv i u v hu h, hl.trans (startInstr_ringsLive h)⟩ }
  obtain ⟨-, hlive⟩ := kept.step ⟨hs, .of_eq rfl fun _ => rfl⟩ hr h
  exact ⟨fun hi => ⟨hlive.owned hi, (hlive.ring sel).cap hi⟩, (hlive.ring sel).valid, (hlive.ring sel).written⟩

/-! While interrupts are masked the handler's work waits (R19, R108, R143). -/

/-- The handler does not run, and what it has to work on is still there. -/
structure State.HandlerWaits (s t : State) : Prop where
  isrOp : t.isrOp = none
  tdr : s.uart.tdr = none → t.uart.tdr = none
  rxHw : s.uart.rxHw <+: t.uart.rxHw
  overrun : s.uart.overrun = true → t.uart.overrun = true
  lost : t.wireInLost = s.wireInLost ∨ ∃ b, s.nextInstr = some (.devRxArrive b)
  owned : s.initialized = true →
    t.initialized = true ∧ t.rx.wr = s.rx.wr ∧ t.rx.buf = s.rx.buf ∧ t.tx.rd = s.tx.rd ∧
      (s.txArmed = true → t.txArmed = true)

namespace State.HandlerWaits
variable {s t u : State}

theorem schedule (hi : s.isrOp = none) (bytes : List Byte) (turns : List Turn) :
    s.HandlerWaits { s with trace := bytes, turns := turns } :=
  ⟨hi, id, ⟨[], List.append_nil _⟩, id, .inl rfl, fun h => ⟨h, rfl, rfl, rfl, id⟩⟩

theorem mainAt (h : s.HandlerWaits t) (op : MainOp) : s.HandlerWaits (t.mainAt op) := by
  obtain ⟨isrOp, tdr, rxHw, overrun, lost, owned⟩ := h
  exact ⟨isrOp, tdr, rxHw, overrun, lost, owned⟩

theorem mainStep (h : s.HandlerWaits t) (ht : t.Inv) (hm : mainStep t = .next u) : s.HandlerWaits u := by
  have hf := mainStep_frame hm
  refine ⟨hf.isrOp.trans h.isrOp, fun e => hf.tdr.trans (h.tdr e), by rw [hf.rxHw]; exact h.rxHw,
    fun e => hf.overrun.trans (h.overrun e), by rw [hf.wireInLost]; exact h.lost, fun hini => ?_⟩
  obtain ⟨hini', hwr, hbuf, hrd, ha⟩ := h.owned hini
  have ho := mainStep_owned ht hini' hm
  exact ⟨ho.initialized, ho.rxWr.trans hwr, ho.rxBuf.trans hbuf, ho.txRd.trans hrd, fun e => ho.armed (ha e)⟩

/-- A byte arrives. -/
theorem uartReceive {b : Byte} (h : s.HandlerWaits t) (hn : s.nextInstr = some (.devRxArrive b))
    (hr : uartReceive b t = .next u) : s.HandlerWaits u := by
  obtain ⟨isrOp, tdr, rxHw, overrun, -, owned⟩ := h
  obtain ⟨-, ⟨-, rfl⟩ | ⟨-, rfl⟩⟩ := uartReceive_eq_next.1 hr
  · exact ⟨isrOp, tdr, rxHw.trans ⟨[b], rfl⟩, overrun, .inr ⟨b, hn⟩, owned⟩
  · exact ⟨isrOp, tdr, rxHw, fun _ => rfl, .inr ⟨b, hn⟩, owned⟩

theorem uartShift (h : s.HandlerWaits t) (hr : uartShift t = .next u) : s.HandlerWaits u := by
  obtain ⟨isrOp, -, rxHw, overrun, lost, owned⟩ := h
  obtain ⟨-, b, -, rfl⟩ := uartShift_eq_next.1 hr
  exact ⟨isrOp, fun _ => rfl, rxHw, overrun, lost, owned⟩

/-- The beginning of an operation that is not the handler's. -/
theorem startInstr {i : Instr} (h : s.HandlerWaits t) (hn : s.nextInstr = some i) (hmask : t.irqMasked = true)
    (hr : startInstr i t = .next u) : s.HandlerWaits u := by
  rcases startInstr_cases hr with ⟨op, -, -, -, rfl⟩ | ⟨-, hen, -⟩ | ⟨b, rfl, hr⟩ | ⟨-, hr⟩
  · exact h.mainAt op
  · obtain ⟨-, -, hoff, -⟩ := handlerEnabled_iff.1 hen
    rw [hmask] at hoff
    cases hoff
  · exact h.uartReceive hn hr
  · exact h.uartShift hr

theorem exec {i : Instr} (h : s.HandlerWaits t) (ht : t.Inv) (hn : s.nextInstr = some i) (hmask : t.irqMasked = true)
    (hr : exec i t = .next u) : s.HandlerWaits u := by
  cases hi : firstOp i with
  | some op =>
    obtain ⟨-, -, hstart, hrun⟩ := exec_of_firstOp hi hr
    refine (runMainFor_keeps (P := fun v => v.Inv ∧ s.HandlerWaits v) ?_
      ⟨startInstr_inv i t _ ht hstart, h.mainAt op⟩ h.isrOp hrun).2
    rintro v w ⟨hv, hw⟩ hi hm
    exact ⟨mainStep_inv v w hv hi hm, hw.mainStep hv hm⟩
  | none =>
    cases i with
    | isr =>
      obtain ⟨hen, -⟩ := exec_isr_eq_next.1 hr
      obtain ⟨-, -, hoff, -⟩ := handlerEnabled_iff.1 hen
      rw [hmask] at hoff
      cases hoff
    | devRxArrive b => exact h.uartReceive hn hr
    | devTxShift => exact h.uartShift hr
    | _ => cases hi

end State.HandlerWaits

/-- Settles O22: a masked block has no handler run in progress and begins none, and no other context does its work. -/
theorem maskedBlockStartsNoHandler : Obligations.MaskedBlockStartsNoHandler := by
  intro s hs hmask
  have hisr : s.isrOp = none := by
    cases hop : s.isrOp with
    | none => rfl
    | some op =>
      obtain ⟨-, hoff, -⟩ := hs.handler op hop
      rw [hmask] at hoff
      cases hoff
  refine ⟨exec_isr_of_disabled (by simp [State.handlerEnabled, hmask]), fun t hr h => ?_⟩
  suffices hw : s.HandlerWaits t from
    ⟨hw.isrOp, hw.tdr, hw.rxHw, hw.overrun, hw.lost, fun hini => (hw.owned hini).2⟩
  rcases step_cases s with ⟨turns, hr', -⟩ | ⟨-, ⟨turns, -, e⟩ | ⟨why, e⟩ | ⟨i, bytes, turns, hn, -, e | e⟩⟩
  · rw [hr] at hr'
    cases hr'
  · rw [e, advance_of_main (s := { s with turns := turns }) hisr] at h
    exact (State.HandlerWaits.schedule hisr s.trace turns).mainStep (hs.schedule _ _) h
  · rw [e] at h
    cases h
  · rw [e] at h
    exact (State.HandlerWaits.schedule hisr bytes turns).exec (hs.schedule _ _) hn hmask h
  · rw [e] at h
    exact (State.HandlerWaits.schedule hisr bytes turns).startInstr hn hmask h

end Sys2Proof.Machine
end

/-! The two byte streams under every interleaving (R22, R57, R110, R146, R192). -/

section
namespace Sys2Proof.Machine

/-! The byte in the handler's hands, by the micro-step the handler stands at. -/

/-- The byte taken off `TX` and not yet handed to the UART. -/
def IsrOp.outgoing : IsrOp → List Byte
  | .h3Dequeue (.q6 b) => [b]
  | .h3Result (some b) => [b]
  | _ => []

/-- The byte read from the UART and not yet on `RX`. -/
def IsrOp.incoming : IsrOp → List Byte
  | .h1Enqueue b .e1 => [b]
  | .h1Enqueue b (.e2 _) => [b]
  | .h1Enqueue b (.e3 _ _) => [b]
  | .h1Enqueue b (.e4 _ _) => [b]
  | .h1Enqueue b (.e5 _ _) => [b]
  | _ => []

section
variable {s t : State}

theorem outgoingInHand_of_isrOp {op : IsrOp} (h : s.isrOp = some op) : s.outgoingInHand = op.outgoing := by
  simp only [State.outgoingInHand, h]
  cases op with
  | h3Dequeue st => cases st <;> rfl
  | h3Result v => cases v <;> rfl
  | _ => rfl

theorem incomingInHand_of_isrOp {op : IsrOp} (h : s.isrOp = some op) : s.incomingInHand = op.incoming := by
  simp only [State.incomingInHand, h]
  cases op with
  | h1Enqueue b st => cases st <;> rfl
  | _ => rfl

theorem outgoingInHand_of_none (h : s.isrOp = none) : s.outgoingInHand = [] := by simp only [State.outgoingInHand, h]

theorem incomingInHand_of_none (h : s.isrOp = none) : s.incomingInHand = [] := by simp only [State.incomingInHand, h]

theorem outgoingInHand_congr (h : t.isrOp = s.isrOp) : t.outgoingInHand = s.outgoingInHand := by
  simp only [State.outgoingInHand, h]

theorem incomingInHand_congr (h : t.isrOp = s.isrOp) : t.incomingInHand = s.incomingInHand := by
  simp only [State.incomingInHand, h]

/-- Bytes added to `TX` go behind everything that is on its way out. -/
theorem outbound_append {bs : List (Option Byte)} (hw : t.wireOut = s.wireOut) (ht : t.uart.tdr = s.uart.tdr)
    (hi : t.isrOp = s.isrOp) (hc : t.tx.contents = s.tx.contents ++ bs) : t.outbound = s.outbound ++ bs := by
  simp only [State.outbound, hw, ht, outgoingInHand_congr hi, hc, List.append_assoc]

theorem outbound_congr (hw : t.wireOut = s.wireOut) (ht : t.uart.tdr = s.uart.tdr) (hi : t.isrOp = s.isrOp)
    (hc : t.tx.contents = s.tx.contents) : t.outbound = s.outbound := by
  simp only [State.outbound, hw, ht, outgoingInHand_congr hi, hc]

theorem inbound_congr (hu : t.uart.rxHw = s.uart.rxHw) (hi : t.incomingInHand = s.incomingInHand)
    (hc : t.rx.contents = s.rx.contents) : t.inbound = s.inbound := by
  simp only [State.inbound, hu, hi, hc]

end

/-! MAIN. -/

theorem mainStep_of_mainOp {s : State} {op : MainOp} (h : s.mainOp = some op) : mainStep s = mainMicro op s := by
  simp [mainStep, h]

section
variable {s t : State} {op : MainOp}

/-- An enqueue adds a byte at `E5` and nowhere else. -/
theorem contents_of_enqueueStep {sel : RingSel} {b : Byte} {st : EnqStep} {s' : State} {p : Progress EnqStep Bool}
    (hs : s.Inv) (hv : (s.ring sel).valid = true) (hl : EnqStep.Inv (s.ring sel) b st)
    (h : enqueueStep sel b st s = .next (s', p)) :
    ((∀ w ds, st ≠ .e5 w ds) → (s'.ring sel).contents = (s.ring sel).contents) ∧
      (∀ w ds, st = .e5 w ds → (s'.ring sel).contents = (s.ring sel).contents ++ [some b]) := by
  obtain ⟨r', rfl, -, -, -, -, -, hquiet, hput, -⟩ := enqueueStep_keeps h (hs.block.ring sel) hv hl
  rw [ring_setRing_same]
  exact ⟨fun hst => (hquiet hst).2, fun w ds e => (hput w ds e).1⟩

theorem contents_setMinFree (r : Ring) (n : Nat) : Ring.contents { r with minFree := n } = r.contents :=
  Ring.contents_congr rfl rfl rfl rfl

/-- `E5` of `TP.WRITE` adds the byte to the outbound sequence. -/
theorem mainMicro_outbound_of_e5 {b : Byte} {w ds : Nat} (hs : s.Inv)
    (hop : s.mainOp = some (.tpWrite b (.w1 (.e5 w ds)))) (h : mainMicro (.tpWrite b (.w1 (.e5 w ds))) s = .next t) :
    t.mainOp = some (.tpWrite b (.w1 (.e6 w ds))) ∧ t.outbound = s.outbound ++ [some b] := by
  obtain ⟨hini, hl⟩ := hs.main _ hop
  cases h
  have hput := (contents_of_enqueueStep (sel := .tx) hs (hs.block.valid hini .tx) hl rfl).2 w ds rfl
  exact ⟨rfl, outbound_append rfl rfl rfl hput⟩

/-- Every other micro-step of MAIN leaves it as it is. -/
theorem mainMicro_outbound (hs : s.Inv) (hini : s.initialized = true) (hop : s.mainOp = some op)
    (hne : ∀ b w ds, op ≠ .tpWrite b (.w1 (.e5 w ds))) (h : mainMicro op s = .next t) : t.outbound = s.outbound := by
  obtain ⟨s', he, hm⟩ := mainMicro_cases h
  have hf := hm.frame he.frame
  refine outbound_congr hf.wireOut hf.tdr hf.isrOp ?_
  rw [hm.tx]
  rcases he.owned_cases (hs.main op hop) hini with ⟨b, st, p, rfl, hstep⟩ | ⟨st, p, rfl, hstep⟩ | ⟨-, -, ⟨n, htx⟩, -⟩
  · obtain ⟨-, hl⟩ := hs.main _ hop
    exact (contents_of_enqueueStep hs (hs.block.valid hini .tx) hl hstep).1 fun w ds e => hne b w ds (by rw [e])
  · obtain ⟨d, rfl⟩ := dequeueStep_frame hstep
    rfl
  · rw [htx, contents_setMinFree]

theorem mainMicro_inbound (hs : s.Inv) (hini : s.initialized = true) (hop : s.mainOp = some op)
    (h : mainMicro op s = .next t) : t.inbound.Sublist s.inbound := by
  obtain ⟨s', he, hm⟩ := mainMicro_cases h
  have hf := hm.frame he.frame
  have hsub : t.rx.contents.Sublist s.rx.contents := by
    rw [hm.rx]
    rcases he.owned_cases (hs.main op hop) hini with ⟨b, st, p, rfl, hstep⟩ | ⟨st, p, rfl, hstep⟩ | ⟨-, ⟨n, hrx⟩, -⟩
    · obtain ⟨r', rfl, -⟩ := enqueueStep_frame hstep
      exact List.Sublist.refl _
    · obtain ⟨-, hl⟩ := hs.main _ hop
      obtain ⟨r', rfl, -, -, -, -, -, -, hquiet, htake⟩ := dequeueStep_keeps hstep hs.rx (hs.block.valid hini .rx) hl
      by_cases hst : ∃ d b, st = .q5 d b
      · obtain ⟨d, b, rfl⟩ := hst
        have hcon : s.rx.contents = some b :: r'.contents := (htake d b rfl).1
        rw [hcon]
        exact List.sublist_cons_self _ _
      · rw [hquiet fun d b e => hst ⟨d, b, e⟩]
        exact List.Sublist.refl _
    · rw [hrx, contents_setMinFree]
  simp only [State.inbound, hf.rxHw, incomingInHand_congr hf.isrOp]
  exact (hsub.append_right _).append_right _

end

/-! The handler. -/

section
variable {s t : State} {op : IsrOp}

theorem outbound_of_isrOp (h : s.isrOp = some op) :
    s.outbound = s.wireOut.map some ++ s.uart.tdr.toList.map some ++ op.outgoing.map some ++ s.tx.contents := by
  rw [State.outbound, outgoingInHand_of_isrOp h]

theorem inbound_of_isrOp (h : s.isrOp = some op) :
    s.inbound = s.rx.contents ++ op.incoming.map some ++ s.uart.rxHw.map some := by
  rw [State.inbound, incomingInHand_of_isrOp h]

/-- A micro-step of the handler that has no outgoing byte in its hands before or after, and does not touch `TX` and the
transmit register. -/
theorem isrAt_outbound {op' : IsrOp} {s' : State} (hop : s.isrOp = some op) (h0 : op.outgoing = [])
    (h1 : op'.outgoing = []) (hw : s'.wireOut = s.wireOut) (ht : s'.uart.tdr = s.uart.tdr) (hx : s'.tx = s.tx) :
    (s'.isrAt op').outbound = s.outbound := by
  rw [outbound_of_isrOp hop, outbound_of_isrOp (isrAt_isrOp s' op'), h0, h1]
  simp only [isrAt_wireOut, isrAt_uart, isrAt_tx, hw, ht, hx]

theorem isrAt_inbound {op' : IsrOp} {s' : State} (hop : s.isrOp = some op) (h0 : op.incoming = [])
    (h1 : op'.incoming = []) (hu : s'.uart.rxHw = s.uart.rxHw) (hx : s'.rx = s.rx) :
    (s'.isrAt op').inbound = s.inbound := by
  rw [inbound_of_isrOp hop, inbound_of_isrOp (isrAt_isrOp s' op'), h0, h1]
  simp only [isrAt_uart, isrAt_rx, hu, hx]

/-- The dequeue hands its byte from `TX` to the handler at `Q5`. -/
theorem h3Dequeue_outbound {st : DeqStep} (hs : s.Inv) (hop : s.isrOp = some (.h3Dequeue st))
    (h : isrMicro (.h3Dequeue st) s = .next t) : t.outbound = s.outbound := by
  obtain ⟨hini, -, hl, -⟩ := hs.handler _ hop
  rw [outbound_of_isrOp hop]
  obtain ⟨a, st', ha, rfl⟩ | ⟨a, v, ha, e⟩ := isrGoesOn_eq_next.1 h
  · rw [outbound_of_isrOp (isrAt_isrOp a _)]
    rcases dequeueStep_cases ha with ⟨rfl, -, rfl, e⟩ | ⟨d, rfl, rfl, e⟩ | ⟨d, ws, rfl, -, rfl, e⟩ |
      ⟨d, ws, rfl, -, rfl, e⟩ | ⟨d, b, rfl, -, -, -, rfl, e⟩ | ⟨d, b, rfl, rfl, e⟩ | ⟨b, rfl, -, e⟩
    · cases e; rfl
    · cases e; rfl
    · cases e
    · cases e; rfl
    · cases e; rfl
    · cases e
      obtain ⟨-, rfl, he, hb⟩ := hl
      obtain ⟨hrd, hwr⟩ := hs.tx.indices (hs.block.valid hini .tx)
      rw [Ring.contents_dequeued hrd hwr he, hb]
      simp [IsrOp.outgoing, Ring.dequeued]
    · cases e
  · cases e
    rw [outbound_of_isrOp (isrAt_isrOp a _)]
    rcases dequeueStep_cases ha with ⟨rfl, -, rfl, e⟩ | ⟨d, rfl, rfl, e⟩ | ⟨d, ws, rfl, -, rfl, e⟩ |
      ⟨d, ws, rfl, -, rfl, e⟩ | ⟨d, b, rfl, -, -, -, rfl, e⟩ | ⟨d, b, rfl, -, e⟩ | ⟨b, rfl, rfl, e⟩ <;> cases e <;> rfl

/-- A byte the handler takes off `TX` is in its hands until the UART has it. -/
theorem isrMicro_outbound (hs : s.Inv) (hop : s.isrOp = some op) (h : isrMicro op s = .next t) :
    t.outbound = s.outbound := by
  cases op with
  | h1Test => cases h; exact isrAt_outbound hop rfl (by split <;> rfl) rfl rfl rfl
  | h1Read =>
    obtain ⟨⟨a, b⟩, ha, e⟩ := andThen_eq_next.1 h
    obtain ⟨rest, -, rfl⟩ := uartReadRx_eq_next.1 ha
    cases e
    exact isrAt_outbound hop rfl rfl rfl rfl rfl
  | h1Enqueue b st =>
    obtain ⟨a, st', ha, rfl⟩ | ⟨a, ok, ha, e⟩ := isrGoesOn_eq_next.1 h
    · obtain ⟨r', rfl, -⟩ := enqueueStep_frame ha
      exact isrAt_outbound hop rfl rfl rfl rfl rfl
    · obtain ⟨r', rfl, -⟩ := enqueueStep_frame ha
      cases e
      cases ok <;> exact isrAt_outbound hop rfl rfl rfl rfl rfl
  | h2Test => cases h; exact isrAt_outbound hop rfl (by split <;> rfl) rfl rfl rfl
  | h2Clear => cases h; exact isrAt_outbound hop rfl rfl rfl rfl rfl
  | h3Test => cases h; exact isrAt_outbound hop rfl (by split <;> rfl) rfl rfl rfl
  | h3Dequeue st => exact h3Dequeue_outbound hs hop h
  | h3Result v =>
    cases v with
    | none => cases h; exact isrAt_outbound hop rfl rfl rfl rfl rfl
    | some b =>
      obtain ⟨a, ha, e⟩ := andThen_eq_next.1 h
      obtain ⟨hfree, rfl⟩ := uartWriteTx_eq_next.1 ha
      cases e
      rw [outbound_of_isrOp hop, outbound_of_isrOp (isrAt_isrOp _ _), hfree]
      simp [IsrOp.outgoing]
  | h4 =>
    cases h
    rw [outbound_of_isrOp hop, State.outbound, outgoingInHand_of_none rfl]
    rfl

theorem isrStep_outbound (hs : s.Inv) (h : isrStep s = .next t) : t.outbound = s.outbound := by
  obtain ⟨-, rfl⟩ | ⟨op, hop, h⟩ := isrStep_cases h
  · rfl
  · exact isrMicro_outbound hs hop h

/-- From `s` to `t` one byte on its way in has been dropped and counted. -/
def State.Drops (s t : State) : Prop :=
  t.wireInLost = s.wireInLost + 1 ∧ ∃ l b r, s.inbound = l ++ b :: r ∧ t.inbound = l ++ r

/-- The receive service's enqueue puts the byte in the handler's hands on `RX`, or drops it. -/
theorem h1Enqueue_inbound {b : Byte} {st : EnqStep} (hs : s.Inv) (hop : s.isrOp = some (.h1Enqueue b st))
    (h : isrMicro (.h1Enqueue b st) s = .next t) :
    (t.inbound = s.inbound ∧ t.wireInLost = s.wireInLost) ∨ s.Drops t := by
  obtain ⟨hini, -, hl⟩ := hs.handler _ hop
  have hv := hs.block.valid hini .rx
  obtain ⟨a, st', ha, rfl⟩ | ⟨a, ok, ha, e⟩ := isrGoesOn_eq_next.1 h
  · refine .inl ⟨?_, ?_⟩
    · rw [inbound_of_isrOp hop, inbound_of_isrOp (isrAt_isrOp a _)]
      obtain ⟨hquiet, hput⟩ := contents_of_enqueueStep hs hv hl ha
      simp only [ring_rx] at hquiet hput
      simp only [isrAt_rx, isrAt_uart, enqueueStep_uart ha]
      rcases enqueueStep_cases ha with ⟨rfl, -, -, e⟩ | ⟨w, rfl, -, e⟩ | ⟨w, ds, rfl, -, -, e⟩ |
        ⟨w, ds, rfl, -, -, e⟩ | ⟨w, ds, rfl, -, -, -, e⟩ | ⟨w, ds, rfl, -, e⟩ | ⟨w, ds, rfl, -, e⟩ | ⟨rfl, -, e⟩
      · cases e; rw [hquiet nofun]; rfl
      · cases e; rw [hquiet nofun]; rfl
      · cases e
      · cases e; rw [hquiet nofun]; rfl
      · cases e; rw [hquiet nofun]; rfl
      · cases e
        rw [hput w ds rfl]
        simp [IsrOp.incoming]
      · cases e; rw [hquiet nofun]; rfl
      · cases e
    · obtain ⟨r', rfl, -⟩ := enqueueStep_frame ha
      rfl
  · cases e
    rcases enqueueStep_cases ha with ⟨rfl, -, -, e⟩ | ⟨w, rfl, -, e⟩ | ⟨w, ds, rfl, -, rfl, e⟩ |
      ⟨w, ds, rfl, -, -, e⟩ | ⟨w, ds, rfl, -, -, -, e⟩ | ⟨w, ds, rfl, -, e⟩ | ⟨w, ds, rfl, -, e⟩ | ⟨rfl, rfl, e⟩ <;>
      cases e
    · refine .inr ⟨rfl, a.rx.contents, some b, a.uart.rxHw.map some, ?_, ?_⟩
      · rw [inbound_of_isrOp hop]
        simp [IsrOp.incoming]
      · rw [receiveDone, inbound_of_isrOp (isrAt_isrOp _ _)]
        simp [IsrOp.incoming]
    · exact .inl ⟨isrAt_inbound hop rfl rfl rfl rfl, rfl⟩

/-- A byte the handler reads is in its hands until it is on `RX`, or it is dropped and counted. -/
theorem isrMicro_inbound (hs : s.Inv) (hop : s.isrOp = some op) (h : isrMicro op s = .next t) :
    (t.inbound = s.inbound ∧ t.wireInLost = s.wireInLost) ∨ s.Drops t := by
  cases op with
  | h1Test => cases h; exact .inl ⟨isrAt_inbound hop rfl (by split <;> rfl) rfl rfl, rfl⟩
  | h1Read =>
    obtain ⟨⟨a, b⟩, ha, e⟩ := andThen_eq_next.1 h
    obtain ⟨rest, hrest, rfl⟩ := uartReadRx_eq_next.1 ha
    cases e
    refine .inl ⟨?_, rfl⟩
    rw [inbound_of_isrOp hop, inbound_of_isrOp (isrAt_isrOp _ _), hrest]
    simp [IsrOp.incoming]
  | h1Enqueue b st => exact h1Enqueue_inbound hs hop h
  | h2Test => cases h; exact .inl ⟨isrAt_inbound hop rfl (by split <;> rfl) rfl rfl, rfl⟩
  | h2Clear => cases h; exact .inl ⟨isrAt_inbound hop rfl rfl rfl rfl, rfl⟩
  | h3Test => cases h; exact .inl ⟨isrAt_inbound hop rfl (by split <;> rfl) rfl rfl, rfl⟩
  | h3Dequeue st =>
    obtain ⟨a, st', ha, rfl⟩ | ⟨a, v, ha, e⟩ := isrGoesOn_eq_next.1 h
    · obtain ⟨d, rfl⟩ := dequeueStep_frame ha
      exact .inl ⟨isrAt_inbound hop rfl rfl rfl rfl, rfl⟩
    · obtain ⟨d, rfl⟩ := dequeueStep_frame ha
      cases e
      exact .inl ⟨isrAt_inbound hop rfl rfl rfl rfl, rfl⟩
  | h3Result v =>
    cases v with
    | none => cases h; exact .inl ⟨isrAt_inbound hop rfl rfl rfl rfl, rfl⟩
    | some b =>
      obtain ⟨a, ha, e⟩ := andThen_eq_next.1 h
      obtain ⟨-, rfl⟩ := uartWriteTx_eq_next.1 ha
      cases e
      exact .inl ⟨isrAt_inbound hop rfl rfl rfl rfl, rfl⟩
  | h4 =>
    cases h
    refine .inl ⟨?_, rfl⟩
    rw [inbound_of_isrOp hop, State.inbound, incomingInHand_of_none rfl]
    rfl

theorem State.Drops.sublist (h : s.Drops t) : t.inbound.Sublist s.inbound := by
  obtain ⟨-, l, b, r, hs, ht⟩ := h
  rw [hs, ht]
  exact List.Sublist.append_left (List.sublist_cons_self _ _) _

theorem isrStep_inbound (hs : s.Inv) (h : isrStep s = .next t) : t.inbound.Sublist s.inbound := by
  obtain ⟨-, rfl⟩ | ⟨op, hop, h⟩ := isrStep_cases h
  · exact List.Sublist.refl _
  · rcases isrMicro_inbound hs hop h with ⟨e, -⟩ | hd
    · rw [e]
    · exact hd.sublist

end

/-! The beginning of an operation. -/

section
variable {s t : State} {i : Instr}

theorem isrAt_h1Test_outbound (hi : s.isrOp = none) : (s.isrAt .h1Test).outbound = s.outbound := by
  rw [outbound_of_isrOp (isrAt_isrOp s _), State.outbound, outgoingInHand_of_none hi]
  rfl

theorem isrAt_h1Test_inbound (hi : s.isrOp = none) : (s.isrAt .h1Test).inbound = s.inbound := by
  rw [inbound_of_isrOp (isrAt_isrOp s _), State.inbound, incomingInHand_of_none hi]
  rfl

theorem uartShift_outbound (h : uartShift s = .next t) : t.outbound = s.outbound := by
  obtain ⟨-, b, hb, rfl⟩ := uartShift_eq_next.1 h
  simp only [State.outbound, hb]
  simp [State.outgoingInHand]

theorem uartReceive_outbound {b : Byte} (h : uartReceive b s = .next t) : t.outbound = s.outbound := by
  obtain ⟨-, ⟨-, rfl⟩ | ⟨-, rfl⟩⟩ := uartReceive_eq_next.1 h <;> exact outbound_congr rfl rfl rfl rfl

theorem uartShift_inbound (h : uartShift s = .next t) : t.inbound = s.inbound := by
  obtain ⟨-, b, -, rfl⟩ := uartShift_eq_next.1 h
  exact inbound_congr rfl rfl rfl

theorem uartReceive_inbound {b : Byte} (h : uartReceive b s = .next t) :
    t.inbound.Sublist (s.inbound ++ [some b]) := by
  obtain ⟨-, ⟨-, rfl⟩ | ⟨-, rfl⟩⟩ := uartReceive_eq_next.1 h
  · have happ : State.inbound { s with uart := { s.uart with rxHw := s.uart.rxHw ++ [b] } } =
        s.inbound ++ [some b] := by
      simp [State.inbound, State.incomingInHand]
    rw [happ]
  · have hsame : State.inbound { s with uart := { s.uart with overrun := true }, wireInLost := s.wireInLost + 1 } =
        s.inbound := inbound_congr rfl rfl rfl
    rw [hsame]
    exact List.sublist_append_left _ _

theorem startInstr_outbound (h : startInstr i s = .next t) : t.outbound = s.outbound := by
  rcases startInstr_cases h with ⟨op, -, -, -, rfl⟩ | ⟨-, hen, rfl⟩ | ⟨b, -, h⟩ | ⟨-, h⟩
  · rfl
  · obtain ⟨-, -, -, hi⟩ := handlerEnabled_iff.1 hen
    exact isrAt_h1Test_outbound hi
  · exact uartReceive_outbound h
  · exact uartShift_outbound h

theorem startInstr_inbound (h : startInstr i s = .next t) :
    t.inbound.Sublist s.inbound ∨ ∃ b, i = .devRxArrive b ∧ t.inbound.Sublist (s.inbound ++ [some b]) := by
  rcases startInstr_cases h with ⟨op, -, -, -, rfl⟩ | ⟨-, hen, rfl⟩ | ⟨b, rfl, h⟩ | ⟨-, h⟩
  · exact .inl (List.Sublist.refl _)
  · obtain ⟨-, -, -, hi⟩ := handlerEnabled_iff.1 hen
    exact .inl (by rw [isrAt_h1Test_inbound hi])
  · exact .inr ⟨b, rfl, uartReceive_inbound h⟩
  · exact .inl (by rw [uartShift_inbound h])

end

/-! Inbound order (R57). -/

section
variable {s t : State} {i : Instr}

theorem mainStep_inbound (hs : s.Inv) (hini : s.initialized = true) (h : mainStep s = .next t) :
    t.inbound.Sublist s.inbound := by
  obtain ⟨-, rfl⟩ | ⟨op, hop, h⟩ := mainStep_cases h
  · exact List.Sublist.refl _
  · exact mainMicro_inbound hs hini hop h

theorem advance_inbound (hs : s.Inv) (hini : s.initialized = true) (h : advance s = .next t) :
    t.inbound.Sublist s.inbound := by
  obtain ⟨-, h⟩ | h := advance_cases h
  · exact mainStep_inbound hs hini h
  · exact isrStep_inbound hs h

theorem exec_inbound (hs : s.Inv) (hini : s.initialized = true) (h : exec i s = .next t) :
    t.inbound.Sublist s.inbound ∨ ∃ b, i = .devRxArrive b ∧ t.inbound.Sublist (s.inbound ++ [some b]) := by
  cases hop : firstOp i with
  | some op =>
    obtain ⟨-, hisr, hstart, hrun⟩ := exec_of_firstOp hop h
    refine .inl (runMainFor_keeps (P := fun u => u.Inv ∧ u.initialized = true ∧ u.inbound.Sublist s.inbound) ?_
      ⟨startInstr_inv i s _ hs hstart, hini, List.Sublist.refl _⟩ hisr hrun).2.2
    rintro u v ⟨hu, hini, hsub⟩ hi hm
    exact ⟨mainStep_inv u v hu hi hm, (mainStep_owned hu hini hm).initialized,
      (mainStep_inbound hu hini hm).trans hsub⟩
  | none =>
    cases i with
    | isr =>
      obtain ⟨hen, hrun⟩ := exec_isr_eq_next.1 h
      obtain ⟨-, -, -, hisr⟩ := handlerEnabled_iff.1 hen
      refine .inl (runHandlerFor_induct (P := fun u => u.Inv ∧ u.inbound.Sublist s.inbound) ?_
        ⟨startInstr_inv .isr s _ hs (enterHandler_eq_next.2 ⟨hen, rfl⟩), by rw [isrAt_h1Test_inbound hisr]⟩ hrun).2
      rintro u v ⟨hu, hsub⟩ hm
      exact ⟨isrStep_inv u v hu hm, (isrStep_inbound hu hm).trans hsub⟩
    | devRxArrive b => exact startInstr_inbound (i := .devRxArrive b) h
    | devTxShift => exact startInstr_inbound (i := .devTxShift) h
    | _ => cases hop

/-- Settles O24: MAIN takes the front byte away, the handler drops one at most, and only DEV adds one, at the end. -/
theorem inboundOrderIsKept : Obligations.InboundOrderIsKept := by
  intro s t hs hini hr h
  have named : ∀ {i : Instr} {t : State}, s.nextInstr = some i →
      (t.inbound.Sublist s.inbound ∨ ∃ b, i = .devRxArrive b ∧ t.inbound.Sublist (s.inbound ++ [some b])) →
      t.inbound.Sublist s.inbound ∨
        ∃ b, s.nextInstr = some (.devRxArrive b) ∧ t.inbound.Sublist (s.inbound ++ [some b]) := by
    rintro i t hn (hsub | ⟨b, rfl, hsub⟩)
    · exact .inl hsub
    · exact .inr ⟨b, hn, hsub⟩
  rcases step_cases s with ⟨turns, hr', -⟩ | ⟨-, ⟨turns, -, e⟩ | ⟨why, e⟩ | ⟨i, bytes, turns, hn, -, e | e⟩⟩
  · rw [hr] at hr'
    cases hr'
  · exact .inl (advance_inbound (s := { s with turns := turns }) (hs.schedule _ _) hini (e ▸ h))
  · rw [e] at h
    cases h
  · exact named hn (exec_inbound (s := { s with trace := bytes, turns := turns }) (hs.schedule _ _) hini (e ▸ h))
  · exact named hn (startInstr_inbound (s := { s with trace := bytes, turns := turns }) (e ▸ h))

/-- Settles O25: what a micro-step of the handler drops it counts. -/
theorem lostBytesAreCounted : Obligations.LostBytesAreCounted := by
  intro s t hs h
  obtain ⟨hen, hrun⟩ := exec_isr_eq_next.1 h
  obtain ⟨-, -, -, hisr⟩ := handlerEnabled_iff.1 hen
  refine (runHandlerFor_induct
    (P := fun u => u.Inv ∧ u.inbound.length + u.wireInLost = s.inbound.length + s.wireInLost) ?_
    ⟨startInstr_inv .isr s _ hs (enterHandler_eq_next.2 ⟨hen, rfl⟩), by rw [isrAt_h1Test_inbound hisr]; rfl⟩ hrun).2
  rintro u v ⟨hu, hsum⟩ hm
  refine ⟨isrStep_inv u v hu hm, ?_⟩
  obtain ⟨-, rfl⟩ | ⟨op, hop, hm⟩ := isrStep_cases hm
  · exact hsum
  · rcases isrMicro_inbound hu hop hm with ⟨hin, hlost⟩ | ⟨hlost, l, b, r, hin, hin'⟩
    · rw [hin, hlost, hsum]
    · rw [hin] at hsum
      rw [hin', hlost, ← hsum]
      simp only [List.length_append, List.length_cons]
      omega

end

/-! Outbound order (R57). -/

section
variable {s t : State} {i : Instr}

/-- No byte is put on the ring by a step at which MAIN stays where it is or only begins, unless a `TP.WRITE` run whole
has returned. -/
theorem not_writes (hmain : t.mainOp = s.mainOp ∨ s.mainOp = none)
    (hn : ∀ b, s.nextInstr = some (.tpWrite b) → t.mainOp ≠ none) (b : Byte) : ¬ s.Writes t b := by
  rintro (⟨w, ds, h0, h1⟩ | ⟨h0, h1⟩)
  · rcases hmain with e | e
    · rw [e, h0] at h1
      cases h1
    · rw [e] at h0
      cases h0
  · exact hn b h0 h1

/-- What O23 says of a step. -/
def State.OutboundKept (s t : State) : Prop :=
  (∀ b, s.Writes t b → t.outbound = s.outbound ++ [some b]) ∧ ((∀ b, ¬ s.Writes t b) → t.outbound = s.outbound)

theorem outboundKept_of_not_writes (hw : ∀ b, ¬ s.Writes t b) (h : t.outbound = s.outbound) : s.OutboundKept t :=
  ⟨fun b hb => absurd hb (hw b), fun _ => h⟩

/-- A micro-step. -/
theorem advance_outboundKept {turns : List Turn} (hs : s.Inv) (hini : s.initialized = true) (hn : s.nextInstr = none)
    (h : advance { s with turns := turns } = .next t) : s.OutboundKept t := by
  have noWord : ∀ b, s.nextInstr = some (.tpWrite b) → t.mainOp ≠ none := by rw [hn]; nofun
  have hs' : State.Inv { s with turns := turns } := hs.schedule s.trace turns
  obtain ⟨-, h⟩ | h := advance_cases h
  · obtain ⟨hop, rfl⟩ | ⟨op, hop, h⟩ := mainStep_cases h
    · exact outboundKept_of_not_writes (not_writes (.inl rfl) noWord) rfl
    · by_cases hop5 : ∃ b w ds, op = .tpWrite b (.w1 (.e5 w ds))
      · obtain ⟨b, w, ds, rfl⟩ := hop5
        have hop' : s.mainOp = some (.tpWrite b (.w1 (.e5 w ds))) := hop
        obtain ⟨hat, hout⟩ := mainMicro_outbound_of_e5 hs' hop h
        refine ⟨?_, fun hno => absurd (.inl ⟨w, ds, hop', hat⟩) (hno b)⟩
        rintro b' (⟨w', ds', h0, -⟩ | ⟨h0, -⟩)
        · cases hop'.symm.trans h0
          exact hout
        · rw [hn] at h0
          cases h0
      · refine outboundKept_of_not_writes ?_
          (mainMicro_outbound (s := { s with turns := turns }) hs' hini hop (fun b w ds e => hop5 ⟨b, w, ds, e⟩) h)
        rintro b (⟨w, ds, h0, -⟩ | ⟨h0, -⟩)
        · exact hop5 ⟨b, w, ds, Option.some.inj (hop.symm.trans h0)⟩
        · rw [hn] at h0
          cases h0
  · exact outboundKept_of_not_writes (not_writes (.inl (isrStep_frame h).mainOp) noWord)
      (isrStep_outbound (s := { s with turns := turns }) hs' h)

/-- `TP.WRITE` run whole puts its byte on the ring, or spins. -/
theorem exec_tpWrite_outbound {b : Byte} (hs : s.Inv) (h : exec (.tpWrite b) s = .next t) :
    (t.mainOp = none ∧ t.outbound = s.outbound ++ [some b]) ∨ (t.mainOp ≠ none ∧ t.outbound = s.outbound) := by
  obtain ⟨-, -, hstart, hrun⟩ := exec_of_firstOp (i := .tpWrite b) rfl h
  have hini : s.initialized = true := (whenInitialized_eq_next.1 hstart).1
  have hv : s.tx.valid = true := hs.block.valid hini .tx
  obtain ⟨hrd, hwr⟩ := hs.tx.indices hv
  cases hf : s.tx.full with
  | true =>
    rw [runMain_tpWrite_of_full hv hf] at hrun
    cases hrun
    exact .inr ⟨by simp, rfl⟩
  | false =>
    rw [runMain_tpWrite_of_room hv hwr hf] at hrun
    cases hrun
    exact .inl ⟨rfl, outbound_append rfl rfl rfl (Ring.contents_enqueued _ hrd hwr hf)⟩

/-- Every other word run whole leaves the sequence as it is. -/
theorem exec_outbound (hs : s.Inv) (hini : s.initialized = true) (hne : ∀ b, i ≠ .tpWrite b)
    (h : exec i s = .next t) : t.outbound = s.outbound := by
  cases hop : firstOp i with
  | some op =>
    have hfirst : ∀ b st, op ≠ MainOp.first (.tpWrite b st) := by
      rintro b st rfl
      cases i with
      | tpWrite b => exact hne b rfl
      | _ => cases hop
    obtain ⟨-, hisr, hstart, -⟩ := exec_of_firstOp hop h
    refine (exec_main_induct (P := fun u => u.Inv ∧ u.initialized = true ∧ u.outbound = s.outbound) hop h
      ⟨startInstr_inv i s _ hs hstart, hini, rfl⟩ ?_).2.2
    rintro u v op' ⟨hu, hini, hout⟩ hi hop' hop1 hm
    have hstep : mainStep u = .next v := (mainStep_of_mainOp hop').trans hm
    refine ⟨mainStep_inv u v hu hi hstep, (mainStep_owned hu hini hstep).initialized, ?_⟩
    rw [mainMicro_outbound hu hini hop' (fun b w ds e => hfirst b (.w1 (.e5 w ds)) (e ▸ hop1.symm)) hm, hout]
  | none =>
    cases i with
    | isr =>
      obtain ⟨hen, hrun⟩ := exec_isr_eq_next.1 h
      obtain ⟨-, -, -, hisr⟩ := handlerEnabled_iff.1 hen
      refine (runHandlerFor_induct (P := fun u => u.Inv ∧ u.outbound = s.outbound) ?_
        ⟨startInstr_inv .isr s _ hs (enterHandler_eq_next.2 ⟨hen, rfl⟩), isrAt_h1Test_outbound hisr⟩ hrun).2
      rintro u v ⟨hu, hout⟩ hm
      exact ⟨isrStep_inv u v hu hm, (isrStep_outbound hu hm).trans hout⟩
    | devRxArrive b => exact uartReceive_outbound h
    | devTxShift => exact uartShift_outbound h
    | _ => cases hop

/-- A word that does not belong to MAIN leaves MAIN where it is. -/
theorem exec_mainOp (h : exec i s = .next t) : t.mainOp = s.mainOp ∨ s.mainOp = none := by
  cases hop : firstOp i with
  | some op => exact .inr (exec_of_firstOp hop h).1
  | none =>
    cases i with
    | isr =>
      obtain ⟨-, hrun⟩ := exec_isr_eq_next.1 h
      exact .inl (runHandlerFor_induct (P := fun u => u.mainOp = s.mainOp) (s := s.isrAt .h1Test)
        (fun u v hu hm => (isrStep_frame hm).mainOp.trans hu) rfl hrun)
    | devRxArrive b => obtain ⟨-, ⟨-, rfl⟩ | ⟨-, rfl⟩⟩ := uartReceive_eq_next.1 h <;> exact .inl rfl
    | devTxShift =>
      obtain ⟨-, b, -, rfl⟩ := uartShift_eq_next.1 h
      exact .inl rfl
    | _ => cases hop

/-- A word run whole. -/
theorem exec_outboundKept {bytes : List Byte} {turns : List Turn} (hs : s.Inv) (hini : s.initialized = true)
    (hn : s.nextInstr = some i) (h : exec i { s with trace := bytes, turns := turns } = .next t) :
    s.OutboundKept t := by
  have hs' : State.Inv { s with trace := bytes, turns := turns } := hs.schedule bytes turns
  by_cases hi : ∃ b, i = .tpWrite b
  · obtain ⟨b, rfl⟩ := hi
    have hidle : s.mainOp = none := (exec_of_firstOp (i := .tpWrite b) rfl h).1
    obtain ⟨hret, hout⟩ | ⟨hspin, hout⟩ := exec_tpWrite_outbound hs' h
    · refine ⟨?_, fun hno => absurd (.inr ⟨hn, hret⟩) (hno b)⟩
      rintro b' (⟨w, ds, h0, -⟩ | ⟨h0, -⟩)
      · rw [hidle] at h0
        cases h0
      · cases hn.symm.trans h0
        exact hout
    · exact outboundKept_of_not_writes (not_writes (.inr hidle) fun _ _ => hspin) hout
  · have hne : ∀ b, i ≠ .tpWrite b := fun b e => hi ⟨b, e⟩
    have hout : t.outbound = s.outbound := exec_outbound (s := { s with trace := bytes, turns := turns }) hs' hini hne h
    have hmain := exec_mainOp (s := { s with trace := bytes, turns := turns }) h
    refine outboundKept_of_not_writes (not_writes hmain fun b h0 => ?_) hout
    exact absurd (Option.some.inj (hn.symm.trans h0)) (hne b)

/-- The beginning of an operation. -/
theorem startInstr_outboundKept {bytes : List Byte} {turns : List Turn} (hn : s.nextInstr = some i)
    (h : startInstr i { s with trace := bytes, turns := turns } = .next t) : s.OutboundKept t := by
  have hout : t.outbound = s.outbound := startInstr_outbound (s := { s with trace := bytes, turns := turns }) h
  refine outboundKept_of_not_writes (not_writes ?_ fun b h0 => ?_) hout
  · rcases startInstr_cases h with ⟨op, -, hidle, -⟩ | ⟨-, -, rfl⟩ | ⟨b, -, h⟩ | ⟨-, h⟩
    · exact .inr hidle
    · exact .inl rfl
    · obtain ⟨-, ⟨-, rfl⟩ | ⟨-, rfl⟩⟩ := uartReceive_eq_next.1 h <;> exact .inl rfl
    · obtain ⟨-, b, -, rfl⟩ := uartShift_eq_next.1 h
      exact .inl rfl
  · cases hn.symm.trans h0
    rcases startInstr_cases h with ⟨op, -, -, -, rfl⟩ | ⟨e, -⟩ | ⟨b, e, -⟩ | ⟨e, -⟩
    · simp
    all_goals cases e

/-- Settles O23: `E5` of `TP.WRITE` is the one micro-step that adds a byte, and the bytes are handed on in order. -/
theorem outboundOrderIsKept : Obligations.OutboundOrderIsKept := by
  intro s t hs hini hr h
  rcases step_cases s with ⟨turns, hr', -⟩ | ⟨-, ⟨turns, hn, e⟩ | ⟨why, e⟩ | ⟨i, bytes, turns, hn, -, e | e⟩⟩
  · rw [hr] at hr'
    cases hr'
  · exact advance_outboundKept hs hini hn (e ▸ h)
  · rw [e] at h
    cases h
  · exact exec_outboundKept hs hini hn (e ▸ h)
  · exact startInstr_outboundKept hn (e ▸ h)

end

/-- Settles O26: no request is pending, so an empty transmit register means a disarmed interrupt, and outside the arming
window a disarmed interrupt means an empty `TX` (R18). -/
theorem quiescentBlockHasSentEverything : Obligations.QuiescentBlockHasSentEverything := by
  intro s hs hq hini hmask
  obtain ⟨⟨hidle, hpend⟩, hsent⟩ :
      (s.idle = true ∧ s.irqPending = false) ∧ (s.uart.en = false ∨ s.uart.tdr = none) := by
    simpa [State.quiescent, hmask] using hq
  obtain ⟨hmain, hisr⟩ := idle_iff.1 hidle
  have htdr : s.uart.tdr = none := hsent.resolve_left (by simp [(hs.device hini).1])
  have hdis : s.txArmed = false := by
    have hirq : s.irqTx = false := by
      simp only [State.irqPending, hini, Bool.true_and, Bool.or_eq_false_iff] at hpend
      exact hpend.2
    simpa [State.irqTx, State.txEmpty, htdr] using hirq
  have hempty : s.tx.empty = true := by
    rw [← Bool.not_eq_false]
    intro he
    have harm := hs.armed hini (by simp [State.inArmingWindow, hmain]) he
    rw [hdis] at harm
    cases harm
  obtain ⟨hrd, hwr⟩ := hs.tx.indices (hs.block.valid hini .tx)
  refine ⟨hempty, hdis, ?_⟩
  rw [State.outbound, htdr, outgoingInHand_of_none hisr, (Ring.empty_iff_contents hrd hwr).1 hempty]
  simp

end Sys2Proof.Machine
end

/-! The handler run whole (R144 to R148), and a spinning `TP.WRITE` after it (R104). -/

section
namespace Sys2Proof.Machine

/-! The rows of the handler's micro-steps. -/

section
variable {n : Nat} {s t : State} {b : Byte}

theorem runHandlerFor_h1Enqueue_more {st st' : EnqStep} (h : enqueueStep .rx b st s = .next (t, .more st')) :
    runHandlerFor (n + 1) (s.isrAt (.h1Enqueue b st)) = runHandlerFor n (t.isrAt (.h1Enqueue b st')) :=
  runHandlerFor_isrAt (isrGoesOn_eq_next.2 (.inl ⟨_, _,
    enqueueStep_map (f := (State.isrAt · (.h1Enqueue b st))) (by simp) (by simp) (by simp) h, rfl⟩))

theorem runHandlerFor_h3Dequeue_more {st st' : DeqStep} (h : dequeueStep .tx st s = .next (t, .more st')) :
    runHandlerFor (n + 1) (s.isrAt (.h3Dequeue st)) = runHandlerFor n (t.isrAt (.h3Dequeue st')) :=
  runHandlerFor_isrAt (isrGoesOn_eq_next.2 (.inl ⟨_, _,
    dequeueStep_map (f := (State.isrAt · (.h3Dequeue st))) (by simp) (by simp) h, rfl⟩))

end

/-! The receive service (R146). -/

/-- The UART's bytes replaced: what the receive service has still to take. -/
def State.withHeld (s : State) (bs : List Byte) : State := { s with uart := { s.uart with rxHw := bs } }

section
variable {n : Nat} {s : State} {b : Byte} {bs : List Byte}

theorem received_of_full (hf : s.rx.full = true) : s.received b = { s with wireInLost := s.wireInLost + 1 } := if_pos hf

theorem received_of_room (hf : s.rx.full = false) :
    s.received b = { s with rx := s.rx.enqueued s.cfg.hasStats b } := if_neg (by simp [hf])

/-- The receive service's work on a byte does not look at the bytes still held. -/
theorem withHeld_received : (s.withHeld bs).received b = (s.received b).withHeld bs := by
  cases hf : s.rx.full with
  | true => rw [received_of_full hf, received_of_full (s := s.withHeld bs) hf]; rfl
  | false => rw [received_of_room hf, received_of_room (s := s.withHeld bs) hf]; rfl

@[simp] theorem withHeld_rxHw : (s.withHeld bs).uart.rxHw = bs := rfl

theorem receiveAll_withHeld : (s.withHeld bs).receiveAll = bs.foldl State.received (s.withHeld []) := rfl

theorem receiveAll_of_cons : (s.withHeld (b :: bs)).receiveAll = ((s.received b).withHeld bs).receiveAll := by
  rw [receiveAll_withHeld, receiveAll_withHeld, List.foldl_cons, withHeld_received]

/-- The loop test and the read of `H1` where a byte is held. -/
theorem runHandlerFor_h1Test_of_byte :
    runHandlerFor (n + 2) ((s.withHeld (b :: bs)).isrAt .h1Test) =
      runHandlerFor n ((s.withHeld bs).isrAt (.h1Enqueue b .e1)) := by
  rw [runHandlerFor_isrAt (t := s.withHeld (b :: bs)) (op' := .h1Read) rfl,
    runHandlerFor_isrAt (t := s.withHeld bs) (op' := .h1Enqueue b .e1) rfl]

/-- The enqueue of `H1` on a full ring. -/
theorem runHandlerFor_h1Enqueue_of_full (hv : s.rx.valid = true) (hf : s.rx.full = true) :
    runHandlerFor (n + 3) (s.isrAt (.h1Enqueue b .e1)) = runHandlerFor n ((s.received b).isrAt .h1Test) := by
  rw [received_of_full hf]
  calc runHandlerFor (n + 3) (s.isrAt (.h1Enqueue b .e1))
    _ = runHandlerFor (n + 1) (s.isrAt (.h1Enqueue b (.e3 s.rx.wr s.rx.rd))) :=
      run_enqueue_snapshots (sel := .rx) (at' := fun s st => s.isrAt (.h1Enqueue b st))
        (fun _ _ _ _ _ => runHandlerFor_h1Enqueue_more) hv (n + 1)
    _ = _ := runHandlerFor_isrAt (isrGoesOn_eq_next.2 (.inr ⟨_, _,
      enqueueStep_e3_of_full (s := s.isrAt (.h1Enqueue b (.e3 s.rx.wr s.rx.rd))) (sel := .rx) hf, rfl⟩))

/-- The enqueue of `H1` on a ring with room. -/
theorem runHandlerFor_h1Enqueue_of_room (hv : s.rx.valid = true) (hw : s.rx.wr < s.rx.cap) (hf : s.rx.full = false) :
    runHandlerFor (n + 7) (s.isrAt (.h1Enqueue b .e1)) = runHandlerFor n ((s.received b).isrAt .h1Test) := by
  rw [received_of_room hf]
  calc runHandlerFor (n + 7) (s.isrAt (.h1Enqueue b .e1))
    _ = runHandlerFor (n + 1) (State.isrAt { s with rx := s.rx.enqueued s.cfg.hasStats b } (.h1Enqueue b .e7)) :=
      run_enqueue_of_room (at' := fun s st => s.isrAt (.h1Enqueue b st))
        (fun _ _ _ _ _ => runHandlerFor_h1Enqueue_more) (ring_rx s) hv hw hf (n + 1)
    _ = _ := runHandlerFor_isrAt rfl

/-- Micro-steps to spare do not matter, at a named micro-step of the handler with `held` bytes to come back for. -/
theorem runHandlerFor_isrAt_of_enough {m : Nat} {op : IsrOp} (hn : 9 * s.uart.rxHw.length + op.left ≤ n)
    (hm : 9 * s.uart.rxHw.length + op.left ≤ m) : runHandlerFor n (s.isrAt op) = runHandlerFor m (s.isrAt op) := by
  have hle : (s.isrAt op).handlerLeft op ≤ 9 * s.uart.rxHw.length + op.left := by
    have := (s.isrAt op).bytesAfter_length_le op
    rw [isrAt_uart] at this
    unfold State.handlerLeft
    omega
  exact runHandlerFor_of_enough rfl (hle.trans hn) (hle.trans hm)

/-- What the receive service needs of `RX`. -/
def State.Receives (s : State) : Prop := s.rx.Inv s.cfg ∧ s.rx.valid = true

theorem receives_received (h : s.Receives) : (s.received b).Receives := by
  obtain ⟨hinv, hv⟩ := h
  cases hf : s.rx.full with
  | true => rw [received_of_full hf]; exact ⟨hinv, hv⟩
  | false => rw [received_of_room hf]; exact ⟨hinv.enqueued hv hf _ b, hv⟩

/-- One pass of the loop of `H1`, with micro-steps to spare. -/
theorem runHandlerFor_h1Test_of_cons {m : Nat} (h : s.Receives) (hn : 9 * (bs.length + 1) + 12 ≤ n)
    (hm : 9 * bs.length + 12 ≤ m) :
    runHandlerFor n ((s.withHeld (b :: bs)).isrAt .h1Test) =
      runHandlerFor m (((s.received b).withHeld bs).isrAt .h1Test) := by
  obtain ⟨hinv, hv⟩ := h
  cases hf : s.rx.full with
  | true =>
    obtain ⟨k, rfl⟩ : ∃ k, n = k + 5 := ⟨n - 5, by omega⟩
    rw [runHandlerFor_h1Test_of_byte, runHandlerFor_h1Enqueue_of_full (s := s.withHeld bs) hv hf, withHeld_received]
    exact runHandlerFor_isrAt_of_enough (by simp [IsrOp.left]; omega) hm
  | false =>
    obtain ⟨k, rfl⟩ : ∃ k, n = k + 9 := ⟨n - 9, by omega⟩
    rw [runHandlerFor_h1Test_of_byte, runHandlerFor_h1Enqueue_of_room (s := s.withHeld bs) hv (hinv.indices hv).2 hf,
      withHeld_received]
    exact runHandlerFor_isrAt_of_enough (by simp [IsrOp.left]; omega) hm

/-- The whole receive service (R146), by the bytes held. -/
theorem runHandlerFor_receiveAll (h : s.Receives) (hn : 9 * bs.length + 12 ≤ n) :
    runHandlerFor n ((s.withHeld bs).isrAt .h1Test) = runHandlerFor 11 ((s.withHeld bs).receiveAll.isrAt .h2Test) := by
  induction bs generalizing n s with
  | nil =>
    obtain ⟨k, rfl⟩ : ∃ k, n = k + 1 := ⟨n - 1, by omega⟩
    rw [runHandlerFor_isrAt (t := s.withHeld []) (op' := .h2Test) rfl]
    simp only [List.length_nil] at hn
    exact runHandlerFor_isrAt_of_enough (s := s.withHeld []) (by simp [IsrOp.left]; omega) (Nat.le_refl _)
  | cons b bs ih =>
    rw [List.length_cons] at hn
    rw [runHandlerFor_h1Test_of_cons h hn (Nat.le_refl _), receiveAll_of_cons]
    exact ih (receives_received h) (Nat.le_refl _)

end

/-! The overrun service (R147) and the transmit service (R148). -/

section
variable {n : Nat} {s : State}

theorem runHandlerFor_clearOverrun (hheld : s.uart.rxHw = []) :
    runHandlerFor 11 (s.isrAt .h2Test) = runHandlerFor 9 ((uartClearOverrun s).isrAt .h3Test) := by
  have enough : ∀ {m}, 9 ≤ m → runHandlerFor m ((uartClearOverrun s).isrAt .h3Test) =
      runHandlerFor 9 ((uartClearOverrun s).isrAt .h3Test) := fun hm =>
    runHandlerFor_isrAt_of_enough (by simp [hheld, IsrOp.left]; omega) (by simp [hheld, IsrOp.left])
  cases ho : s.uart.overrun with
  | true =>
    rw [runHandlerFor_isrAt (t := s) (op' := .h2Clear) (by simp [isrMicro, ho]),
      runHandlerFor_isrAt (t := uartClearOverrun s) (op' := .h3Test) rfl]
  | false =>
    have hsame : uartClearOverrun s = s := by simp [uartClearOverrun, ← ho]
    rw [runHandlerFor_isrAt (t := s) (op' := .h3Test) (by simp [isrMicro, ho]), ← enough (m := 10) (by decide), hsame]

/-- The return. -/
theorem runHandlerFor_h4 : runHandlerFor (n + 1) (s.isrAt .h4) = .next (leaveHandler s) := runHandlerFor_last rfl rfl

theorem runHandlerFor_transmitOne (hinv : s.tx.Inv s.cfg) (hv : s.tx.valid = true) :
    runHandlerFor 9 (s.isrAt .h3Test) = .next (leaveHandler s.transmitOne) := by
  unfold State.transmitOne
  cases hreq : s.txArmed && s.txEmpty with
  | false =>
    have h3 : isrMicro .h3Test (s.isrAt .h3Test) = .next (s.isrAt .h4) :=
      congrArg (fun c => Host.Outcome.next (s.isrAt (if c = true then .h3Dequeue .q1 else .h4))) hreq
    rw [runHandlerFor_isrAt h3, runHandlerFor_h4]
    rfl
  | true =>
    have h3 : isrMicro .h3Test (s.isrAt .h3Test) = .next (s.isrAt (.h3Dequeue .q1)) :=
      congrArg (fun c => Host.Outcome.next (s.isrAt (if c = true then .h3Dequeue .q1 else .h4))) hreq
    rw [runHandlerFor_isrAt h3]
    cases he : s.tx.empty with
    | true =>
      calc runHandlerFor 8 (s.isrAt (.h3Dequeue .q1))
        _ = runHandlerFor 6 (s.isrAt (.h3Dequeue (.q3 s.tx.rd s.tx.wr))) :=
          run_dequeue_snapshots (sel := .tx) (at' := fun s st => s.isrAt (.h3Dequeue st))
            (fun _ _ _ _ _ => runHandlerFor_h3Dequeue_more) hv 6
        _ = runHandlerFor 5 (s.isrAt (.h3Result none)) := runHandlerFor_isrAt (isrGoesOn_eq_next.2 (.inr ⟨_, _,
          dequeueStep_q3_of_empty (s := s.isrAt (.h3Dequeue (.q3 s.tx.rd s.tx.wr))) (sel := .tx) he, rfl⟩))
        _ = runHandlerFor 4 (State.isrAt { s with txArmed := false } .h4) := runHandlerFor_isrAt rfl
        _ = _ := runHandlerFor_h4
    | false =>
      obtain ⟨b, hb⟩ := hinv.oldest hv he
      obtain ⟨-, hfree⟩ := Bool.and_eq_true_iff.1 hreq
      have hfree' : s.uart.tdr = none := Option.isNone_iff_eq_none.1 hfree
      calc runHandlerFor 8 (s.isrAt (.h3Dequeue .q1))
        _ = runHandlerFor 3 (State.isrAt { s with tx := s.tx.dequeued } (.h3Dequeue (.q6 b))) :=
          run_dequeue_of_byte (at' := fun s st => s.isrAt (.h3Dequeue st))
            (fun _ _ _ _ _ => runHandlerFor_h3Dequeue_more) (ring_tx s) hv (hinv.indices hv).1 he hb 3
        _ = runHandlerFor 2 (State.isrAt { s with tx := s.tx.dequeued } (.h3Result (some b))) := runHandlerFor_isrAt rfl
        _ = runHandlerFor 1
              (State.isrAt { s with tx := s.tx.dequeued, uart := { s.uart with tdr := some b } } .h4) :=
          runHandlerFor_isrAt (andThen_eq_next.2 ⟨_, uartWriteTx_eq_next.2 ⟨hfree', rfl⟩, rfl⟩)
        _ = _ := by rw [runHandlerFor_h4, hb]; rfl

end

/-! What the receive service leaves alone. -/

section
variable {s : State}

/-- The receive service writes `RX`, the UART's held bytes and the count of lost bytes. -/
theorem receiveAll_frame :
    ∃ r n, s.receiveAll = { s with rx := r, uart := { s.uart with rxHw := [] }, wireInLost := n } := by
  have hfold : ∀ (bs : List Byte) (t : State),
      ∃ r n, bs.foldl State.received t = { t with rx := r, wireInLost := n } := by
    intro bs
    induction bs with
    | nil => exact fun t => ⟨t.rx, t.wireInLost, rfl⟩
    | cons b bs ih =>
      intro t
      obtain ⟨r, n, e⟩ := ih (t.received b)
      refine ⟨r, n, e.trans ?_⟩
      rw [State.received]
      split <;> rfl
  obtain ⟨r, n, e⟩ := hfold s.uart.rxHw (s.withHeld [])
  exact ⟨r, n, e⟩

theorem leaveHandler_transmitOne (hi : s.isrOp = none) : leaveHandler s.transmitOne = s.transmitOne := by
  have hself : ∀ t : State, t.isrOp = none → leaveHandler t = t := fun t ht => by rw [leaveHandler, ← ht]
  refine hself _ ?_
  unfold State.transmitOne
  split
  · split <;> exact hi
  · exact hi

end

/-- Settles O54: the rows of the three services, one after the other. -/
theorem handlerRunIsTheThreeServices : Obligations.HandlerRunIsTheThreeServices := by
  intro s hrx htx hvrx hvtx hen
  obtain ⟨-, -, -, hisr⟩ := handlerEnabled_iff.1 hen
  obtain ⟨r, k, hall⟩ := receiveAll_frame (s := s)
  refine exec_isr_eq_next.2 ⟨hen, ?_⟩
  calc runHandler (s.isrAt .h1Test)
    _ = runHandlerFor (9 * s.uart.rxHw.length + 16) ((s.withHeld s.uart.rxHw).isrAt .h1Test) := rfl
    _ = runHandlerFor 11 (s.receiveAll.isrAt .h2Test) := runHandlerFor_receiveAll ⟨hrx, hvrx⟩ (by omega)
    _ = runHandlerFor 9 ((uartClearOverrun s.receiveAll).isrAt .h3Test) := runHandlerFor_clearOverrun (by rw [hall])
    _ = .next (leaveHandler s.handled) :=
      runHandlerFor_transmitOne (by rw [hall]; exact htx) (by rw [hall]; exact hvtx)
    _ = .next s.handled := congrArg _ (leaveHandler_transmitOne (by rw [hall]; exact hisr))

/-! A spinning `TP.WRITE` (R104). -/

/-- What a handler run makes of an armed `TX` that is not empty, with the transmit register free. -/
theorem handled_of_drains {s : State} (ha : s.txArmed = true) (hfree : s.uart.tdr = none) (he : s.tx.empty = false) :
    s.handled.tx = s.tx.dequeued ∧ s.handled.mainOp = s.mainOp ∧ s.handled.txArmed = true := by
  obtain ⟨r, n, hall⟩ := receiveAll_frame (s := s)
  simp [State.handled, hall, State.transmitOne, uartClearOverrun, State.txEmpty, ha, hfree, he]

/-- A ring from which a byte is taken is not full. -/
theorem Ring.dequeued_full {r : Ring} (hr : r.rd < r.cap) (hw : r.wr < r.cap) (he : r.empty = false) :
    r.dequeued.full = false := by
  have hlen := congrArg List.length (Ring.contents_dequeued hr hw he)
  rw [List.length_cons, Ring.contents_length] at hlen
  have hlt := Ring.count_lt hr hw
  rw [Ring.full_false_iff_length (r := r.dequeued) (incMod_lt hr) hw, dequeued_cap]
  omega

/-- Settles O49: the handler's run makes room, and the write that has been spinning goes through. -/
theorem spinningWriteReturnsAfterOneDrain : Obligations.SpinningWriteReturnsAfterOneDrain := by
  intro s b hs hop hisr hfull ha hfree hmask
  obtain ⟨hini, -⟩ := hs.main _ hop
  have hv := hs.block.valid hini .tx
  obtain ⟨hrd, hwr⟩ := hs.tx.indices hv
  have he : s.tx.empty = false := by
    have hcap := (hs.tx.capacity hv).1
    have hcount := (Ring.full_iff hrd hwr).1 hfull
    rw [Ring.empty_eq_false_iff hrd hwr]
    omega
  have hen : s.handlerEnabled = true := handlerEnabled_iff.2 ⟨hini, .inr (.inr (irqTx_iff.2 ⟨ha, hfree⟩)), hmask, hisr⟩
  obtain ⟨htx, hmain, -⟩ := handled_of_drains ha hfree he
  have hat : s.handled.mainAt (.tpWrite b (.w1 .e1)) = s.handled := by
    rw [State.mainAt, ← hop, ← hmain]
  have hrun : runMain s.handled =
      .next (State.mainReturn { s.handled with tx := s.handled.tx.enqueued s.handled.cfg.hasStats b, txArmed := true }
        unitResult) := by
    rw [← hat]
    exact runMain_tpWrite_of_room (s := s.handled) (by rw [htx]; exact hv) (by rw [htx]; exact hwr)
      (by rw [htx]; exact Ring.dequeued_full hrd hwr he)
  refine ⟨_, _, handlerRunIsTheThreeServices s hs.rx hs.tx (hs.block.valid hini .rx) hv hen, hrun, rfl, rfl, ?_⟩
  have hcon : (s.tx.dequeued.enqueued s.handled.cfg.hasStats b).contents = s.tx.dequeued.contents ++ [some b] :=
    Ring.contents_enqueued _ (incMod_lt hrd) hwr (Ring.dequeued_full hrd hwr he)
  rw [Ring.contents_dequeued hrd hwr he, List.tail_cons, ← hcon, mainReturn_tx, htx]

end Sys2Proof.Machine
end

/-! Which words write an array or raise a counter (R16, R42, R48, R146). -/

section
namespace Sys2Proof.Machine

/-! The counter (R16). -/

/-- The operations that restart a counter. -/
def MainOp.restarts : MainOp → Bool
  | .rbInit _ _ => true
  | .rbResetStats _ _ => true
  | .tpInit _ _ => true
  | _ => false

/-- The operations that store into an array. -/
def MainOp.stores : MainOp → Bool
  | .rbEnqueue _ _ _ => true
  | .tpWrite _ _ => true
  | _ => false

@[simp] theorem restarts_first (op : MainOp) : op.first.restarts = op.restarts := by cases op <;> rfl
@[simp] theorem stores_first (op : MainOp) : op.first.stores = op.stores := by cases op <;> rfl

section
variable {s s' t : State} {op : MainOp} {i : Instr}

/-- One ring is written, its counter not raised. -/
theorem minFree_setRing_le {sel : RingSel} {r : Ring} (h : r.minFree ≤ (s.ring sel).minFree) (sel' : RingSel) :
    ((s.setRing sel r).ring sel').minFree ≤ (s.ring sel').minFree := by
  by_cases hsel : sel' = sel
  · subst hsel; simpa using h
  · rw [ring_setRing_other s r hsel]

theorem MainEffect.minFree_le (h : MainEffect s op s') (hop : op.restarts = false) (sel : RingSel) :
    (s'.ring sel).minFree ≤ (s.ring sel).minFree := by
  cases h with
  | created | restarted | broughtUp | divided | enabled => cases hop
  | enqueued h => obtain ⟨r', rfl, hr⟩ := enqueueStep_frame h; exact minFree_setRing_le hr.minFree sel
  | written h => obtain ⟨r', rfl, hr⟩ := enqueueStep_frame h; exact minFree_setRing_le hr.minFree sel
  | dequeued h => obtain ⟨d, rfl⟩ := dequeueStep_frame h; refine minFree_setRing_le ?_ sel; exact Nat.le_refl _
  | read h => obtain ⟨d, rfl⟩ := dequeueStep_frame h; refine minFree_setRing_le ?_ sel; exact Nat.le_refl _
  | nothing | armed | masked | unmasked => cases sel <;> exact Nat.le_refl _

theorem isrStep_minFree_le (h : isrStep s = .next t) (sel : RingSel) :
    (t.ring sel).minFree ≤ (s.ring sel).minFree := by
  have hf := isrStep_frame h
  cases sel with
  | rx => exact hf.rx.minFree
  | tx =>
    obtain ⟨d, htx⟩ := hf.tx
    rw [ring_tx, htx]
    exact Nat.le_refl _

theorem exec_main_minFree_le (hop : firstOp i = some op) (hr : op.restarts = false) (h : exec i s = .next t)
    (sel : RingSel) : (t.ring sel).minFree ≤ (s.ring sel).minFree := by
  refine exec_main_induct (P := fun u => (u.ring sel).minFree ≤ (s.ring sel).minFree) hop h (by simp) ?_
  intro u v op' hle _ _ hfirst hm
  obtain ⟨u', he, hmoved⟩ := mainMicro_cases hm
  rw [hmoved.ring]
  exact (he.minFree_le (by rw [← restarts_first, hfirst, hr]) sel).trans hle

/-- DEV does not touch the rings. -/
theorem uartReceive_ring {b : Byte} (h : uartReceive b s = .next t) (sel : RingSel) : t.ring sel = s.ring sel := by
  obtain ⟨-, ⟨-, rfl⟩ | ⟨-, rfl⟩⟩ := uartReceive_eq_next.1 h <;> cases sel <;> rfl

theorem uartShift_ring (h : uartShift s = .next t) (sel : RingSel) : t.ring sel = s.ring sel := by
  obtain ⟨-, b, -, rfl⟩ := uartShift_eq_next.1 h
  cases sel <;> rfl

end

/-- Settles O40: beside the three operations named only `E6` writes a counter, and it lowers it. -/
theorem counterOnlyDecreases : Obligations.CounterOnlyDecreases := by
  intro s t i sel h hi
  cases i with
  | rbInit | rbResetStats | tpInit => exact hi.elim
  | isr =>
    obtain ⟨-, hrun⟩ := exec_isr_eq_next.1 h
    exact runHandlerFor_induct (P := fun u => (u.ring sel).minFree ≤ (s.ring sel).minFree)
      (fun u v hle hm => (isrStep_minFree_le hm sel).trans hle) (by simp) hrun
  | devRxArrive b => rw [uartReceive_ring h]
  | devTxShift => rw [uartShift_ring h]
  | _ => exact exec_main_minFree_le rfl rfl h sel

/-! The arrays: the operations of MAIN (R42). -/

section
variable {s s' t : State} {op : MainOp} {i : Instr} {sel : RingSel} {b : Byte}

theorem buf_setRing {r : Ring} (h : r.buf = (s.ring sel).buf) (sel' : RingSel) :
    ((s.setRing sel r).ring sel').buf = (s.ring sel').buf := by
  by_cases hsel : sel' = sel
  · subst hsel; simpa using h
  · rw [ring_setRing_other s r hsel]

theorem MainEffect.buf (h : MainEffect s op s') (hop : op.stores = false) (sel : RingSel) :
    (s'.ring sel).buf = (s.ring sel).buf := by
  cases h with
  | enqueued | written | armed => cases hop
  | dequeued h => obtain ⟨d, rfl⟩ := dequeueStep_frame h; refine buf_setRing ?_ sel; rfl
  | read h => obtain ⟨d, rfl⟩ := dequeueStep_frame h; refine buf_setRing ?_ sel; rfl
  | created | restarted => refine buf_setRing ?_ sel; rfl
  | nothing | broughtUp | divided | enabled | masked | unmasked => cases sel <;> rfl

theorem exec_main_buf (hop : firstOp i = some op) (hst : op.stores = false) (h : exec i s = .next t)
    (sel : RingSel) : (t.ring sel).buf = (s.ring sel).buf := by
  refine exec_main_induct (P := fun u => (u.ring sel).buf = (s.ring sel).buf) hop h (by simp) ?_
  intro u v op' hbuf _ _ hfirst hm
  obtain ⟨u', he, hmoved⟩ := mainMicro_cases hm
  rw [hmoved.ring]
  exact (he.buf (by rw [← stores_first, hfirst, hst]) sel).trans hbuf

/-- A ring after an enqueue reads as before but at its write index. -/
theorem memGet_enqueued (stats : Bool) (r : Ring) {slot : Nat} :
    slot = r.wr ∨ memGet (r.enqueued stats b).buf slot = memGet r.buf slot := by
  by_cases hslot : slot = r.wr
  · exact .inl hslot
  · exact .inr (memGet_memPut_other _ _ hslot)

/-- Of the rings one is enqueued to. -/
theorem slots_setRing_enqueued (stats : Bool) (sel' : RingSel) (slot : Nat) :
    (sel' = sel ∧ slot = (s.ring sel).wr) ∨
      memGet ((s.setRing sel ((s.ring sel).enqueued stats b)).ring sel').buf slot = memGet (s.ring sel').buf slot := by
  by_cases hsel : sel' = sel
  · subst hsel
    rw [ring_setRing_same]
    exact (memGet_enqueued stats _).imp (fun e => ⟨rfl, e⟩) id
  · exact .inr (by rw [ring_setRing_other s _ hsel])

/-- `RB.ENQUEUE` run whole finds the ring full, or stores at the write index: a write index outside the array faults. -/
theorem exec_rbEnqueue_slots (h : exec (.rbEnqueue sel b) s = .next t) (sel' : RingSel) (slot : Nat) :
    (sel' = sel ∧ slot = (s.ring sel).wr) ∨ memGet (t.ring sel').buf slot = memGet (s.ring sel').buf slot := by
  obtain ⟨-, -, hstart, hrun⟩ := exec_of_firstOp (i := .rbEnqueue sel b) rfl h
  obtain ⟨-, hissue⟩ := whileUnowned_eq_next.1 hstart
  obtain ⟨hv, -⟩ := withValid_eq_next.1 hissue
  cases hf : (s.ring sel).full with
  | true =>
    rw [runMain_rbEnqueue_of_full hv hf] at hrun
    cases hrun
    exact .inr (by rw [mainReturn_ring])
  | false =>
    by_cases hw : (s.ring sel).wr < (s.ring sel).cap
    · rw [runMain_rbEnqueue_of_room b rfl hv hw hf] at hrun
      cases hrun
      rw [mainReturn_ring]
      exact slots_setRing_enqueued _ sel' slot
    · rw [runMain_rbEnqueue_of_outside hv hf hw] at hrun
      cases hrun

/-- `TP.WRITE` on a ring never created is refused at `E1`. -/
theorem runMain_tpWrite_of_invalid (hv : s.tx.valid = false) :
    runMain (s.mainAt (.tpWrite b (.w1 .e1))) = .refused (.ringNotValid .tx) := by
  simp [runMain, runMainFor, mainStep, mainMicro, microTpWrite, mainGoesOn, enqueueStep, withValid, hv]

theorem exec_tpWrite_slots (h : exec (.tpWrite b) s = .next t) (sel' : RingSel) (slot : Nat) :
    (sel' = .tx ∧ slot = s.tx.wr) ∨ memGet (t.ring sel').buf slot = memGet (s.ring sel').buf slot := by
  obtain ⟨-, -, -, hrun⟩ := exec_of_firstOp (i := .tpWrite b) rfl h
  cases hv : s.tx.valid with
  | false =>
    rw [runMain_tpWrite_of_invalid hv] at hrun
    cases hrun
  | true =>
    cases hf : s.tx.full with
    | true =>
      rw [runMain_tpWrite_of_full hv hf] at hrun
      cases hrun
      exact .inr (by rw [mainAt_ring])
    | false =>
      by_cases hw : s.tx.wr < s.tx.cap
      · rw [runMain_tpWrite_of_room hv hw hf] at hrun
        cases hrun
        have hslots := slots_setRing_enqueued (s := s) (sel := .tx) (b := b) s.cfg.hasStats sel' slot
        cases sel' <;> exact hslots
      · rw [runMain_tpWrite_of_outside hv hf hw] at hrun
        cases hrun

end

/-! The arrays: the handler (R146). -/

/-- The own index among the locals of an enqueue that has not yet published it. -/
def EnqStep.own : EnqStep → Option Nat
  | .e2 w => some w
  | .e3 w _ => some w
  | .e4 w _ => some w
  | .e5 w _ => some w
  | _ => none

/-- What holds between the micro-steps of a handler run that began in `s`: `RX` is written in the slots that follow the
write index, a slot for each byte the UART held. -/
structure State.ReceivesInto (s u : State) : Prop where
  tx : u.tx.buf = s.tx.buf
  cap : u.rx.cap = s.rx.cap
  /-- the write index stands behind the bytes stored, and those still to come fit behind it -/
  next : ∃ k, u.rx.wr % s.rx.cap = (s.rx.wr + k) % s.rx.cap ∧
    k + u.incomingInHand.length + u.uart.rxHw.length ≤ s.uart.rxHw.length
  own : ∀ b st w, u.isrOp = some (.h1Enqueue b st) → st.own = some w → w = u.rx.wr
  slots : ∀ slot, (∃ k < s.uart.rxHw.length, slot = (s.rx.wr + k) % s.rx.cap) ∨
    memGet u.rx.buf slot = memGet s.rx.buf slot

theorem incomingInHand_of_not_enqueue {u : State} (h : ∀ b st, u.isrOp ≠ some (.h1Enqueue b st)) :
    u.incomingInHand = [] := by
  cases hop : u.isrOp with
  | none => exact incomingInHand_of_none hop
  | some op =>
    rw [incomingInHand_of_isrOp hop]
    cases op with
    | h1Enqueue b st => exact absurd hop (h b st)
    | _ => rfl

namespace State.ReceivesInto
variable {s u v : State}

/-- A micro-step that leaves `RX` and the held bytes alone and does not stand inside the enqueue. -/
theorem of_quiet (h : s.ReceivesInto u) (hrx : v.rx = u.rx) (htx : v.tx.buf = u.tx.buf)
    (hheld : v.uart.rxHw = u.uart.rxHw) (hop : ∀ b st, v.isrOp ≠ some (.h1Enqueue b st)) : s.ReceivesInto v := by
  obtain ⟨tx, cap, ⟨k, hwr, hk⟩, -, slots⟩ := h
  refine ⟨htx.trans tx, by rw [hrx]; exact cap, ⟨k, by rw [hrx]; exact hwr, ?_⟩,
    fun b st _ he => absurd he (hop b st), by rw [hrx]; exact slots⟩
  rw [incomingInHand_of_not_enqueue hop, hheld, List.length_nil]
  omega

/-- A micro-step of the enqueue that leaves `RX`'s array and write index alone. -/
theorem enqueue_quiet {b : Byte} {st st' : EnqStep} {r : Ring} (h : s.ReceivesInto u)
    (hop : u.isrOp = some (.h1Enqueue b st))
    (hin : IsrOp.incoming (.h1Enqueue b st') = IsrOp.incoming (.h1Enqueue b st))
    (hown : ∀ w, st'.own = some w → w = u.rx.wr) (hcap : r.cap = u.rx.cap) (hwr : r.wr = u.rx.wr)
    (hbuf : r.buf = u.rx.buf) : s.ReceivesInto (State.isrAt { u with rx := r } (.h1Enqueue b st')) := by
  obtain ⟨tx, cap, ⟨k, hk, hle⟩, -, slots⟩ := h
  refine ⟨tx, hcap.trans cap, ⟨k, by rw [← hk, ← hwr]; rfl, ?_⟩, ?_, fun slot => ?_⟩
  · rw [incomingInHand_of_isrOp (isrAt_isrOp _ _), hin, ← incomingInHand_of_isrOp hop]
    exact hle
  · rintro _ _ w ⟨⟩ hw
    exact (hown w hw).trans hwr.symm
  · rw [isrAt_rx, hbuf]
    exact slots slot

/-- The slot write `E4` goes to the write index. -/
theorem enqueue_put {b : Byte} {w ds : Nat} (h : s.ReceivesInto u) (hop : u.isrOp = some (.h1Enqueue b (.e4 w ds)))
    (hw : w < u.rx.cap) :
    s.ReceivesInto
      (State.isrAt { u with rx := { u.rx with buf := memPut u.rx.buf w b } } (.h1Enqueue b (.e5 w ds))) := by
  have hwr := h.own b _ w hop rfl
  obtain ⟨tx, cap, ⟨k, hk, hle⟩, -, slots⟩ := h
  rw [incomingInHand_of_isrOp hop] at hle
  refine ⟨tx, cap, ⟨k, hk, ?_⟩, ?_, fun slot => ?_⟩
  · rw [incomingInHand_of_isrOp (isrAt_isrOp _ _)]
    exact hle
  · rintro _ _ w' ⟨⟩ ⟨⟩
    exact hwr
  · by_cases hslot : slot = w
    · refine .inl ⟨k, ?_, ?_⟩
      · simp only [IsrOp.incoming, List.length_singleton] at hle
        omega
      · rw [hslot, ← hk, ← hwr, Nat.mod_eq_of_lt (cap ▸ hw)]
    · refine (slots slot).imp id fun e => ?_
      exact (memGet_memPut_other _ _ hslot).trans e

/-- The index write `E5` publishes the slot. -/
theorem enqueue_publish {b : Byte} {w ds : Nat} (h : s.ReceivesInto u)
    (hop : u.isrOp = some (.h1Enqueue b (.e5 w ds))) :
    s.ReceivesInto (State.isrAt { u with rx := { u.rx with wr := incMod w u.rx.cap } } (.h1Enqueue b (.e6 w ds))) := by
  have hwr := h.own b _ w hop rfl
  obtain ⟨tx, cap, ⟨k, hk, hle⟩, -, slots⟩ := h
  rw [incomingInHand_of_isrOp hop] at hle
  refine ⟨tx, cap, ⟨k + 1, ?_, ?_⟩, ?_, slots⟩
  · calc incMod w u.rx.cap % s.rx.cap
      _ = (u.rx.wr + 1) % s.rx.cap := by rw [incMod, cap, hwr, Nat.mod_mod]
      _ = (u.rx.wr % s.rx.cap + 1) % s.rx.cap := by rw [Nat.mod_add_mod]
      _ = (s.rx.wr + (k + 1)) % s.rx.cap := by rw [hk, Nat.mod_add_mod, Nat.add_assoc]
  · rw [incomingInHand_of_isrOp (isrAt_isrOp _ _)]
    simp only [IsrOp.incoming, List.length_singleton] at hle
    simp only [IsrOp.incoming, List.length_nil, isrAt_uart]
    omega
  · rintro _ _ w' ⟨⟩ ⟨⟩

theorem h1Enqueue {b : Byte} {st : EnqStep} (h : s.ReceivesInto u) (hop : u.isrOp = some (.h1Enqueue b st))
    (hm : isrMicro (.h1Enqueue b st) u = .next v) : s.ReceivesInto v := by
  obtain ⟨a, st', ha, rfl⟩ | ⟨a, ok, ha, e⟩ := isrGoesOn_eq_next.1 hm
  · rcases enqueueStep_cases ha with ⟨rfl, -, rfl, e⟩ | ⟨w, rfl, rfl, e⟩ | ⟨w, ds, rfl, -, -, e⟩ |
      ⟨w, ds, rfl, -, rfl, e⟩ | ⟨w, ds, rfl, -, hw, rfl, e⟩ | ⟨w, ds, rfl, rfl, e⟩ | ⟨w, ds, rfl, rfl, e⟩ |
      ⟨rfl, -, e⟩
    · cases e
      exact h.enqueue_quiet hop rfl (by rintro w ⟨⟩; rfl) rfl rfl rfl
    · cases e
      exact h.enqueue_quiet hop rfl (fun w' => h.own b (.e2 w) w' hop) rfl rfl rfl
    · cases e
    · cases e
      exact h.enqueue_quiet hop rfl (fun w' => h.own b (.e3 w ds) w' hop) rfl rfl rfl
    · cases e
      exact h.enqueue_put hop hw
    · cases e
      exact h.enqueue_publish hop
    · cases e
      rw [sampleMinFree_eq_setRing]
      exact h.enqueue_quiet hop rfl nofun rfl rfl rfl
    · cases e
  · cases e
    have hquiet : s.ReceivesInto (a.isrAt .h1Test) := by
      rcases enqueueStep_cases ha with ⟨-, -, -, e⟩ | ⟨w, -, -, e⟩ | ⟨w, ds, -, -, rfl, -⟩ | ⟨w, ds, -, -, -, e⟩ |
        ⟨w, ds, -, -, -, -, e⟩ | ⟨w, ds, -, -, e⟩ | ⟨w, ds, -, -, e⟩ | ⟨-, rfl, -⟩
      case inr.inr.inl | inr.inr.inr.inr.inr.inr.inr => exact h.of_quiet rfl rfl rfl nofun
      all_goals cases e
    cases ok
    · exact hquiet.of_quiet rfl rfl rfl nofun
    · exact hquiet

theorem isrMicro {op : IsrOp} (h : s.ReceivesInto u) (hop : u.isrOp = some op) (hm : isrMicro op u = .next v) :
    s.ReceivesInto v := by
  cases op with
  | h1Enqueue b st => exact h.h1Enqueue hop hm
  | h1Read =>
    obtain ⟨⟨a, b⟩, ha, e⟩ := andThen_eq_next.1 hm
    obtain ⟨rest, hrest, rfl⟩ := uartReadRx_eq_next.1 ha
    cases e
    obtain ⟨tx, cap, ⟨k, hwr, hk⟩, -, slots⟩ := h
    refine ⟨tx, cap, ⟨k, hwr, ?_⟩, ?_, slots⟩
    · rw [incomingInHand_of_isrOp (isrAt_isrOp _ _)]
      simp only [hrest, List.length_cons] at hk
      simp only [IsrOp.incoming, List.length_singleton, isrAt_uart]
      omega
    · rintro _ _ w ⟨⟩ ⟨⟩
  | h1Test | h2Test | h3Test =>
    cases hm
    refine h.of_quiet rfl rfl rfl fun b st => ?_
    rw [isrAt_isrOp]
    split <;> nofun
  | h2Clear | h4 => cases hm; exact h.of_quiet rfl rfl rfl nofun
  | h3Dequeue st =>
    obtain ⟨a, st', ha, rfl⟩ | ⟨a, v, ha, e⟩ := isrGoesOn_eq_next.1 hm
    · obtain ⟨d, rfl⟩ := dequeueStep_frame ha
      exact h.of_quiet rfl rfl rfl nofun
    · obtain ⟨d, rfl⟩ := dequeueStep_frame ha
      cases e
      exact h.of_quiet rfl rfl rfl nofun
  | h3Result v =>
    cases v with
    | none => cases hm; exact h.of_quiet rfl rfl rfl nofun
    | some b =>
      obtain ⟨a, ha, e⟩ := andThen_eq_next.1 hm
      obtain ⟨-, rfl⟩ := uartWriteTx_eq_next.1 ha
      cases e
      exact h.of_quiet rfl rfl rfl nofun

end State.ReceivesInto

/-- A whole handler run. -/
theorem exec_isr_receivesInto {s t : State} (h : exec .isr s = .next t) : s.ReceivesInto t := by
  obtain ⟨-, hrun⟩ := exec_isr_eq_next.1 h
  refine runHandlerFor_induct (P := s.ReceivesInto) (s := s.isrAt .h1Test) ?_ ?_ hrun
  · intro u v hu hm
    obtain ⟨-, rfl⟩ | ⟨op, hop, hm⟩ := isrStep_cases hm
    · exact hu
    · exact hu.isrMicro hop hm
  · refine ⟨rfl, rfl, ⟨0, rfl, ?_⟩, nofun, fun slot => .inr rfl⟩
    rw [incomingInHand_of_isrOp (isrAt_isrOp s _)]
    simp [IsrOp.incoming]

/-- Settles O39: only `E4` writes a slot, that of the write index. -/
theorem onlyEnqueueStores : Obligations.OnlyEnqueueStores := by
  intro s t i h sel slot
  cases i with
  | rbEnqueue sel' b => exact exec_rbEnqueue_slots h sel slot
  | tpWrite b => exact exec_tpWrite_slots h sel slot
  | isr =>
    have hrec := exec_isr_receivesInto h
    cases sel with
    | rx => exact (hrec.slots slot).imp (fun hk => ⟨rfl, hk⟩) id
    | tx => exact .inr (by rw [ring_tx, ring_tx, hrec.tx])
  | devRxArrive b => exact .inr (by rw [uartReceive_ring h])
  | devTxShift => exact .inr (by rw [uartShift_ring h])
  | _ => exact .inr (by rw [exec_main_buf rfl rfl h])

end Sys2Proof.Machine
end

/-! The encoding (spec/30_encoding.md R61 to R67, decision D2). -/

section
namespace Sys2Proof

/-! A word is its four fields, and its six bytes (R61, R67). -/

theorem append_inj {m n : Nat} {x x' : BitVec m} {y y' : BitVec n} (h : x ++ y = x' ++ y') : x = x' ∧ y = y' := by
  have hl := congrArg (BitVec.extractLsb' n m) h
  have hr := congrArg (BitVec.extractLsb' 0 n) h
  rw [BitVec.extractLsb'_append_eq_left, BitVec.extractLsb'_append_eq_left] at hl
  rw [BitVec.extractLsb'_append_eq_right, BitVec.extractLsb'_append_eq_right] at hr
  exact ⟨hl, hr⟩

theorem append_extractLsb' {n : Nat} (w : BitVec n) (start lo hi : Nat) :
    w.extractLsb' (start + lo) hi ++ w.extractLsb' start lo = w.extractLsb' start (hi + lo) :=
  BitVec.extractLsb'_append_extractLsb'_eq_extractLsb' rfl

theorem toCommand_ofCommand (w : Command) : (Fields.ofCommand w).toCommand = w :=
  calc (Fields.ofCommand w).toCommand
    _ = w.extractLsb' 40 8 ++ w.extractLsb' 32 8 ++ w.extractLsb' 0 32 :=
      congrArg (· ++ w.extractLsb' 32 8 ++ w.extractLsb' 0 32) (append_extractLsb' w 40 4 4)
    _ = w.extractLsb' 32 16 ++ w.extractLsb' 0 32 := congrArg (· ++ w.extractLsb' 0 32) (append_extractLsb' w 32 8 8)
    _ = w.extractLsb' 0 48 := append_extractLsb' w 0 32 16
    _ = w := BitVec.extractLsb'_eq_self

theorem toCommand_inj {f g : Fields} (h : f.toCommand = g.toCommand) : f = g := by
  obtain ⟨h, harg⟩ := append_inj h
  obtain ⟨h, hsel⟩ := append_inj h
  obtain ⟨hgrp, hfn⟩ := append_inj h
  cases f
  cases g
  simp_all

@[simp] theorem ofCommand_toCommand (f : Fields) : Fields.ofCommand f.toCommand = f :=
  toCommand_inj (toCommand_ofCommand _)

theorem takeCommand_commandBytes (w : Command) (rest : List Byte) :
    takeCommand (commandBytes w ++ rest) = some (w, rest) := by
  have hw := calc
    w.extractLsb' 40 8 ++ w.extractLsb' 32 8 ++ w.extractLsb' 24 8 ++ w.extractLsb' 16 8 ++ w.extractLsb' 8 8 ++
        w.extractLsb' 0 8
      = w.extractLsb' 32 16 ++ w.extractLsb' 24 8 ++ w.extractLsb' 16 8 ++ w.extractLsb' 8 8 ++ w.extractLsb' 0 8 :=
      congrArg (· ++ w.extractLsb' 24 8 ++ w.extractLsb' 16 8 ++ w.extractLsb' 8 8 ++ w.extractLsb' 0 8)
        (append_extractLsb' w 32 8 8)
    _ = w.extractLsb' 24 24 ++ w.extractLsb' 16 8 ++ w.extractLsb' 8 8 ++ w.extractLsb' 0 8 :=
      congrArg (· ++ w.extractLsb' 16 8 ++ w.extractLsb' 8 8 ++ w.extractLsb' 0 8) (append_extractLsb' w 24 8 16)
    _ = w.extractLsb' 16 32 ++ w.extractLsb' 8 8 ++ w.extractLsb' 0 8 :=
      congrArg (· ++ w.extractLsb' 8 8 ++ w.extractLsb' 0 8) (append_extractLsb' w 16 8 24)
    _ = w.extractLsb' 8 40 ++ w.extractLsb' 0 8 := congrArg (· ++ w.extractLsb' 0 8) (append_extractLsb' w 8 8 32)
    _ = w.extractLsb' 0 48 := append_extractLsb' w 0 8 40
    _ = w := BitVec.extractLsb'_eq_self
  exact congrArg (fun v => some (v, rest)) hw

/-! What each check of the decoder accepts. -/

section
variable {f : Fields} {i : Instr}

theorem decodeSel_eq_ok {k : RingSel → Except Reserved Instr} :
    decodeSel f k = .ok i ↔ ∃ r, f.sel = encodeSel r ∧ k r = .ok i := by
  have hne : encodeSel .tx ≠ 0#8 := by decide
  constructor
  · intro e
    unfold decodeSel at e
    split at e
    · next h => exact ⟨.rx, h, e⟩
    · split at e
      · next h => exact ⟨.tx, h, e⟩
      · cases e
  · rintro ⟨_ | _, hsel, e⟩
    · exact (if_pos hsel).trans e
    · exact (if_neg (hsel.trans_ne hne)).trans ((if_pos hsel).trans e)

theorem decodeNoSel_eq_ok {e : Except Reserved Instr} : decodeNoSel f e = .ok i ↔ f.sel = 0#8 ∧ e = .ok i := by
  unfold decodeNoSel
  split <;> simp [*]

theorem decodeNoArg_eq_ok {j : Instr} : decodeNoArg f j = .ok i ↔ f.arg = 0#32 ∧ j = i := by
  unfold decodeNoArg
  split <;> simp [*]

theorem arg_eq_append (a : Word) : a.extractLsb' 8 24 ++ a.extractLsb' 0 8 = a :=
  (append_extractLsb' a 0 8 24).trans BitVec.extractLsb'_eq_self

/-- An operand in `arg[7:0]` with the bits above it 0. -/
theorem arg_eq_encodeByte_iff {a : Word} {b : Byte} :
    a = encodeByte b ↔ a.extractLsb' 8 24 = 0#24 ∧ a.extractLsb' 0 8 = b := by
  constructor
  · intro h
    rw [← arg_eq_append a] at h
    exact append_inj h
  · rintro ⟨hhigh, hlow⟩
    rw [← arg_eq_append a, hhigh, hlow]
    rfl

theorem decodeByte_eq_ok {g : Byte → Instr} : decodeByte f g = .ok i ↔ ∃ b, f.arg = encodeByte b ∧ g b = i := by
  simp only [arg_eq_encodeByte_iff]
  unfold decodeByte
  split <;> simp [*]

theorem decodeStats_eq_ok {hasStats : Bool} {e : Except Reserved Instr} :
    decodeStats hasStats e = .ok i ↔ hasStats = true ∧ e = .ok i := by
  unfold decodeStats
  split <;> simp [*]

end

/-! What the decoder accepts: the encodings of the well-formed instructions, and no other word. -/

section
variable {hasStats : Bool} {f : Fields} {w : Command} {i : Instr}

/-- The encoder's fields are decoded, group by group (R65). -/
theorem decodeCommand_encodeCommand (h : i.wellFormed hasStats = true) :
    decodeCommand hasStats (encodeCommand i) = .ok i := by
  have byte : ∀ {g fn : BitVec 4} {s : BitVec 8} {b : Byte} {k : Byte → Instr},
      k b = i → decodeByte ⟨g, fn, s, encodeByte b⟩ k = .ok i := fun h => decodeByte_eq_ok.2 ⟨_, rfl, h⟩
  rw [encodeCommand, decodeCommand, ofCommand_toCommand]
  cases i with
  | rbInit r | rbIsFull r | rbIsEmpty r | rbDequeue r => cases r <;> rfl
  | rbEnqueue r b => cases r <;> exact byte rfl
  | rbFreeSlots r | rbResetStats r | rbMinFree r =>
    have hs : hasStats = true := by simpa [Instr.wellFormed, Instr.needsStats] using h
    subst hs
    cases r <;> rfl
  | tpWrite b | devRxArrive b => exact decodeNoSel_eq_ok.2 ⟨rfl, byte rfl⟩
  | tpInit | tpRead | irqMask | irqUnmask | isr | devTxShift => rfl

/-- The fields `f` are those of `i`, an operation of the implementation. -/
def IsEncoding (hasStats : Bool) (f : Fields) (i : Instr) : Prop := encodeFields i = f ∧ i.wellFormed hasStats = true

/-- A row of group `g` and function `fn`, by what its checks have found. -/
theorem isEncoding_of {g fn : Nat} {s : BitVec 8} {a : Word}
    (henc : encodeFields i = ⟨BitVec.ofNat 4 g, BitVec.ofNat 4 fn, s, a⟩) (hg : f.grp.toNat = g)
    (hfn : f.fn.toNat = fn) (hs : f.sel = s) (ha : f.arg = a) (hw : i.wellFormed hasStats = true) :
    IsEncoding hasStats f i := by
  subst hg hfn hs ha
  simp only [BitVec.ofNat_toNat, BitVec.setWidth_eq] at henc
  exact ⟨henc, hw⟩

theorem wellFormed_of_plain (h : i.needsStats = false) : i.wellFormed hasStats = true := by simp [Instr.wellFormed, h]

theorem isEncoding_of_decodeRing (hg : f.grp.toNat = 1) (h : decodeRing hasStats f = .ok i) :
    IsEncoding hasStats f i := by
  have noArg : ∀ {fn : Nat} {j : RingSel → Instr}, f.fn.toNat = fn →
      decodeSel f (fun r => decodeNoArg f (j r)) = .ok i →
      (∀ r, encodeFields (j r) = ⟨BitVec.ofNat 4 1, BitVec.ofNat 4 fn, encodeSel r, 0#32⟩) →
      (∀ r, (j r).wellFormed hasStats = true) → IsEncoding hasStats f i := by
    intro fn j hfn h henc hw
    obtain ⟨r, hs, e⟩ := decodeSel_eq_ok.1 h
    obtain ⟨ha, rfl⟩ := decodeNoArg_eq_ok.1 e
    exact isEncoding_of (henc r) hg hfn hs ha (hw r)
  have optional : ∀ {fn : Nat} {j : RingSel → Instr}, f.fn.toNat = fn →
      decodeStats hasStats (decodeSel f fun r => decodeNoArg f (j r)) = .ok i →
      (∀ r, encodeFields (j r) = ⟨BitVec.ofNat 4 1, BitVec.ofNat 4 fn, encodeSel r, 0#32⟩) →
      IsEncoding hasStats f i := by
    intro fn j hfn h henc
    obtain ⟨hstats, e⟩ := decodeStats_eq_ok.1 h
    exact noArg hfn e henc fun r => by simp [Instr.wellFormed, hstats]
  unfold decodeRing at h
  split at h
  case h_1 hfn =>
    obtain ⟨r, hs, e⟩ := decodeSel_eq_ok.1 h
    cases e
    exact isEncoding_of rfl hg hfn hs rfl (wellFormed_of_plain rfl)
  case h_4 hfn =>
    obtain ⟨r, hs, e⟩ := decodeSel_eq_ok.1 h
    obtain ⟨b, ha, rfl⟩ := decodeByte_eq_ok.1 e
    exact isEncoding_of rfl hg hfn hs ha (wellFormed_of_plain rfl)
  case h_2 hfn => exact noArg hfn h (fun _ => rfl) fun _ => wellFormed_of_plain rfl
  case h_3 hfn => exact noArg hfn h (fun _ => rfl) fun _ => wellFormed_of_plain rfl
  case h_5 hfn => exact noArg hfn h (fun _ => rfl) fun _ => wellFormed_of_plain rfl
  case h_6 hfn => exact optional hfn h fun _ => rfl
  case h_7 hfn => exact optional hfn h fun _ => rfl
  case h_8 hfn => exact optional hfn h fun _ => rfl
  case h_9 => cases h

/-- A row outside group `RB` without an operand. -/
theorem isEncoding_of_noArg {g fn : Nat} {j : Instr} (hg : f.grp.toNat = g) (hfn : f.fn.toNat = fn)
    (h : decodeNoSel f (decodeNoArg f j) = .ok i)
    (henc : encodeFields j = ⟨BitVec.ofNat 4 g, BitVec.ofNat 4 fn, 0#8, 0#32⟩) (hw : j.needsStats = false) :
    IsEncoding hasStats f i := by
  obtain ⟨hs, e⟩ := decodeNoSel_eq_ok.1 h
  obtain ⟨ha, rfl⟩ := decodeNoArg_eq_ok.1 e
  exact isEncoding_of henc hg hfn hs ha (wellFormed_of_plain hw)

/-- A row outside group `RB` with a byte operand. -/
theorem isEncoding_of_byte {g fn : Nat} {j : Byte → Instr} (hg : f.grp.toNat = g) (hfn : f.fn.toNat = fn)
    (h : decodeNoSel f (decodeByte f j) = .ok i)
    (henc : ∀ b, encodeFields (j b) = ⟨BitVec.ofNat 4 g, BitVec.ofNat 4 fn, 0#8, encodeByte b⟩)
    (hw : ∀ b, (j b).needsStats = false) : IsEncoding hasStats f i := by
  obtain ⟨hs, e⟩ := decodeNoSel_eq_ok.1 h
  obtain ⟨b, ha, rfl⟩ := decodeByte_eq_ok.1 e
  exact isEncoding_of (henc b) hg hfn hs ha (wellFormed_of_plain (hw b))

theorem isEncoding_of_decodeTransport (hg : f.grp.toNat = 2) (h : decodeTransport f = .ok i) :
    IsEncoding hasStats f i := by
  unfold decodeTransport at h
  split at h
  case h_1 hfn =>
    obtain ⟨hs, e⟩ := decodeNoSel_eq_ok.1 h
    cases e
    exact isEncoding_of rfl hg hfn hs rfl (wellFormed_of_plain rfl)
  case h_2 hfn => exact isEncoding_of_byte hg hfn h (fun _ => rfl) fun _ => rfl
  case h_3 hfn => exact isEncoding_of_noArg hg hfn h rfl rfl
  case h_4 hfn => exact isEncoding_of_noArg hg hfn h rfl rfl
  case h_5 hfn => exact isEncoding_of_noArg hg hfn h rfl rfl
  case h_6 => cases h

theorem isEncoding_of_decodeHandler (hg : f.grp.toNat = 3) (h : decodeHandler f = .ok i) :
    IsEncoding hasStats f i := by
  unfold decodeHandler at h
  split at h
  · next hfn => exact isEncoding_of_noArg hg hfn h rfl rfl
  · cases h

theorem isEncoding_of_decodeDevice (hg : f.grp.toNat = 4) (h : decodeDevice f = .ok i) :
    IsEncoding hasStats f i := by
  unfold decodeDevice at h
  split at h
  · next hfn => exact isEncoding_of_byte hg hfn h (fun _ => rfl) fun _ => rfl
  · next hfn => exact isEncoding_of_noArg hg hfn h rfl rfl
  · cases h

/-- The decoder accepts the encodings of the well-formed instructions, and no other word. -/
theorem decodeCommand_eq_ok :
    decodeCommand hasStats w = .ok i ↔ encodeCommand i = w ∧ i.wellFormed hasStats = true := by
  constructor
  · intro h
    suffices henc : IsEncoding hasStats (Fields.ofCommand w) i by
      obtain ⟨henc, hw⟩ := henc
      exact ⟨by rw [encodeCommand, henc, toCommand_ofCommand], hw⟩
    unfold decodeCommand at h
    split at h
    · next hg => exact isEncoding_of_decodeRing hg h
    · next hg => exact isEncoding_of_decodeTransport hg h
    · next hg => exact isEncoding_of_decodeHandler hg h
    · next hg => exact isEncoding_of_decodeDevice hg h
    · cases h
  · rintro ⟨rfl, hw⟩
    exact decodeCommand_encodeCommand hw

end

/-- Settles O1: the six bytes give the word back, and the word its fields. -/
theorem decodeOfEncodeIsTheInstruction : Obligations.DecodeOfEncodeIsTheInstruction := by
  intro hasStats i rest hw
  rw [decode, encode, takeCommand_commandBytes]
  simp only [decodeCommand_encodeCommand hw]

/-- Settles O2: every check of the decoder fixes the bits it reads. -/
theorem acceptedWordIsAnEncoding : Obligations.AcceptedWordIsAnEncoding := fun _ _ _ => decodeCommand_eq_ok.1

/-- Without `HAS_STATS` a word of an optional operation is refused by that name. -/
theorem decodeCommand_of_statsAbsent {i : Instr} (h : i.needsStats = true) :
    decodeCommand false (encodeCommand i) = .error .statsAbsent := by
  rw [encodeCommand, decodeCommand, ofCommand_toCommand]
  cases i with
  | rbFreeSlots r | rbResetStats r | rbMinFree r => rfl
  | _ => cases h

/-- Settles O4: a word is decoded as the instruction whose encoding it is, so the two decoders differ where the
instruction is well-formed for one of them only. -/
theorem optionalOperationsNeedStats : Obligations.OptionalOperationsNeedStats := by
  intro w
  refine ⟨fun i h => ?_, fun e h => ?_⟩
  · obtain ⟨rfl, -⟩ := decodeCommand_eq_ok.1 h
    cases hs : i.needsStats with
    | true => exact decodeCommand_of_statsAbsent hs
    | false => exact decodeCommand_encodeCommand (wellFormed_of_plain hs)
  · cases hfalse : decodeCommand false w with
    | error e' => exact ⟨e', rfl⟩
    | ok i =>
      obtain ⟨rfl, -⟩ := decodeCommand_eq_ok.1 hfalse
      rw [decodeCommand_encodeCommand rfl] at h
      cases h

/-- Settles O5, by evaluating the decoder. -/
theorem sampleWordsDecode : Obligations.SampleWordsDecode := ⟨rfl, rfl, rfl, rfl, rfl, rfl⟩

end Sys2Proof
end

/-! The opcode table against the decoder (spec/30_encoding.md R65, spec/opcode_table.json). -/

section
namespace Sys2Proof

/-- A mask is laid over a word field by field. -/
theorem toCommand_and_eq_iff {f m p : Fields} :
    f.toCommand &&& m.toCommand = p.toCommand ↔
      f.grp &&& m.grp = p.grp ∧ f.fn &&& m.fn = p.fn ∧ f.sel &&& m.sel = p.sel ∧ f.arg &&& m.arg = p.arg := by
  have hand : f.toCommand &&& m.toCommand =
      Fields.toCommand ⟨f.grp &&& m.grp, f.fn &&& m.fn, f.sel &&& m.sel, f.arg &&& m.arg⟩ :=
    calc f.toCommand &&& m.toCommand
      _ = ((f.grp ++ f.fn ++ f.sel) &&& (m.grp ++ m.fn ++ m.sel)) ++ (f.arg &&& m.arg) := BitVec.and_append
      _ = ((f.grp ++ f.fn) &&& (m.grp ++ m.fn)) ++ (f.sel &&& m.sel) ++ (f.arg &&& m.arg) :=
        congrArg (· ++ (f.arg &&& m.arg)) BitVec.and_append
      _ = (f.grp &&& m.grp) ++ (f.fn &&& m.fn) ++ (f.sel &&& m.sel) ++ (f.arg &&& m.arg) :=
        congrArg (· ++ (f.sel &&& m.sel) ++ (f.arg &&& m.arg)) BitVec.and_append
  rw [hand]
  constructor
  · intro h
    obtain rfl := toCommand_inj h
    exact ⟨rfl, rfl, rfl, rfl⟩
  · rintro ⟨hg, hfn, hs, ha⟩
    rw [hg, hfn, hs, ha]

/-! The masks of the two selector formats and of the three operand formats (R61, R63). -/

theorem and_selMask_iff {s : BitVec 8} : s &&& 0xFE#8 = 0#8 ↔ ∃ r, s = encodeSel r := by
  have hbits : ∀ s : BitVec 8, s &&& 0xFE#8 = 0#8 ↔ s = 0#8 ∨ s = 1#8 := by decide
  rw [hbits]
  constructor
  · rintro (h | h)
    · exact ⟨.rx, h⟩
    · exact ⟨.tx, h⟩
  · rintro ⟨_ | _, h⟩
    · exact .inl h
    · exact .inr h

theorem and_byteMask_iff {a : Word} : a &&& 0xFFFFFF00#32 = 0#32 ↔ ∃ b, a = encodeByte b := by
  have hmask : a &&& 0xFFFFFF00#32 = a.extractLsb' 8 24 ++ 0#8 :=
    calc a &&& 0xFFFFFF00#32
      _ = (a.extractLsb' 8 24 ++ a.extractLsb' 0 8) &&& (BitVec.allOnes 24 ++ 0#8) := by rw [arg_eq_append]; rfl
      _ = a.extractLsb' 8 24 ++ 0#8 := by rw [BitVec.and_append, BitVec.and_allOnes, BitVec.and_zero]
  rw [hmask]
  constructor
  · intro h
    obtain ⟨hhigh, -⟩ := append_inj (h.trans (show 0#32 = 0#24 ++ 0#8 from rfl))
    exact ⟨_, arg_eq_encodeByte_iff.2 ⟨hhigh, rfl⟩⟩
  · rintro ⟨b, h⟩
    rw [(arg_eq_encodeByte_iff.1 h).1]
    rfl

/-! The row of an instruction, by its formats. -/

/-- The bits of `sel` a row fixes. -/
def Instr.selMask : Instr → BitVec 8
  | .rbInit _ _ => 0xFE#8
  | .rbIsFull _ => 0xFE#8
  | .rbIsEmpty _ => 0xFE#8
  | .rbEnqueue _ _ => 0xFE#8
  | .rbDequeue _ => 0xFE#8
  | .rbFreeSlots _ => 0xFE#8
  | .rbResetStats _ => 0xFE#8
  | .rbMinFree _ => 0xFE#8
  | _ => 0xFF#8

/-- The bits of `arg` a row fixes. -/
def Instr.argMask : Instr → Word
  | .rbInit _ _ => 0#32
  | .tpInit _ => 0#32
  | .rbEnqueue _ _ => 0xFFFFFF00#32
  | .tpWrite _ => 0xFFFFFF00#32
  | .devRxArrive _ => 0xFFFFFF00#32
  | _ => 0xFFFFFFFF#32

/-- The row of an instruction: group and function fixed, the operand's bits free. -/
def Instr.row (i : Instr) : OpcodeRow where
  mnemonic := i.mnemonic
  pattern := Fields.toCommand ⟨(encodeFields i).grp, (encodeFields i).fn, 0#8, 0#32⟩
  mask := Fields.toCommand ⟨0xF#4, 0xF#4, i.selMask, i.argMask⟩

/-- One instruction of each row, in the table's order. -/
def sampleInstrs : List Instr :=
  [.rbInit .rx 0#32, .rbIsFull .rx, .rbIsEmpty .rx, .rbEnqueue .rx 0#8, .rbDequeue .rx, .rbFreeSlots .rx,
   .rbResetStats .rx, .rbMinFree .rx, .tpInit 0#32, .tpWrite 0#8, .tpRead, .irqMask, .irqUnmask, .isr,
   .devRxArrive 0#8, .devTxShift]

theorem map_row_sampleInstrs : sampleInstrs.map Instr.row = opcodeTable := by decide

/-- Every row of the opcode table is an instruction's. -/
theorem exists_row {r : OpcodeRow} (hr : r ∈ opcodeTable) : ∃ i : Instr, i.row = r := by
  rw [← map_row_sampleInstrs] at hr
  obtain ⟨i, -, e⟩ := List.mem_map.1 hr
  exact ⟨i, e⟩

/-- Every instruction has its row in the opcode table. -/
theorem row_mem (i : Instr) : i.row ∈ opcodeTable := by
  have sample : ∀ j ∈ sampleInstrs, j.row = i.row → i.row ∈ opcodeTable := by
    intro j hj e
    rw [← map_row_sampleInstrs, ← e]
    exact List.mem_map_of_mem hj
  cases i with
  | rbInit => exact sample (.rbInit .rx 0#32) (by decide) rfl
  | rbIsFull => exact sample (.rbIsFull .rx) (by decide) rfl
  | rbIsEmpty => exact sample (.rbIsEmpty .rx) (by decide) rfl
  | rbEnqueue => exact sample (.rbEnqueue .rx 0#8) (by decide) rfl
  | rbDequeue => exact sample (.rbDequeue .rx) (by decide) rfl
  | rbFreeSlots => exact sample (.rbFreeSlots .rx) (by decide) rfl
  | rbResetStats => exact sample (.rbResetStats .rx) (by decide) rfl
  | rbMinFree => exact sample (.rbMinFree .rx) (by decide) rfl
  | tpInit => exact sample (.tpInit 0#32) (by decide) rfl
  | tpWrite => exact sample (.tpWrite 0#8) (by decide) rfl
  | devRxArrive => exact sample (.devRxArrive 0#8) (by decide) rfl
  | tpRead | irqMask | irqUnmask | isr | devTxShift => exact sample _ (by decide) rfl

/-- The opcode table holds the row of an instruction once. -/
theorem filter_row (i : Instr) : opcodeTable.filter (fun r => r == i.row) = [i.row] := by
  have hnodup : opcodeTable.Nodup := by decide
  rw [List.filter_beq, List.count_eq_one_of_mem hnodup (row_mem i)]
  rfl

/-- A word meets the row of the instruction it encodes. -/
theorem encodeCommand_and_mask (i : Instr) : encodeCommand i &&& i.row.mask = i.row.pattern := by
  have hsel : (encodeFields i).sel &&& i.selMask = 0#8 := by
    cases i with
    | rbInit r | rbIsFull r | rbIsEmpty r | rbEnqueue r | rbDequeue r | rbFreeSlots r | rbResetStats r | rbMinFree r =>
      exact and_selMask_iff.2 ⟨r, rfl⟩
    | _ => exact BitVec.zero_and
  have harg : (encodeFields i).arg &&& i.argMask = 0#32 := by
    cases i with
    | rbInit r c => exact BitVec.and_zero
    | tpInit c => exact BitVec.and_zero
    | rbEnqueue r b => exact and_byteMask_iff.2 ⟨b, rfl⟩
    | tpWrite b => exact and_byteMask_iff.2 ⟨b, rfl⟩
    | devRxArrive b => exact and_byteMask_iff.2 ⟨b, rfl⟩
    | _ => exact BitVec.zero_and
  exact toCommand_and_eq_iff.2 ⟨BitVec.and_allOnes, BitVec.and_allOnes, hsel, harg⟩

/-- A word that meets the row of an instruction encodes one of the same row. -/
theorem exists_of_meets_row {w : Command} {i : Instr} (h : w &&& i.row.mask = i.row.pattern) :
    ∃ j : Instr, j.row = i.row ∧ encodeCommand j = w := by
  obtain ⟨f, rfl⟩ : ∃ f : Fields, f.toCommand = w := ⟨_, toCommand_ofCommand w⟩
  obtain ⟨hg, hfn, hs, ha⟩ := toCommand_and_eq_iff.1 h
  have hg : f.grp = (encodeFields i).grp := BitVec.and_allOnes.symm.trans hg
  have hfn : f.fn = (encodeFields i).fn := BitVec.and_allOnes.symm.trans hfn
  have found : ∀ j : Instr, j.row = i.row → (encodeFields j).grp = (encodeFields i).grp →
      (encodeFields j).fn = (encodeFields i).fn → f.sel = (encodeFields j).sel → f.arg = (encodeFields j).arg →
      ∃ j : Instr, j.row = i.row ∧ encodeCommand j = f.toCommand := by
    intro j hrow hgj hfnj hsj haj
    refine ⟨j, hrow, congrArg Fields.toCommand ?_⟩
    cases f
    cases hj : encodeFields j
    simp_all
  have noSel : ∀ {s : BitVec 8}, s &&& 0xFF#8 = 0#8 → s = 0#8 := fun h => BitVec.and_allOnes.symm.trans h
  have noArg : ∀ {a : Word}, a &&& 0xFFFFFFFF#32 = 0#32 → a = 0#32 := fun h => BitVec.and_allOnes.symm.trans h
  cases i with
  | rbInit =>
    obtain ⟨r, hr⟩ := and_selMask_iff.1 hs
    exact found (.rbInit r f.arg) rfl rfl rfl hr rfl
  | rbIsFull =>
    obtain ⟨r, hr⟩ := and_selMask_iff.1 hs
    exact found (.rbIsFull r) rfl rfl rfl hr (noArg ha)
  | rbIsEmpty =>
    obtain ⟨r, hr⟩ := and_selMask_iff.1 hs
    exact found (.rbIsEmpty r) rfl rfl rfl hr (noArg ha)
  | rbEnqueue =>
    obtain ⟨r, hr⟩ := and_selMask_iff.1 hs
    obtain ⟨b, hb⟩ := and_byteMask_iff.1 ha
    exact found (.rbEnqueue r b) rfl rfl rfl hr hb
  | rbDequeue =>
    obtain ⟨r, hr⟩ := and_selMask_iff.1 hs
    exact found (.rbDequeue r) rfl rfl rfl hr (noArg ha)
  | rbFreeSlots =>
    obtain ⟨r, hr⟩ := and_selMask_iff.1 hs
    exact found (.rbFreeSlots r) rfl rfl rfl hr (noArg ha)
  | rbResetStats =>
    obtain ⟨r, hr⟩ := and_selMask_iff.1 hs
    exact found (.rbResetStats r) rfl rfl rfl hr (noArg ha)
  | rbMinFree =>
    obtain ⟨r, hr⟩ := and_selMask_iff.1 hs
    exact found (.rbMinFree r) rfl rfl rfl hr (noArg ha)
  | tpInit => exact found (.tpInit f.arg) rfl rfl rfl (noSel hs) rfl
  | tpWrite =>
    obtain ⟨b, hb⟩ := and_byteMask_iff.1 ha
    exact found (.tpWrite b) rfl rfl rfl (noSel hs) hb
  | devRxArrive =>
    obtain ⟨b, hb⟩ := and_byteMask_iff.1 ha
    exact found (.devRxArrive b) rfl rfl rfl (noSel hs) hb
  | tpRead => exact found .tpRead rfl rfl rfl (noSel hs) (noArg ha)
  | irqMask => exact found .irqMask rfl rfl rfl (noSel hs) (noArg ha)
  | irqUnmask => exact found .irqUnmask rfl rfl rfl (noSel hs) (noArg ha)
  | isr => exact found .isr rfl rfl rfl (noSel hs) (noArg ha)
  | devTxShift => exact found .devTxShift rfl rfl rfl (noSel hs) (noArg ha)

/-- A row of the table is met by the words that encode an instruction of that row. -/
theorem meets_iff {w : Command} {r : OpcodeRow} (hr : r ∈ opcodeTable) :
    w &&& r.mask = r.pattern ↔ ∃ i : Instr, i.row = r ∧ encodeCommand i = w := by
  constructor
  · intro h
    obtain ⟨i, rfl⟩ := exists_row hr
    exact exists_of_meets_row h
  · rintro ⟨i, rfl, rfl⟩
    exact encodeCommand_and_mask i

/-- Settles O3: a word meets the row of the one instruction it encodes. -/
theorem decoderSelectsTheTableRow : Obligations.DecoderSelectsTheTableRow := by
  intro w
  have wellFormed : ∀ i : Instr, i.wellFormed true = true := fun _ => rfl
  cases hdec : decodeCommand true w with
  | ok i =>
    obtain ⟨rfl, -⟩ := decodeCommand_eq_ok.1 hdec
    have hrows : rowsOf (encodeCommand i) = opcodeTable.filter (fun r => r == i.row) := by
      refine List.filter_congr fun r hr => Bool.eq_iff_iff.2 ?_
      rw [beq_iff_eq, beq_iff_eq, meets_iff hr]
      constructor
      · rintro ⟨j, rfl, hj⟩
        have hdec' := decodeCommand_eq_ok.2 ⟨hj, wellFormed j⟩
        cases hdec.symm.trans hdec'
        rfl
      · rintro rfl
        exact ⟨i, rfl, rfl⟩
    rw [hrows, filter_row]
    rfl
  | error e =>
    have hrows : rowsOf w = [] := by
      refine List.filter_eq_nil_iff.2 fun r hr h => ?_
      obtain ⟨j, -, hj⟩ := (meets_iff hr).1 (beq_iff_eq.1 h)
      rw [decodeCommand_eq_ok.2 ⟨hj, wellFormed j⟩] at hdec
      cases hdec
    rw [hrows]
    rfl

end Sys2Proof
end

/-! The fetch (spec/20_memory.md R50), reset (R28, R170), and the arithmetic of the indices (R14, R89). -/

section
namespace Sys2Proof.Machine

/-! What is done with the next word. -/

section
variable {s : State} {ts : List Turn} {run : Instr → State → Run State} {i : Instr} {rest : List Byte} {why : Reserved}

/-- A trace that starts with a word is not empty. -/
theorem trace_isEmpty_of_decode (h : decode s.cfg.hasStats s.trace = .ok (i, rest)) : s.trace.isEmpty = false := by
  cases htrace : s.trace with
  | nil =>
    rw [htrace] at h
    cases h
  | cons => rfl

theorem runNext_of_decode (h : decode s.cfg.hasStats s.trace = .ok (i, rest)) (hwait : mustWait i s = false) :
    runNext run ts s = run i { s with trace := rest, turns := ts } := by
  simp [runNext, trace_isEmpty_of_decode h, h, hwait]

theorem runNext_of_waiting (h : decode s.cfg.hasStats s.trace = .ok (i, rest)) (hwait : mustWait i s = true) :
    runNext run ts s = advance s := by
  simp [runNext, trace_isEmpty_of_decode h, h, hwait]

theorem runNext_of_reserved (hne : s.trace ≠ []) (h : decode s.cfg.hasStats s.trace = .error why) :
    runNext run ts s = .refused (.reservedWord why) := by
  simp [runNext, hne, h]

/-- A step whose turn runs a word whole. -/
theorem step_of_whole (h : s.turns = [] ∧ ts = [] ∨ s.turns = .whole :: ts) : step s = runNext exec ts s := by
  obtain ⟨h, rfl⟩ | h := h <;> simp [step, takeTurn, h]

/-- A step whose turn takes a word, run whole or begun. -/
theorem step_of_word_turn (h : s.turns = [] ∨ ∃ ts, s.turns = .whole :: ts ∨ s.turns = .start :: ts) :
    ∃ run ts, step s = runNext run ts s := by
  obtain h | ⟨ts, h | h⟩ := h
  · exact ⟨exec, [], step_of_whole (.inl ⟨h, rfl⟩)⟩
  · exact ⟨exec, ts, step_of_whole (.inr h)⟩
  · exact ⟨startInstr, ts, by simp [step, takeTurn, h]⟩

end

/-- Settles O6: the turn takes the word, and it need not wait. -/
theorem stepRunsTheDecodedWord : Obligations.StepRunsTheDecodedWord := fun _ _ _ _ hturns hdec hwait =>
  (step_of_whole hturns).trans (runNext_of_decode hdec hwait)

/-- Settles O7: the placed word decodes to its instruction, and the words behind it stay. -/
theorem placedWordRunsNext : Obligations.PlacedWordRunsNext := by
  intro s i hw hwait
  have hword : BitVec.ofNat 48 ((encodeCommand i).toNat % 2 ^ 48) = encodeCommand i := by
    rw [Nat.mod_eq_of_lt (encodeCommand i).isLt, BitVec.ofNat_toNat, BitVec.setWidth_eq]
  have hplaced : s.withFetchWord 48 (encodeCommand i).toNat =
      { s with trace := encode i ++ s.trace, turns := .whole :: s.turns } := by
    rw [State.withFetchWord, hword]
    rfl
  rw [hplaced]
  exact stepRunsTheDecodedWord { s with trace := encode i ++ s.trace, turns := .whole :: s.turns } i s.trace s.turns
    (.inr rfl) (decodeOfEncodeIsTheInstruction _ i s.trace hw) hwait

/-- Settles O8: a word MAIN cannot issue is left where it is. -/
theorem wordOfABusyMainWaits : Obligations.WordOfABusyMainWaits := by
  intro s i rest hturns hdec hwait
  obtain ⟨run, ts, hstep⟩ := step_of_word_turn hturns
  exact hstep.trans (runNext_of_waiting hdec hwait)

/-- Settles O9: the decoder's reason is the refusal's. -/
theorem reservedWordIsRefused : Obligations.ReservedWordIsRefused := by
  intro s why hturns hne hdec
  obtain ⟨run, ts, hstep⟩ := step_of_word_turn hturns
  exact hstep.trans (runNext_of_reserved hne hdec)

/-! Reset. -/

/-- Settles O13, field by field. -/
theorem resetLeavesTheStatedValues : Obligations.ResetLeavesTheStatedValues := by
  intro c
  have ring : ∀ sel, (State.resetWith c).ring sel = Ring.reset := by rintro (_ | _) <;> rfl
  exact ⟨rfl, rfl, rfl, rfl, rfl, rfl, fun sel => ⟨by rw [ring]; rfl, fun slot => by rw [ring]; rfl⟩, rfl, rfl, rfl,
    rfl, rfl, rfl, rfl, rfl, rfl⟩

/-- Settles O14: the turn is the reset event's. -/
theorem resetEventAbandonsEverything : Obligations.ResetEventAbandonsEverything := by
  intro s ts hturns
  simp only [step, takeTurn, hturns]
  rfl

/-! The occupancy (R14) and the index arithmetic (R89). -/

/-- Settles O28: the case distinctions of the two operations. -/
theorem indexArithmeticWrapsAtCapacity : Obligations.IndexArithmeticWrapsAtCapacity := by
  intro i w d cap hcap hi hw hd
  have hlt := subMod_lt hw hd
  refine ⟨?_, subMod_eq hw hd, by omega, by unfold freeOf; omega⟩
  rw [incMod_eq hi]
  exact if_congr (by omega) rfl rfl

/-- Settles O27: full and empty are the two extreme counts. -/
theorem flagsSayTheOccupancy : Obligations.FlagsSayTheOccupancy := by
  intro r hcap hrd hwr
  have hfull := Ring.full_iff hrd hwr
  have hempty := Ring.empty_iff hrd hwr
  have hlt := Ring.count_lt hrd hwr
  have hfree : r.free = r.cap - 1 - r.count := rfl
  refine ⟨beq_iff_eq, hfull, by rw [hfull]; omega, isEmptyOf_iff _ _, hempty, by rw [hempty]; omega, by omega, ?_,
    Ring.contents_length r, fun k hk => ?_⟩
  · rintro ⟨h1, h2⟩
    have := hfull.1 h1
    have := hempty.1 h2
    omega
  · simp [Ring.contents, hk]

end Sys2Proof.Machine
end

/-! The software above the block: the codec, the clock, the line assembler (spec/49_surrounding_software.md R204 to
R209, R230). -/

section
namespace Sys2Proof.Machine

/-! The codec. -/

theorem hexValue_hexDigit {n : Nat} (h : n < 16) : hexValue (hexDigit n) = some n := by
  have hall : ∀ n : Fin 16, hexValue (hexDigit n.val) = some n.val := by decide
  exact hall ⟨n, h⟩

@[simp] theorem encodeHex_length (k x : Nat) : (encodeHex k x).length = k := by
  induction k with
  | zero => rfl
  | succ k ih => rw [encodeHex, List.length_cons, ih]

/-- The digits behind those already read make the number's last `k` digits. -/
theorem decodeDigits_encodeHex (k acc x : Nat) :
    decodeDigits 16 hexValue acc (encodeHex k x) = some (acc * 16 ^ k + x % 16 ^ k) := by
  induction k generalizing acc with
  | zero => simp [encodeHex, decodeDigits, Nat.mod_one]
  | succ k ih =>
    simp only [encodeHex, decodeDigits, hexValue_hexDigit (Nat.mod_lt _ (by decide : 0 < 16)), ih]
    rw [Nat.mod_pow_succ, pow_succ]
    congr 1
    ring

theorem decodeHex_encodeHex {k x : Nat} (h : x < 16 ^ k) : decodeHex (encodeHex k x) = some x := by
  rw [decodeHex, decodeDigits_encodeHex, Nat.mod_eq_of_lt h, Nat.zero_mul, Nat.zero_add]

/-- Settles O58: two, four and eight hex digits hold 8, 16 and 32 bits. -/
theorem hexCodecRoundTrips : Obligations.HexCodecRoundTrips := by
  refine ⟨fun x => ?_, fun x => ?_, fun x => ?_⟩
  · rw [encodeHex8, decodeHex8, if_pos (encodeHex_length _ _), decodeHex_encodeHex x.isLt, Option.map_some,
      BitVec.ofNat_toNat, BitVec.setWidth_eq]
  · rw [encodeHex16, decodeHex16, if_pos (encodeHex_length _ _), decodeHex_encodeHex x.isLt, Option.map_some,
      BitVec.ofNat_toNat, BitVec.setWidth_eq]
  · rw [encodeHex32, decodeHex32, if_pos (encodeHex_length _ _), decodeHex_encodeHex x.isLt, Option.map_some,
      BitVec.ofNat_toNat, BitVec.setWidth_eq]

/-! The clock. -/

section
variable {t : TimeOfDay}

/-- Within the minute only the second moves. -/
theorem advanceSeconds_of_lt {k : Nat} (h : t.second + k < 60) :
    advanceSeconds k t = some { t with second := t.second + k } := by
  induction k generalizing t with
  | zero => rfl
  | succ k ih =>
    have hone : advanceOneSecond t = some { t with second := t.second + 1 } := if_neg (by omega)
    rw [advanceSeconds, hone, Option.bind_some, ih (t := { t with second := t.second + 1 }) (by simp only; omega)]
    simp only [Nat.add_assoc, Nat.add_comm 1 k]

theorem advanceSeconds_add (j k : Nat) : advanceSeconds (j + k) t = (advanceSeconds j t).bind (advanceSeconds k) := by
  induction j generalizing t with
  | zero => rw [Nat.zero_add]; rfl
  | succ j ih =>
    rw [Nat.succ_add, advanceSeconds, advanceSeconds, Option.bind_assoc]
    exact congrArg _ (funext fun _ => ih)

/-- The minute and what is above it do not look at the second. -/
theorem advanceMinute_second (s : Nat) :
    advanceMinute { t with second := s } = (advanceMinute t).map fun u => { u with second := s } := by
  unfold advanceMinute advanceHour advanceDay advanceMonth advanceYear
  split_ifs <;> rfl

/-- Sixty seconds roll the minute over once and come back to the second they started from. -/
theorem advanceSeconds_sixty (h : t.second < 60) : advanceSeconds 60 t = advanceMinute t := by
  have hroll : advanceOneSecond { t with second := 59 } = advanceMinute { t with second := 0 } :=
    if_pos (Nat.le_refl 60)
  have hback : ∀ u : TimeOfDay, advanceSeconds t.second { u with second := 0 } = some { u with second := t.second } :=
    fun u => (advanceSeconds_of_lt (t := { u with second := 0 }) (by simpa using h)).trans (by simp)
  calc advanceSeconds 60 t
    _ = advanceSeconds ((59 - t.second) + (t.second + 1)) t := congrArg (advanceSeconds · t) (by omega)
    _ = advanceSeconds (t.second + 1) { t with second := 59 } := by
      rw [advanceSeconds_add, advanceSeconds_of_lt (by omega), Option.bind_some,
        show t.second + (59 - t.second) = 59 by omega]
    _ = (advanceMinute { t with second := 0 }).bind (advanceSeconds t.second) := by rw [advanceSeconds, hroll]
    _ = (advanceMinute t).map fun u => { u with second := t.second } := by
      rw [advanceMinute_second]
      cases advanceMinute t with
      | none => rfl
      | some u => exact hback u
    _ = advanceMinute t := (advanceMinute_second t.second).symm

/-- The cascade from the minute up, by the place where it ends. -/
theorem advanceMinute_eq :
    advanceMinute t =
      if t.minute + 1 < 60 then some { t with minute := t.minute + 1 }
      else if t.hour + 1 < 24 then some { t with hour := t.hour + 1, minute := 0 }
      else if t.day + 1 ≤ daysInMonth t.year t.month then some { t with day := t.day + 1, hour := 0, minute := 0 }
      else if t.month + 1 ≤ 12 then some { t with month := t.month + 1, day := 1, hour := 0, minute := 0 }
      else if t.year + 1 ≤ 3000 then some { t with year := t.year + 1, month := 1, day := 1, hour := 0, minute := 0 }
      else none := by
  simp only [advanceMinute, advanceHour, advanceDay, advanceMonth, advanceYear, ge_iff_le, gt_iff_lt, ← Nat.not_lt,
    ite_not]

end

theorem daysInMonth_eq {year month : Nat} (h1 : 1 ≤ month) (h2 : month ≤ 12) :
    daysInMonth year month =
      if month = 2 then (if (year % 4 = 0 ∧ year % 100 ≠ 0) ∨ year % 400 = 0 then 29 else 28)
      else if month = 4 ∨ month = 6 ∨ month = 9 ∨ month = 11 then 30 else 31 := by
  have hleap : isLeapYear year = true ↔ (year % 4 = 0 ∧ year % 100 ≠ 0) ∨ year % 400 = 0 := by simp [isLeapYear]
  simp only [daysInMonth, hleap, if_pos (And.intro h1 h2)]

/-- Settles O59: sixty seconds are one step of the cascade from the minute up. -/
theorem sixtySecondsAreAMinute : Obligations.SixtySecondsAreAMinute :=
  ⟨fun _ h => (advanceSeconds_sixty h).trans advanceMinute_eq, fun _ _ => daysInMonth_eq⟩

/-! The line assembler. -/

/-- A byte goes in where there is room for it and the terminating null, and else the position goes back to 0. -/
theorem assemble_length_lt {c : SoftConfig} {line : List Byte} (b : Byte) (h : line.length < c.lineN) :
    (assemble c line b).1.length < c.lineN := by
  have hpos : 0 < c.lineN := by omega
  unfold assemble
  split_ifs with hend hfull
  · exact hpos
  · exact hpos
  · rw [List.length_append, List.length_singleton]
    omega

/-- Settles O60: byte by byte. -/
theorem lineNeverOverflowsTheBuffer : Obligations.LineNeverOverflowsTheBuffer := by
  intro c bytes
  induction bytes with
  | nil => exact fun _ => id
  | cons b bytes ih => exact fun _ h => ih _ (assemble_length_lt b h)

end Sys2Proof.Machine
end
